-- ==== Sys2Proof/Word.lean ====
section
/-! DEFINITION. The word types of the block and its two all-ones constants (spec/00_scope.md R7). -/

namespace Sys2Proof

/-- A 32-bit register, operand, length, count or weight (`REG_W`, `LEN_W`, `CNT_W`, `BITCNT_W` of R7). -/
abbrev Word := BitVec 32

/-- One cell of `CMP` (R38). -/
abbrev Byte := BitVec 8

/-- One cell of `SRC` or `OUT`: `SYM_W` bits (R6), held in 16; at `SYM_W = 8` the upper eight are 0 (log entry 7). -/
abbrev Symbol := BitVec 16

/-- A node id: a valid id or `NIL` (R28). -/
abbrev NodeId := Word

/-- A codeword or payload: bits in reading order (spec/00_scope.md, notation). -/
abbrev Bits := List Bool

/-- `NIL`: the empty tree, the missing child (R7, R28). -/
def nilId : NodeId := 0xFFFFFFFF#32

/-- `EOS`: what `BR.READ` answers at end of stream (R7, R95). -/
def eosWord : Word := 0xFFFFFFFF#32

/-- `CNT_MAX`, `BITS_MAX` and the largest length: the largest 32-bit value (R7). -/
def wordMax : Word := 0xFFFFFFFF#32

end Sys2Proof
end

