-- ==== Sys2Proof/Config.lean ====
section
/-! DEFINITION. What an instance of the block fixes: `SYM_W` and `NODES_MAX` (spec/00_scope.md R6, R8). They are
parameters of every step (spec/10_state.md R43); the model carries them in State and no step changes them. -/

namespace Sys2Proof

/-- `SYM_W`, 8 or 16 (R6). -/
inductive SymWidth where
  | w8
  | w16
  deriving DecidableEq, Repr

/-- `SYM_W` in bits (R6). -/
def SymWidth.bits : SymWidth → Nat
  | .w8 => 8
  | .w16 => 16

/-- The two open parameters of an instance (R6, R8). -/
structure Config where
  symW     : SymWidth
  nodesMax : Word
  deriving DecidableEq, Repr

/-- `NSYM = 2 ^ SYM_W` (R6). -/
def Config.nsym (c : Config) : Nat := 2 ^ c.symW.bits

/-- The instance that `State.reset` is the reset state of. DESIGN CHOICE, log entry 4: `SYM_W = 8` as in the test
vectors, and a node store that holds a full tree of either width. -/
def Config.resetInstance : Config := { symW := .w8, nodesMax := 131071#32 }

end Sys2Proof
end

