-- ==== Sys2Proof/Syntax.lean ====
section
/-! DEFINITION. The 22 commands of HE-CMD version 1 (spec/30_encoding.md R93), their formats (R91) and the lines of the
assembler (R105, R106). -/

namespace Sys2Proof

/-- One constructor per row of spec/opcode_table.json. Operands are whole `ARG` registers (R92), so only the bit of
`BW.WRITE` is part of the command word (R91, format W). -/
inductive Instr where
  | sysClear
  | sesRun
  | fcCount
  | treeLeaf
  | treeNode
  | treeIsLeaf
  | treeSym
  | treeLeft
  | treeRight
  | treeWeight
  | treeSize
  | treeEq
  | tbBuild
  | cbDerive
  | bwOpen
  | bwClose
  | bwWrite (b : Bool)
  | brOpen
  | brRead
  | brClose
  | encRun
  | decRun
  deriving DecidableEq, Repr

/-- The five formats (R91). -/
inductive Format where
  | n
  | a
  | ab
  | abc
  | w
  deriving DecidableEq, Repr

/-- How many `ARG` registers a format reads (R91). -/
def Format.argCount : Format → Nat
  | .n => 0
  | .a => 1
  | .ab => 2
  | .abc => 3
  | .w => 0

/-- The format column of R93. -/
def Instr.format : Instr → Format
  | .sysClear => .n
  | .sesRun => .n
  | .fcCount => .n
  | .treeLeaf => .ab
  | .treeNode => .abc
  | .treeIsLeaf => .a
  | .treeSym => .a
  | .treeLeft => .a
  | .treeRight => .a
  | .treeWeight => .a
  | .treeSize => .a
  | .treeEq => .ab
  | .tbBuild => .n
  | .cbDerive => .a
  | .bwOpen => .n
  | .bwClose => .n
  | .bwWrite _ => .w
  | .brOpen => .n
  | .brRead => .n
  | .brClose => .n
  | .encRun => .n
  | .decRun => .a

/-- One line of a listing, names already replaced by the values they are bound to (R105); `bits` is the
pseudo-instruction `BW.BITS` (R106). -/
inductive AsmLine where
  | command (i : Instr) (operands : List Word)
  | bits (bs : Bits)
  deriving DecidableEq, Repr

end Sys2Proof
end

