-- ==== Sys2Proof/WellFormed.lean ====
section
/-! DEFINITION. Which instances, commands and assembler lines the spec admits. The range checks of operands depend on
the state and stand in Machine/Operands.lean (spec/30_encoding.md R92). -/

namespace Sys2Proof

/-- `2·NSYM − 1 ≤ NODES_MAX` (R8); `NODES_MAX ≤ 2^32 − 1` holds by its width. -/
def Config.wf (c : Config) : Bool := decide (2 * c.nsym - 1 ≤ c.nodesMax.toNat)

/-- Every command is well-formed: the one field, the bit of `BW.WRITE`, "cannot be out of range" (R92, D2). -/
def Instr.wf : Instr → Bool
  | .sysClear | .sesRun | .fcCount | .treeLeaf | .treeNode | .treeIsLeaf | .treeSym | .treeLeft | .treeRight
  | .treeWeight | .treeSize | .treeEq | .tbBuild | .cbDerive | .bwOpen | .bwClose | .bwWrite _ | .brOpen | .brRead
  | .brClose | .encRun | .decRun => true

/-- A line has as many operands as its format reads (R91, R105); `BW.BITS` has a non-empty string (R106). -/
def AsmLine.wf : AsmLine → Bool
  | .command i operands => i.wf && decide (operands.length = i.format.argCount)
  | .bits bs => !bs.isEmpty

end Sys2Proof
end

