-- ==== Sys2Proof/Decode.lean ====
section
/-! DEFINITION. The command word: decoding, total on every 32-bit value, and the encoder (spec/30_encoding.md R90 to
R94). -/

namespace Sys2Proof

/-- Why a word written to `CMD` is no command (R94). -/
inductive Reject where
  /-- A bit of `[31:8]` is not 0 (R90, R94). -/
  | upperBitsNonZero
  /-- The opcode is not in the table of R93 (R94). -/
  | reservedOpcode
  deriving DecidableEq, Repr

/-- What the decoder answers. -/
inductive Decoded where
  | instr (i : Instr)
  | reject (r : Reject)
  deriving DecidableEq, Repr

/-- R93, the commands of units 0 to 3 (system, frequency counter, tree store, builder and codebook). -/
def opcodesLow : List (Byte × Instr) :=
  [(0x01#8, .sysClear), (0x02#8, .sesRun), (0x10#8, .fcCount),
   (0x20#8, .treeLeaf), (0x21#8, .treeNode), (0x22#8, .treeIsLeaf), (0x23#8, .treeSym), (0x24#8, .treeLeft),
   (0x25#8, .treeRight), (0x26#8, .treeWeight), (0x27#8, .treeSize), (0x28#8, .treeEq),
   (0x30#8, .tbBuild), (0x31#8, .cbDerive)]

/-- R93, the commands of units 4 to 6 (bit I/O, encoder, decoder); bit 0 of the two `BW.WRITE` opcodes is `b` (R91). -/
def opcodesHigh : List (Byte × Instr) :=
  [(0x40#8, .bwOpen), (0x41#8, .bwClose), (0x42#8, .bwWrite false), (0x43#8, .bwWrite true),
   (0x44#8, .brOpen), (0x45#8, .brRead), (0x46#8, .brClose), (0x50#8, .encRun), (0x60#8, .decRun)]

/-- The whole opcode map: 23 opcode values (R93). -/
def opcodes : List (Byte × Instr) := opcodesLow ++ opcodesHigh

/-- The command an opcode names in a list of rows, if any. -/
def lookupOpcode : List (Byte × Instr) → Byte → Option Instr
  | [], _ => none
  | (o, i) :: rows, b => if o = b then some i else lookupOpcode rows b

/-- The opcode field `CMD[7:0]` (R90). -/
def opcodeField (w : Word) : Byte := w.extractLsb' 0 8

/-- The bits `CMD[31:8]`, which must be 0 (R90). -/
def upperField (w : Word) : BitVec 24 := w.extractLsb' 8 24

/-- Decode a word written to `CMD` (R90, R93, R94). -/
def decode (w : Word) : Decoded :=
  if upperField w = 0#24 then
    match lookupOpcode opcodes (opcodeField w) with
    | some i => .instr i
    | none => .reject .reservedOpcode
  else .reject .upperBitsNonZero

/-- The opcode column of R93. -/
def Instr.opcode : Instr → Byte
  | .sysClear => 0x01#8
  | .sesRun => 0x02#8
  | .fcCount => 0x10#8
  | .treeLeaf => 0x20#8
  | .treeNode => 0x21#8
  | .treeIsLeaf => 0x22#8
  | .treeSym => 0x23#8
  | .treeLeft => 0x24#8
  | .treeRight => 0x25#8
  | .treeWeight => 0x26#8
  | .treeSize => 0x27#8
  | .treeEq => 0x28#8
  | .tbBuild => 0x30#8
  | .cbDerive => 0x31#8
  | .bwOpen => 0x40#8
  | .bwClose => 0x41#8
  | .bwWrite false => 0x42#8
  | .bwWrite true => 0x43#8
  | .brOpen => 0x44#8
  | .brRead => 0x45#8
  | .brClose => 0x46#8
  | .encRun => 0x50#8
  | .decRun => 0x60#8

/-- The word the host writes to `CMD` to issue a command (R90, R105). -/
def encode (i : Instr) : Word := i.opcode.setWidth 32

/-- The instruction the decoder reads from a row of spec/opcode_table.json whose bits are `w`; the bits above `nbits`
are 0. -/
def decodeTableWord (nbits w : Nat) : Option Instr :=
  match decode (BitVec.ofNat 32 (w % 2 ^ nbits)) with
  | .instr i => some i
  | .reject _ => none

end Sys2Proof
end

