-- ==== Sys2Proof/Machine/State.lean ====
section
/-! DEFINITION. The state of the block, of the memories it reaches, and of what the host and the environment are about
to do (spec/10_state.md; INVENTORY.md lists every field). -/

namespace Sys2Proof.Machine

/-- The nine kinds of fault the block raises (R270). They are NEXT states of the model, recorded in `ERR`. -/
inductive FaultKind where
  | sourceUnavailable
  | sinkUnavailable
  | sourceCorrupt
  | sinkCorrupt
  | streamTruncated
  | streamUnexpectedBit
  | symbolUnencodable
  | illegalCommand
  | capacityExceeded
  deriving DecidableEq, Repr

/-- A node record, the two shapes of R26. The fields R26 gives a leaf's `left` and `right` (`NIL`) and an internal
node's `sym` (0) are views (Machine/Ops.lean). -/
inductive Node where
  | leaf (sym : Symbol) (weight : Word)
  | inner (left right : NodeId) (weight : Word)
  deriving DecidableEq, Repr

/-- An external memory: cells by address, in the canonical form of Machine/Memory.lean, and the length register
(R37 to R39). -/
structure Space (α : Type) where
  cells : List (Nat × α)
  len   : Word
  deriving DecidableEq, Repr

/-- The environment's answer to one `Open`, `MemRead` or `MemWrite` (R61). `ioerr left` carries the value that a failed
`MemWrite` leaves in the addressed cell, which the spec leaves open (R63, U3): a free value of the model, log entry 3. -/
inductive Answer where
  | ok
  | ioerr (left : Symbol)
  deriving DecidableEq, Repr

/-- The six registers of the command port (R20). -/
inductive PortReg where
  | cmd
  | arg0
  | arg1
  | arg2
  | res
  | status
  deriving DecidableEq, Repr

/-- What the host can name in the external memories: a cell or a length (R37 to R39, R77). -/
inductive MemRef where
  | src (a : Word)
  | srcLen
  | cmp (a : Word)
  | cmpLen
  | out (a : Word)
  | outLen
  deriving DecidableEq, Repr

/-- What the host can do between commands (R77, R235, R239, R310). -/
inductive HostOp where
  /-- Write a port register; writing `CMD` issues a command (R90, R235, R239). -/
  | writeReg (r : PortReg) (v : Word)
  /-- Read a port register; nothing changes (R239). -/
  | readReg (r : PortReg)
  /-- Read a cell or a length of an external memory; nothing changes (R69, R77). -/
  | readMem (m : MemRef)
  /-- Write one cell of `SRC` (R77). -/
  | writeSrc (a : Word) (v : Symbol)
  /-- Write `SRC_LEN` (R37, R77). -/
  | writeSrcLen (n : Word)
  /-- Write one byte of `CMP` (R77). -/
  | writeCmp (a : Word) (v : Byte)
  /-- Write `CMP_LEN` (R77). -/
  | writeCmpLen (n : Word)
  /-- Write one cell of `OUT` (R77). -/
  | writeOut (a : Word) (v : Symbol)
  /-- Write `OUT_LEN` (R77). -/
  | writeOutLen (n : Word)
  /-- Reset while the block is idle (R310). -/
  | reset
  /-- Write `w` to `CMD` and reset while that command runs, at a point the spec leaves open: `used` is how many answers
  of the environment the command has used up by then, the lists and lengths are what is left in `CMP` and `OUT` where
  R310 says they are unspecified (U10). Free values of the model, log entry 12. -/
  | resetDuring (w : Word) (used : Nat) (cmpLeft : List (Word × Byte)) (cmpLen : Word) (outLeft : List (Word × Symbol))
      (outLen : Word)
  deriving DecidableEq, Repr

/-- Everything a step reads or writes. -/
structure State where
  /-- `SYM_W` and `NODES_MAX` (R43); the model's own field, log entry 4. -/
  cfg      : Config
  /-- `ARG0` (R20). -/
  arg0     : Word
  /-- `ARG1` (R20). -/
  arg1     : Word
  /-- `ARG2` (R20). -/
  arg2     : Word
  /-- `RES` (R20, R21). -/
  res      : Word
  /-- `ERR` (R23): none, or the first fault; its code is `State.errCode` (Machine/Flags.lean). -/
  err      : Option FaultKind
  /-- `FT` (R25): the entries (s, c) with c > 0, in increasing s. -/
  ft       : List (Nat × Word)
  /-- `NODE[0 .. NODE_CNT − 1]` in id order (R26, R27); `NODE_CNT` is the length. -/
  nodes    : List Node
  /-- `CB` (R33): the present entries in increasing symbol order. -/
  cb       : List (Nat × Bits)
  /-- `BW_OPEN` (R31). -/
  bwOpen   : Bool
  /-- `BW_BUF` (R31). -/
  bwBuf    : Byte
  /-- `BW_NBUF` (R31). -/
  bwNbuf   : BitVec 3
  /-- `BW_TOTAL` (R31). -/
  bwTotal  : Word
  /-- `BR_OPEN` (R32). -/
  brOpen   : Bool
  /-- `BR_REM` (R32). -/
  brRem    : Word
  /-- `BR_PTR` (R32). -/
  brPtr    : Word
  /-- `BR_BUF` (R32). -/
  brBuf    : Byte
  /-- `BR_NBUF` (R32). -/
  brNbuf   : BitVec 4
  /-- `BR_SHORT` (R32). -/
  brShort  : Bool
  /-- `DEC_ROOT` (R34). -/
  decRoot  : NodeId
  /-- `DEC_CUR` (R34). -/
  decCur   : NodeId
  /-- `CMP_VALID` (R40). -/
  cmpValid : Bool
  /-- `OUT_VALID` (R40). -/
  outValid : Bool
  /-- `SRC` and `SRC_LEN` (R37). -/
  src      : Space Symbol
  /-- `CMP` and `CMP_LEN` (R38). -/
  cmp      : Space Byte
  /-- `OUT` and `OUT_LEN` (R39). -/
  out      : Space Symbol
  /-- The environment's next answers (R61), oldest first; past the end every answer is `ok`. The model's own field, log
  entry 2. -/
  env      : List Answer
  /-- The host's pending actions (R77, R235), oldest first. The model's own field, log entry 1. -/
  host     : List HostOp
  deriving DecidableEq, Repr

/-- Why the machine stops. It has no constructor: "Every command terminates, and the block has no hung or stuck state"
(R325), and every fault of the block is a next state recorded in `ERR` (R270, R280). Nobody raises one; safe. -/
inductive Fault where
  deriving DecidableEq, Repr

/-- Why an instruction has no meaning. -/
inductive Refusal where
  /-- Raised by an arm of `exec` whose instruction has no meaning yet; safe. No arm is left so. -/
  | notModelled (mnemonic : String)
  deriving DecidableEq, Repr

/-- The external memory as the model starts it: nothing listed, length 0. DESIGN CHOICE, log entry 5: the spec says only
that reset leaves the memories alone (R44, R310). -/
def Space.blank (α : Type) : Space α := { cells := [], len := 0#32 }

/-- The reset state of an instance with the parameters `c`: the column "value after reset" of R44. -/
def State.resetOf (c : Config) : State where
  cfg := c
  arg0 := 0#32
  arg1 := 0#32
  arg2 := 0#32
  res := 0#32
  err := none
  ft := []
  nodes := []
  cb := []
  bwOpen := false
  bwBuf := 0#8
  bwNbuf := 0#3
  bwTotal := 0#32
  brOpen := false
  brRem := 0#32
  brPtr := 0#32
  brBuf := 0#8
  brNbuf := 0#4
  brShort := false
  decRoot := nilId
  decCur := nilId
  cmpValid := false
  outValid := false
  src := Space.blank Symbol
  cmp := Space.blank Byte
  out := Space.blank Symbol
  env := []
  host := []

/-- The machine right after reset (R44, R310, R311), of the instance `Config.resetInstance` (log entry 4). -/
def State.reset : State := State.resetOf Config.resetInstance

end Sys2Proof.Machine
end

