-- ==== Sys2Proof/Machine/Memory.lean ====
section
/-! DEFINITION. Sparse memories and tables as lists of (address, value) in one canonical form: addresses strictly rising,
and no entry equal to what an unlisted address reads as. `SRC`, `CMP`, `OUT` and `FT` read 0 where nothing is listed,
`CB` reads `ABSENT` (spec/10_state.md R25, R33, R37 to R39; log entries 5 and 15). -/

namespace Sys2Proof.Machine

/-- The entry listed at `a`, if any. -/
def Memory.get? {α : Type} : List (Nat × α) → Nat → Option α
  | [], _ => none
  | (k, v) :: m, a => if k = a then some v else Memory.get? m a

/-- What address `a` reads as, `d` where nothing is listed. -/
def Memory.get {α : Type} (d : α) (m : List (Nat × α)) (a : Nat) : α := (Memory.get? m a).getD d

/-- List `v` at `a`, in place of what was listed there, keeping the order. -/
def Memory.insert {α : Type} (a : Nat) (v : α) : List (Nat × α) → List (Nat × α)
  | [] => [(a, v)]
  | (k, w) :: m =>
    if a < k then (a, v) :: (k, w) :: m
    else if a = k then (a, v) :: m
    else (k, w) :: Memory.insert a v m

/-- Remove what is listed at `a`. -/
def Memory.erase {α : Type} (a : Nat) : List (Nat × α) → List (Nat × α)
  | [] => []
  | (k, w) :: m => if a = k then m else (k, w) :: Memory.erase a m

/-- Write `v` at `a`; writing what an unlisted address reads as removes the entry. -/
def Memory.set {α : Type} [DecidableEq α] (d : α) (m : List (Nat × α)) (a : Nat) (v : α) : List (Nat × α) :=
  if v = d then Memory.erase a m else Memory.insert a v m

/-- The addresses rise strictly, and lie at or above `lo`. -/
def Memory.rising {α : Type} : Nat → List (Nat × α) → Bool
  | _, [] => true
  | lo, (k, _) :: m => decide (lo ≤ k) && Memory.rising (k + 1) m

/-- The canonical form. -/
def Memory.wf {α : Type} [DecidableEq α] (d : α) (m : List (Nat × α)) : Bool :=
  Memory.rising 0 m && m.all fun e => decide (e.2 ≠ d)

/-- The canonical memory that a list of writes to an empty one leaves, the last write at the head. -/
def Memory.ofWrites {α : Type} [DecidableEq α] (d : α) : List (Word × α) → List (Nat × α)
  | [] => []
  | (a, v) :: ws => Memory.set d (Memory.ofWrites d ws) a.toNat v

/-- The value cell `a` of an external memory holds. -/
def Space.read {α : Type} (d : α) (sp : Space α) (a : Nat) : α := Memory.get d sp.cells a

/-- Store in a cell without touching the length: a host write, or what a failed `MemWrite` leaves (R63). -/
def Space.store {α : Type} [DecidableEq α] (d : α) (sp : Space α) (a : Nat) (v : α) : Space α :=
  { sp with cells := Memory.set d sp.cells a v }

/-- `MemWrite` answered `ok`: store, and advance the length when the address is the length (R61). -/
def Space.put {α : Type} [DecidableEq α] (d : α) (sp : Space α) (a : Nat) (v : α) : Space α :=
  { cells := Memory.set d sp.cells a v, len := if a = sp.len.toNat then sp.len + 1#32 else sp.len }

end Sys2Proof.Machine
end

