-- ==== Sys2Proof/Machine/Ops.lean ====
section
/-! DEFINITION. The shared operations: a command's run, the environment's answers and the access primitives
(spec/20_memory.md R61 to R63), the node store, the quiet close (spec/40_bit_io_unit.md R133), raising a fault
(spec/60_exceptions.md R280, R281) and the two ways out of it, `SYS.CLEAR`'s session and reset (spec/10_state.md R44). -/

namespace Sys2Proof.Machine

/-- How a piece of pseudocode ends: it returns a value, or raises a kind (spec/00_scope.md, notation). Both carry the
state it leaves; nothing is rolled back (R280, R285). -/
inductive Run (α : Type) where
  | done (a : α) (s : State)
  | raised (k : FaultKind) (s : State)
  deriving DecidableEq, Repr

/-- One piece of pseudocode after another: "nothing after a `raise` in a pseudocode body runs". -/
def Run.andThen {α β : Type} (r : Run α) (f : α → State → Run β) : Run β :=
  match r with
  | .done a s => f a s
  | .raised k s => .raised k s

/-- The state a run leaves, however it ends. -/
def Run.state {α : Type} : Run α → State
  | .done _ s => s
  | .raised _ s => s

/-! ### The environment -/

/-- The next answer of the environment, and the state with that answer used up (R61; log entry 2: `ok` past the end). -/
def ask (s : State) : Answer × State :=
  match s.env with
  | [] => (.ok, s)
  | a :: rest => (a, { s with env := rest })

/-! ### `Open`, `MemRead`, `MemWrite` (R61) and the kinds their failures raise (R62) -/

/-- `Open(SRC, R)` and `Open(CMP, R)`: a source. -/
def openRead (s : State) : Run Unit :=
  match ask s with
  | (.ok, s') => .done () s'
  | (.ioerr _, s') => .raised .sourceUnavailable s'

/-- `Open(CMP, W)`: a sink; answered `ok` it sets `CMP_LEN` to 0. -/
def openWriteCmp (s : State) : Run Unit :=
  match ask s with
  | (.ok, s') => .done () { s' with cmp := { s'.cmp with len := 0#32 } }
  | (.ioerr _, s') => .raised .sinkUnavailable s'

/-- `Open(OUT, W)`: a sink; answered `ok` it sets `OUT_LEN` to 0. -/
def openWriteOut (s : State) : Run Unit :=
  match ask s with
  | (.ok, s') => .done () { s' with out := { s'.out with len := 0#32 } }
  | (.ioerr _, s') => .raised .sinkUnavailable s'

/-- `MemRead(SRC, a)`. -/
def readSrc (a : Nat) (s : State) : Run Symbol :=
  match ask s with
  | (.ok, s') => .done (s'.src.read 0#16 a) s'
  | (.ioerr _, s') => .raised .sourceCorrupt s'

/-- `MemRead(CMP, a)`. -/
def readCmp (a : Nat) (s : State) : Run Byte :=
  match ask s with
  | (.ok, s') => .done (s'.cmp.read 0#8 a) s'
  | (.ioerr _, s') => .raised .sourceCorrupt s'

/-- The part of a value that a cell of `SYM_W` bits holds (R6; log entry 7). -/
def symCell (c : Config) (v : Symbol) : Symbol := BitVec.ofNat 16 (v.toNat % c.nsym)

/-- `MemWrite(CMP, a, v)` (R61): the answer; answered `ok`, `v` is stored, and then an append increments `CMP_LEN`, which
raises `CapacityExceeded` and leaves `CMP_LEN` when it is at its maximum (R9, R279; log entry 9). A failed write leaves an
unspecified value in the cell and the length alone (R63). -/
def writeCmp (a : Nat) (v : Byte) (s : State) : Run Unit :=
  match ask s with
  | (.ok, s') =>
    if a = s'.cmp.len.toNat ∧ s'.cmp.len = wordMax then
      .raised .capacityExceeded { s' with cmp := s'.cmp.store 0#8 a v }
    else .done () { s' with cmp := s'.cmp.put 0#8 a v }
  | (.ioerr left, s') => .raised .sinkCorrupt { s' with cmp := s'.cmp.store 0#8 a (left.setWidth 8) }

/-- `MemWrite(OUT, a, v)`; `emit` has made the capacity test (R224). -/
def writeOut (a : Nat) (v : Symbol) (s : State) : Run Unit :=
  match ask s with
  | (.ok, s') => .done () { s' with out := s'.out.put 0#16 a v }
  | (.ioerr left, s') =>
    .raised .sinkCorrupt { s' with out := s'.out.store 0#16 a (symCell s'.cfg left) }

/-- Write bytes to `CMP` at `a`, `a + 1`, …, stopping at the first failure (R120, R124). -/
def writeCmpBytes : Nat → List Byte → State → Run Unit
  | _, [], s => .done () s
  | a, v :: vs, s => (writeCmp a v s).andThen fun _ s' => writeCmpBytes (a + 1) vs s'

/-- The same with every answer ignored (R133). -/
def writeCmpBytesQuiet : Nat → List Byte → State → State
  | _, [], s => s
  | a, v :: vs, s => writeCmpBytesQuiet (a + 1) vs (writeCmp a v s).state

/-! ### Bits and bytes -/

/-- `be32(n)` (spec/00_scope.md, notation). -/
def be32 (n : Word) : List Byte :=
  [n.extractLsb' 24 8, n.extractLsb' 16 8, n.extractLsb' 8 8, n.extractLsb' 0 8]

/-- `v[i] <- b`. -/
def setBit (v : Byte) (i : Nat) (b : Bool) : Byte :=
  if b then v ||| (1#8 <<< i) else v &&& ~~~(1#8 <<< i)

/-- A Boolean result: 1 for true, 0 for false (R95). -/
def boolWord (b : Bool) : Word := if b then 1#32 else 0#32

/-! ### The node store (R26 to R30, R140) -/

/-- `NODE_CNT` (R27). -/
def State.nodeCnt (s : State) : Word := BitVec.ofNat 32 s.nodes.length

/-- The record a node id names: none for `NIL` and for every id that is not below `NODE_CNT` (R27, R28). -/
def nodeIn (nodes : List Node) (n : NodeId) : Option Node :=
  if n = nilId then none else nodes[n.toNat]?

/-- `NODE[n]`. -/
def State.node? (s : State) (n : NodeId) : Option Node := nodeIn s.nodes n

/-- `NODE[n].kind = LEAF` (R26). -/
def Node.isLeaf : Node → Bool
  | .leaf _ _ => true
  | .inner _ _ _ => false

/-- `NODE[n].sym`; 0 in an internal record, where it is never read (R26). -/
def Node.sym : Node → Symbol
  | .leaf sym _ => sym
  | .inner _ _ _ => 0#16

/-- `NODE[n].left`; `NIL` in a leaf (R26). -/
def Node.left : Node → NodeId
  | .leaf _ _ => nilId
  | .inner l _ _ => l

/-- `NODE[n].right`; `NIL` in a leaf (R26). -/
def Node.right : Node → NodeId
  | .leaf _ _ => nilId
  | .inner _ r _ => r

/-- `NODE[n].weight` (R26). -/
def Node.weight : Node → Word
  | .leaf _ w => w
  | .inner _ _ w => w

/-- `is_leaf(n)` (R46). -/
def State.isLeaf (s : State) (n : NodeId) : Bool :=
  match s.node? n with
  | some nd => nd.isLeaf
  | none => false

/-- `alloc_leaf` and `alloc_node`: take the record `NODE[NODE_CNT]`, or raise when the store is full (R140). -/
def allocNode (nd : Node) (s : State) : Run NodeId :=
  if s.cfg.nodesMax.toNat ≤ s.nodes.length then .raised .capacityExceeded s
  else .done s.nodeCnt { s with nodes := s.nodes ++ [nd] }

/-! ### Raising a fault, and the ways out -/

/-- `bw_close_quiet()` (R133): finalize without raising and without claiming validity; a write that fails, or whose
append does not fit, does not end it (log entry 10). -/
def bwCloseQuiet (s : State) : State :=
  if 4 ≤ s.cmp.len.toNat then
    let s1 := if s.bwNbuf = 0#3 then s
      else { (writeCmp s.cmp.len.toNat s.bwBuf s).state with bwBuf := 0#8, bwNbuf := 0#3 }
    { writeCmpBytesQuiet 0 (be32 s1.bwTotal) s1 with bwOpen := false }
  else { s with bwOpen := false }

/-- `release()` (R281): an open writer is closed quietly and the reader dropped. -/
def State.release (s : State) : State :=
  { (if s.bwOpen then bwCloseQuiet s else s) with brOpen := false }

/-- `raise K` (R280): the first kind is kept (R283), everything open is released, `RES` is not written. -/
def State.raiseFault (k : FaultKind) (s : State) : State :=
  State.release { s with err := some (s.err.getD k) }

/-- The column "value after `SYS.CLEAR`" of R44: everything of the block but the `ARG` registers. -/
def State.clearSession (s : State) : State :=
  { State.resetOf s.cfg with
    arg0 := s.arg0, arg1 := s.arg1, arg2 := s.arg2
    src := s.src, cmp := s.cmp, out := s.out, env := s.env, host := s.host }

/-- Reset while idle (R310): the column "value after reset" of R44; the external memories are not the block's. -/
def State.applyReset (s : State) : State :=
  { State.resetOf s.cfg with src := s.src, cmp := s.cmp, out := s.out, env := s.env, host := s.host }

end Sys2Proof.Machine
end

