-- ==== Sys2Proof/Machine/Tree.lean ====
section
/-! DEFINITION. The tree that a node id names and the tree functions (spec/10_state.md R29, R46; spec/41_tree_store.md
R149; spec/44_codebook.md R186). -/

namespace Sys2Proof.Machine

/-- "Every definition below treats the structure as the tree it unfolds to" (R29). `empty` is `NIL`. -/
inductive Tree where
  | empty
  | leaf (sym : Symbol) (weight : Word)
  | inner (left right : Tree) (weight : Word)
  deriving DecidableEq, Repr

/-- Unfold the records reachable from `n`, at most `fuel` levels deep. -/
def unfoldTree (nodes : List Node) : Nat → NodeId → Tree
  | 0, _ => .empty
  | fuel + 1, n =>
    match nodeIn nodes n with
    | none => .empty
    | some (.leaf sym w) => .leaf sym w
    | some (.inner l r w) => .inner (unfoldTree nodes fuel l) (unfoldTree nodes fuel r) w

/-- The tree with root `n`. A child id is smaller than its parent's (R29), so `n + 1` levels hold all of it (log
entry 14 for ids that name no record). -/
def State.tree (s : State) (n : NodeId) : Tree := unfoldTree s.nodes (n.toNat + 1) n

/-- `size` (R46): records counted once per path; exact. -/
def Tree.size : Tree → Nat
  | .empty => 0
  | .leaf _ _ => 1
  | .inner l r _ => 1 + l.size + r.size

/-- `wf` (R46). -/
def Tree.wf : Tree → Bool
  | .empty => false
  | .leaf _ _ => true
  | .inner l r _ => l.wf && r.wf

/-- `leaves` (R46): the leaf symbols from left to right. -/
def Tree.leaves : Tree → List Symbol
  | .empty => []
  | .leaf sym _ => [sym]
  | .inner l r _ => l.leaves ++ r.leaves

/-- `minsym` (R46), "only ever evaluated on well-formed trees"; 0 at `NIL` is never used (log entry 14). -/
def Tree.minSym : Tree → Nat
  | .empty => 0
  | .leaf sym _ => sym.toNat
  | .inner l r _ => min l.minSym r.minSym

/-- The weight at the root; 0 at `NIL` is never used (log entry 14). -/
def Tree.weight : Tree → Word
  | .empty => 0#32
  | .leaf _ w => w
  | .inner _ _ w => w

/-- `eq` (R149): structure and leaf symbols, weights ignored. -/
def Tree.eqv : Tree → Tree → Bool
  | .empty, .empty => true
  | .leaf a _, .leaf b _ => decide (a = b)
  | .inner l r _, .inner l' r' _ => Tree.eqv l l' && Tree.eqv r r'
  | .empty, .leaf _ _ => false
  | .empty, .inner _ _ _ => false
  | .leaf _ _, .empty => false
  | .leaf _ _, .inner _ _ _ => false
  | .inner _ _ _, .empty => false
  | .inner _ _ _, .leaf _ _ => false

/-- `cb_walk(n, acc)` (R186): the codebook after the walk of a tree with the accumulator `acc`. -/
def Tree.walk : Tree → Bits → List (Nat × Bits) → List (Nat × Bits)
  | .empty, _, cb => cb
  | .leaf sym _, acc, cb => Memory.insert sym.toNat acc cb
  | .inner l r _, acc, cb => r.walk (acc ++ [true]) (l.walk (acc ++ [false]) cb)

end Sys2Proof.Machine
end

