-- ==== Sys2Proof/Machine/Operands.lean ====
section
/-! DEFINITION. Operands, their range checks, the preconditions of the commands, and how a command is accepted and
completed (spec/30_encoding.md R91, R92; spec/47_session_and_system.md R235, R238). -/

namespace Sys2Proof.Machine

/-- The operand types of R92 that are read from an `ARG` register. -/
inductive OperandType where
  | sym
  | weight
  | node
  | tree
  deriving DecidableEq, Repr

/-- The range check of R92. -/
def OperandType.legal (s : State) : OperandType → Word → Bool
  | .sym, v => decide (v.toNat < s.cfg.nsym)
  | .weight, _ => true
  | .node, v => (s.node? v).isSome
  | .tree, v => decide (v = nilId) || (s.node? v).isSome

/-- The types of a command's operands, in the order `ARG0`, `ARG1`, `ARG2` (R92, R93). -/
def operandTypes : Instr → List OperandType
  | .sysClear => []
  | .sesRun => []
  | .fcCount => []
  | .treeLeaf => [.sym, .weight]
  | .treeNode => [.tree, .tree, .weight]
  | .treeIsLeaf => [.node]
  | .treeSym => [.node]
  | .treeLeft => [.node]
  | .treeRight => [.node]
  | .treeWeight => [.node]
  | .treeSize => [.tree]
  | .treeEq => [.tree, .tree]
  | .tbBuild => []
  | .cbDerive => [.tree]
  | .bwOpen => []
  | .bwClose => []
  | .bwWrite _ => []
  | .brOpen => []
  | .brRead => []
  | .brClose => []
  | .encRun => []
  | .decRun => [.tree]

/-- Check operand types against operand values, in order. -/
def legalAll (s : State) : List OperandType → List Word → Bool
  | [], _ => true
  | _ :: _, [] => false
  | t :: ts, v :: vs => t.legal s v && legalAll s ts vs

/-- Step 3 of the acceptance sequence (R235): every operand passes its range check. -/
def operandsLegal (i : Instr) (s : State) : Bool :=
  legalAll s (operandTypes i) [s.arg0, s.arg1, s.arg2]

/-- No writer and no reader is open. -/
def noneOpen (s : State) : Bool := !s.bwOpen && !s.brOpen

/-- Step 4 of the acceptance sequence: the table of preconditions of R235. -/
def precondition (s : State) : Instr → Bool
  | .sysClear => true
  | .sesRun => noneOpen s
  | .fcCount => true
  | .treeLeaf => true
  | .treeNode => true
  | .treeIsLeaf => true
  | .treeSym => s.isLeaf s.arg0
  | .treeLeft => true
  | .treeRight => true
  | .treeWeight => true
  | .treeSize => true
  | .treeEq => true
  | .tbBuild => true
  | .cbDerive => true
  | .bwOpen => noneOpen s
  | .bwClose => s.bwOpen
  | .bwWrite _ => s.bwOpen
  | .brOpen => noneOpen s
  | .brRead => s.brOpen
  | .brClose => s.brOpen
  | .encRun => noneOpen s
  | .decRun => noneOpen s

/-- Steps 3 and 4 of the acceptance sequence (R235). -/
def acceptable (i : Instr) (s : State) : Bool := operandsLegal i s && precondition s i

/-- The end of a command (R238): write `RES` (R21), or raise (R280). -/
def complete : Run Word → State
  | .done v s => { s with res := v }
  | .raised k s => s.raiseFault k

/-- The acceptance sequence of R235 for a word that names a command, its step 5 being `body`. -/
def runCommand (i : Instr) (body : State → Run Word) (s : State) : State :=
  if s.err.isSome && decide (i ≠ .sysClear) then s
  else if acceptable i s then complete (body s)
  else s.raiseFault .illegalCommand

end Sys2Proof.Machine
end

