-- ==== Sys2Proof/Machine/BitIo.lean ====
section
/-! DEFINITION. bit_io_unit: the bit writer and the bit reader, as micro-operations and as the commands `BW.*`, `BR.*`
(spec/40_bit_io_unit.md). -/

namespace Sys2Proof.Machine

/-! ### BitWriter -/

/-- `bw_open()` (R120). -/
def bwOpenRun (s : State) : Run Unit :=
  (openWriteCmp s).andThen fun _ s1 =>
    writeCmpBytes 0 [0x00#8, 0x00#8, 0x00#8, 0x00#8]
      { s1 with cmpValid := false, bwBuf := 0#8, bwNbuf := 0#3, bwTotal := 0#32, bwOpen := true }

/-- `bw_write_bit(b)` (R122). -/
def bwWriteBit (b : Bool) (s : State) : Run Unit :=
  if s.bwTotal = wordMax then .raised .capacityExceeded s
  else
    let s1 := { s with bwBuf := setBit s.bwBuf (7 - s.bwNbuf.toNat) b, bwTotal := s.bwTotal + 1#32 }
    if s.bwNbuf = 7#3 then
      (writeCmp s1.cmp.len.toNat s1.bwBuf s1).andThen fun _ s2 => .done () { s2 with bwBuf := 0#8, bwNbuf := 0#3 }
    else .done () { s1 with bwNbuf := s.bwNbuf + 1#3 }

/-- Flush the partial byte, if any: the first half of `bw_close()` (R124). -/
def bwFlush (s : State) : Run Unit :=
  if s.bwNbuf = 0#3 then .done () s
  else (writeCmp s.cmp.len.toNat s.bwBuf s).andThen fun _ s1 => .done () { s1 with bwBuf := 0#8, bwNbuf := 0#3 }

/-- `bw_close()` (R124). -/
def bwCloseRun (s : State) : Run Word :=
  (bwFlush s).andThen fun _ s1 =>
    (writeCmpBytes 0 (be32 s1.bwTotal) s1).andThen fun _ s2 =>
      .done s2.bwTotal { s2 with bwOpen := false, cmpValid := true }

/-- `BW.OPEN` (R121). -/
def execBwOpen (s : State) : Host.Outcome State Fault Refusal :=
  .next (runCommand .bwOpen (fun s => (bwOpenRun s).andThen fun _ s1 => .done 0#32 s1) s)

/-- `BW.WRITE b` (R123). -/
def execBwWrite (b : Bool) (s : State) : Host.Outcome State Fault Refusal :=
  .next (runCommand (.bwWrite b) (fun s => (bwWriteBit b s).andThen fun _ s1 => .done 0#32 s1) s)

/-- `BW.CLOSE` (R125). -/
def execBwClose (s : State) : Host.Outcome State Fault Refusal :=
  .next (runCommand .bwClose bwCloseRun s)

/-! ### BitReader -/

/-- The loop of `br_open()` over the prefix bytes (R126): `n <- n·256 + v`. -/
def readPrefix : List Nat → Word → State → Run Word
  | [], n, s => .done n s
  | a :: rest, n, s => (readCmp a s).andThen fun v s1 => readPrefix rest (n * 256#32 + v.setWidth 32) s1

/-- `br_open()` (R126). -/
def brOpenRun (s : State) : Run Word :=
  (openRead s).andThen fun _ s1 =>
    let s2 := { s1 with
      brOpen := true, brShort := false, brBuf := 0#8, brNbuf := 0#4, brRem := 0#32, brPtr := 0#32 }
    if s2.cmp.len.toNat < 4 then .done 0#32 { s2 with brShort := true }
    else (readPrefix [0, 1, 2, 3] 0#32 s2).andThen fun n s3 => .done n { s3 with brRem := n, brPtr := 4#32 }

/-- The last four lines of `br_read_bit()` (R128): deliver bit 7 of the buffer. -/
def brDeliver (s : State) : Run (Option Bool) :=
  .done (some s.brBuf.msb)
    { s with brBuf := s.brBuf <<< 1, brNbuf := s.brNbuf - 1#4, brRem := s.brRem - 1#32 }

/-- `br_read_bit()` (R128); `none` is `EOS`. -/
def brReadBit (s : State) : Run (Option Bool) :=
  if s.brRem = 0#32 then .done none s
  else if s.brNbuf = 0#4 then
    if s.cmp.len.toNat ≤ s.brPtr.toNat then .done none { s with brShort := true }
    else (readCmp s.brPtr.toNat s).andThen fun v s1 =>
      brDeliver { s1 with brBuf := v, brPtr := s1.brPtr + 1#32, brNbuf := 8#4 }
  else brDeliver s

/-- `br_release()` (R130). -/
def brRelease (s : State) : State := { s with brOpen := false }

/-- The result encoding of `BR.READ` (R95). -/
def bitWord : Option Bool → Word
  | none => eosWord
  | some b => boolWord b

/-- `BR.OPEN` (R127). -/
def execBrOpen (s : State) : Host.Outcome State Fault Refusal :=
  .next (runCommand .brOpen brOpenRun s)

/-- `BR.READ` (R129). -/
def execBrRead (s : State) : Host.Outcome State Fault Refusal :=
  .next (runCommand .brRead (fun s => (brReadBit s).andThen fun b s1 => .done (bitWord b) s1) s)

/-- `BR.CLOSE` (R130). -/
def execBrClose (s : State) : Host.Outcome State Fault Refusal :=
  .next (runCommand .brClose (fun s => .done 0#32 (brRelease s)) s)

end Sys2Proof.Machine
end

