-- ==== Sys2Proof/Machine/Decoder.lean ====
section
/-! DEFINITION. huffman_decoder: `DEC.RUN` (spec/46_huffman_decoder.md). -/

namespace Sys2Proof.Machine

/-- `emit(s)` (R224). -/
def emit (sym : Symbol) (s : State) : Run Unit :=
  if s.out.len = wordMax then .raised .capacityExceeded s
  else writeOut s.out.len.toNat sym s

/-- The child a bit selects at the cursor (R215, R216). -/
def State.childAt (s : State) (b : Bool) : NodeId :=
  match s.node? s.decCur with
  | none => nilId
  | some nd => if b then nd.right else nd.left

/-- The descent of `dec_step(b)` at an internal root (R215 to R217, R222). -/
def decDescend (b : Bool) (s : State) : Run Unit :=
  match s.node? (s.childAt b) with
  | none => .raised .streamUnexpectedBit s
  | some (.inner _ _ _) => .done () { s with decCur := s.childAt b }
  | some (.leaf sym _) =>
    (emit sym { s with decCur := s.childAt b }).andThen fun _ s1 => .done () { s1 with decCur := s1.decRoot }

/-- `dec_step(b)` (R225): no root (R220), a leaf as root (R219), or the descent. -/
def decStep (b : Bool) (s : State) : Run Unit :=
  match s.node? s.decRoot with
  | none => .raised .streamUnexpectedBit s
  | some (.leaf sym _) => emit sym s
  | some (.inner _ _ _) => decDescend b s

/-- The loop of `dec_run()` (R223). Each pass ends it or decrements `BR_REM`; with `BR_REM` = 0 the next `br_read_bit`
is `EOS` and changes nothing, so `fuel` = `BR_REM` passes are all of them. -/
def decLoop : Nat → State → Run Unit
  | 0, s => .done () s
  | fuel + 1, s =>
    (brReadBit s).andThen fun b s1 =>
      match b with
      | none => .done () s1
      | some b => (decStep b s1).andThen fun _ s2 => decLoop fuel s2

/-- The end of `dec_run()` (R221, R223): `StreamTruncated`, or the output is complete. -/
def decFinish (s : State) : Run Word :=
  if s.brShort || decide (s.decCur ≠ s.decRoot) then .raised .streamTruncated s
  else .done s.out.len { brRelease s with outValid := true }

/-- `dec_run(root)` (R223): the source is opened before the output. -/
def decRun (root : NodeId) (s : State) : Run Word :=
  (brOpenRun s).andThen fun _ s1 =>
    (openWriteOut s1).andThen fun _ s2 =>
      (decLoop s2.brRem.toNat { s2 with outValid := false, decRoot := root, decCur := root }).andThen
        fun _ s3 => decFinish s3

/-- `DEC.RUN tree` (R223). -/
def execDecRun (s : State) : Host.Outcome State Fault Refusal :=
  .next (runCommand .decRun (fun s => decRun s.arg0 s) s)

end Sys2Proof.Machine
end

