-- ==== Sys2Proof/Machine/Codebook.lean ====
section
/-! DEFINITION. huffman_tree_builder, part 3: `CB.DERIVE` (spec/44_codebook.md). -/

namespace Sys2Proof.Machine

/-- `CB[s]`, `none` for `ABSENT` (R33). -/
def State.codeword (s : State) (sym : Nat) : Option Bits := Memory.get? s.cb sym

/-- The codebook `cb_derive` leaves for a tree (R185): empty for the empty tree (R188), the walk seeded with `0` for a
single leaf (R187), the plain walk otherwise (R186). -/
def Tree.codebook : Tree → List (Nat × Bits)
  | .empty => []
  | .leaf sym w => (Tree.leaf sym w).walk [false] []
  | .inner l r w => (Tree.inner l r w).walk [] []

/-- `cb_derive(root)` (R185): the number of present entries. -/
def cbDerive (root : NodeId) (s : State) : Run Word :=
  .done (BitVec.ofNat 32 (s.tree root).codebook.length) { s with cb := (s.tree root).codebook }

/-- `CB.DERIVE tree` (R185). -/
def execCbDerive (s : State) : Host.Outcome State Fault Refusal :=
  .next (runCommand .cbDerive (fun s => cbDerive s.arg0 s) s)

end Sys2Proof.Machine
end

