-- ==== Sys2Proof/Machine/Encoder.lean ====
section
/-! DEFINITION. huffman_encoder: `ENC.RUN` (spec/45_huffman_encoder.md). -/

namespace Sys2Proof.Machine

/-- The inner loop of `enc_run()` (R200): write the bits of a codeword. -/
def writeBits : Bits → State → Run Unit
  | [], s => .done () s
  | b :: bs, s => (bwWriteBit b s).andThen fun _ s1 => writeBits bs s1

/-- One symbol of `enc_run()` (R200, R202): its codeword, or `SymbolUnencodable` before any of its bits is written. -/
def encSymbol (sym : Symbol) (s : State) : Run Unit :=
  match s.codeword sym.toNat with
  | none => .raised .symbolUnencodable s
  | some code => writeBits code s

/-- The outer loop of `enc_run()` (R200): `remaining` symbols from index `i` on. -/
def encLoop : Nat → Nat → State → Run Unit
  | 0, _, s => .done () s
  | remaining + 1, i, s =>
    (readSrc i s).andThen fun sym s1 => (encSymbol sym s1).andThen fun _ s2 => encLoop remaining (i + 1) s2

/-- `enc_run()` (R200): the writer is opened before the source. -/
def encRun (s : State) : Run Word :=
  (bwOpenRun s).andThen fun _ s1 =>
    (openRead s1).andThen fun _ s2 =>
      (encLoop s2.src.len.toNat 0 s2).andThen fun _ s3 => bwCloseRun s3

/-- `ENC.RUN` (R200). -/
def execEncRun (s : State) : Host.Outcome State Fault Refusal :=
  .next (runCommand .encRun encRun s)

end Sys2Proof.Machine
end

