-- ==== Sys2Proof/Machine/FrequencyCounter.lean ====
section
/-! DEFINITION. frequency_counter: `FC.COUNT` (spec/42_frequency_counter.md). -/

namespace Sys2Proof.Machine

/-- `FT[s]` (R25). -/
def State.count (s : State) (sym : Nat) : Word := Memory.get 0#32 s.ft sym

/-- `fc_step(s)` (R160). -/
def fcStep (sym : Symbol) (s : State) : Run Unit :=
  if s.count sym.toNat = wordMax then .raised .capacityExceeded s
  else .done () { s with ft := Memory.set 0#32 s.ft sym.toNat (s.count sym.toNat + 1#32) }

/-- The loop of `fc_count()` (R161): `remaining` symbols from index `i` on. -/
def fcLoop : Nat → Nat → State → Run Unit
  | 0, _, s => .done () s
  | remaining + 1, i, s =>
    (readSrc i s).andThen fun sym s1 => (fcStep sym s1).andThen fun _ s2 => fcLoop remaining (i + 1) s2

/-- `fc_count()` (R161): the table is cleared before the source is opened. -/
def fcCount (s : State) : Run Word :=
  (openRead { s with ft := [] }).andThen fun _ s1 =>
    (fcLoop s1.src.len.toNat 0 s1).andThen fun _ s2 => .done s2.src.len s2

/-- `FC.COUNT` (R161). -/
def execFcCount (s : State) : Host.Outcome State Fault Refusal :=
  .next (runCommand .fcCount fcCount s)

end Sys2Proof.Machine
end

