-- ==== Sys2Proof/Machine/TreeBuilder.lean ====
section
/-! DEFINITION. huffman_tree_builder, part 2: `TB.BUILD` (spec/43_huffman_tree_builder.md). The queue `PQ` is a local of
the command (R35): a list of node ids, in no order. -/

namespace Sys2Proof.Machine

/-- `key(n)` (R170). -/
def State.key (s : State) (n : NodeId) : Nat × Nat := ((s.tree n).weight.toNat, (s.tree n).minSym)

/-- The order of keys (R170): lexicographic, both parts unsigned. -/
def keyLt (a b : Nat × Nat) : Bool := decide (a.1 < b.1) || (decide (a.1 = b.1) && decide (a.2 < b.2))

/-- The id with the smallest key among `n` and the ids of `q`. -/
def pqMin (s : State) : NodeId → List NodeId → NodeId
  | n, [] => n
  | n, m :: q => if keyLt (s.key m) (s.key n) then pqMin s m q else pqMin s n q

/-- `pq_insert(n)` (R177). -/
def pqInsert (n : NodeId) (q : List NodeId) : List NodeId := q ++ [n]

/-- `pq_pop_min()` (R177): the id with the smallest key and the rest; none of an empty queue. -/
def pqPopMin (s : State) : List NodeId → Option (NodeId × List NodeId)
  | [] => none
  | n :: q => some (pqMin s n q, (n :: q).erase (pqMin s n q))

/-- Steps 1 and 2 of `tb_build()` (R171, R172): a leaf for every entry of `FT`, in increasing symbol value, inserted
into the queue. -/
def tbLeaves : List (Nat × Word) → List NodeId → State → Run (List NodeId)
  | [], q, s => .done q s
  | (sym, c) :: entries, q, s =>
    (allocNode (.leaf (BitVec.ofNat 16 sym) c) s).andThen fun n s1 => tbLeaves entries (pqInsert n q) s1

/-- One merge (R173): `a` becomes the left child, `b` the right; the weight is the exact sum, or `CapacityExceeded`. -/
def tbMerge (a b : NodeId) (s : State) : Run NodeId :=
  let sum := (s.tree a).weight.toNat + (s.tree b).weight.toNat
  if wordMax.toNat < sum then .raised .capacityExceeded s
  else allocNode (.inner a b (BitVec.ofNat 32 sum)) s

/-- Steps 3 and 4 of `tb_build()` (R171): merge while the queue holds more than one tree, then pop the last one; `NIL`
when the queue is empty (R174). Every merge shortens the queue by one, so `fuel` = its length is never used up. -/
def tbLoop : Nat → List NodeId → State → Run NodeId
  | 0, _, s => .done nilId s
  | fuel + 1, q, s =>
    match pqPopMin s q with
    | none => .done nilId s
    | some (a, q1) =>
      match pqPopMin s q1 with
      | none => .done a s
      | some (b, q2) => (tbMerge a b s).andThen fun n s1 => tbLoop fuel (pqInsert n q2) s1

/-- `tb_build()` (R171). -/
def tbBuild (s : State) : Run NodeId :=
  (tbLeaves s.ft [] s).andThen fun q s1 => tbLoop q.length q s1

/-- `TB.BUILD` (R171). -/
def execTbBuild (s : State) : Host.Outcome State Fault Refusal :=
  .next (runCommand .tbBuild tbBuild s)

end Sys2Proof.Machine
end

