-- ==== Sys2Proof/Machine/System.lean ====
section
/-! DEFINITION. `SYS.CLEAR` and `SES.RUN` (spec/47_session_and_system.md R236, R237). -/

namespace Sys2Proof.Machine

/-- `SYS.CLEAR` (R236): an open writer is finalized quietly, then the session starts afresh. -/
def sysClear (s : State) : Run Word :=
  .done 0#32 (if s.bwOpen then bwCloseQuiet s else s).clearSession

/-- The fresh session of `SES.RUN`: the column of R44 with `RES` kept, since the one write of `RES` is the command's last
line, and a raise before it leaves `RES` alone (R21, R237, R238; log entry 11). -/
def State.freshSession (s : State) : State := { s.clearSession with res := s.res }

/-- The stages of `SES.RUN` up to the codebook (R237): the root of the tree. -/
def sesStages (s : State) : Run NodeId :=
  (fcCount s.freshSession).andThen fun _ s1 =>
    (tbBuild s1).andThen fun root s2 => (cbDerive root s2).andThen fun _ s3 => .done root s3

/-- `SES.RUN` (R237): a fresh session, then the five stages. -/
def sesRun (s : State) : Run Word :=
  (sesStages s).andThen fun root s3 =>
    (encRun s3).andThen fun _ s4 => (decRun root s4).andThen fun _ s5 => .done root s5

/-- `SYS.CLEAR` (R236). -/
def execSysClear (s : State) : Host.Outcome State Fault Refusal :=
  .next (runCommand .sysClear sysClear s)

/-- `SES.RUN` (R237). -/
def execSesRun (s : State) : Host.Outcome State Fault Refusal :=
  .next (runCommand .sesRun sesRun s)

end Sys2Proof.Machine
end

