-- ==== Sys2Proof/Machine/TreeStore.lean ====
section
/-! DEFINITION. huffman_tree_builder, part 1: the commands of the tree store (spec/41_tree_store.md). -/

namespace Sys2Proof.Machine

/-- A result read from the record `ARG0` names; acceptance has checked that there is one (R92, R235). -/
def fieldOfArg0 (f : Node → Word) (s : State) : Run Word :=
  match s.node? s.arg0 with
  | some nd => .done (f nd) s
  | none => .raised .illegalCommand s

/-- `size` of a child or operand, from the sizes of the records below it: 0 for `NIL` (R46). -/
def sizeIn (sizes : List Nat) (n : NodeId) : Nat := if n = nilId then 0 else sizes.getD n.toNat 0

/-- `size` of a record, from the sizes of the records below it (R46). -/
def Node.size (sizes : List Nat) : Node → Nat
  | .leaf _ _ => 1
  | .inner l r _ => 1 + sizeIn sizes l + sizeIn sizes r

/-- The sizes of all records in id order, "by recursion on the id (rule R29)" (R46), given those before. -/
def sizesFrom (before : List Nat) : List Node → List Nat
  | [] => before
  | nd :: rest => sizesFrom (before ++ [nd.size before]) rest

/-- `size(n)` (R46), exact: a record is counted once per path that reaches it (R148). Obligation
`TreeSizeCountsTheUnfoldedTree` says that it is the size of the tree `n` unfolds to. -/
def State.sizeOf (s : State) (n : NodeId) : Nat := sizeIn (sizesFrom [] s.nodes) n

/-- `RES <- size(n)`, or `CapacityExceeded` when the exact value does not fit (R148). -/
def sizeRun (n : NodeId) (s : State) : Run Word :=
  if s.sizeOf n ≤ wordMax.toNat then .done (BitVec.ofNat 32 (s.sizeOf n)) s
  else .raised .capacityExceeded s

/-- `TREE.LEAF sym, weight` (R141). -/
def execTreeLeaf (s : State) : Host.Outcome State Fault Refusal :=
  .next (runCommand .treeLeaf (fun s => allocNode (.leaf (s.arg0.setWidth 16) s.arg1) s) s)

/-- `TREE.NODE left, right, weight` (R142). -/
def execTreeNode (s : State) : Host.Outcome State Fault Refusal :=
  .next (runCommand .treeNode (fun s => allocNode (.inner s.arg0 s.arg1 s.arg2) s) s)

/-- `TREE.ISLEAF node` (R143). -/
def execTreeIsLeaf (s : State) : Host.Outcome State Fault Refusal :=
  .next (runCommand .treeIsLeaf (fieldOfArg0 fun nd => boolWord nd.isLeaf) s)

/-- `TREE.SYM node` (R144); the symbol is zero-extended (R95). -/
def execTreeSym (s : State) : Host.Outcome State Fault Refusal :=
  .next (runCommand .treeSym (fieldOfArg0 fun nd => nd.sym.setWidth 32) s)

/-- `TREE.LEFT node` (R145). -/
def execTreeLeft (s : State) : Host.Outcome State Fault Refusal :=
  .next (runCommand .treeLeft (fieldOfArg0 Node.left) s)

/-- `TREE.RIGHT node` (R146). -/
def execTreeRight (s : State) : Host.Outcome State Fault Refusal :=
  .next (runCommand .treeRight (fieldOfArg0 Node.right) s)

/-- `TREE.WEIGHT node` (R147). -/
def execTreeWeight (s : State) : Host.Outcome State Fault Refusal :=
  .next (runCommand .treeWeight (fieldOfArg0 Node.weight) s)

/-- `TREE.SIZE tree` (R148). -/
def execTreeSize (s : State) : Host.Outcome State Fault Refusal :=
  .next (runCommand .treeSize (fun s => sizeRun s.arg0 s) s)

/-- `TREE.EQ a, b` (R149). -/
def execTreeEq (s : State) : Host.Outcome State Fault Refusal :=
  .next (runCommand .treeEq (fun s => .done (boolWord ((s.tree s.arg0).eqv (s.tree s.arg1))) s) s)

end Sys2Proof.Machine
end

