-- ==== Sys2Proof/Machine/Dispatch.lean ====
section
/-! DEFINITION. One arm per command (spec/30_encoding.md R93). -/

namespace Sys2Proof.Machine

def exec (i : Instr) (s : State) : Host.Outcome State Fault Refusal :=
  match i with
  | .sysClear => Sys2Proof.Machine.execSysClear s
  | .sesRun => Sys2Proof.Machine.execSesRun s
  | .fcCount => Sys2Proof.Machine.execFcCount s
  | .treeLeaf => Sys2Proof.Machine.execTreeLeaf s
  | .treeNode => Sys2Proof.Machine.execTreeNode s
  | .treeIsLeaf => Sys2Proof.Machine.execTreeIsLeaf s
  | .treeSym => Sys2Proof.Machine.execTreeSym s
  | .treeLeft => Sys2Proof.Machine.execTreeLeft s
  | .treeRight => Sys2Proof.Machine.execTreeRight s
  | .treeWeight => Sys2Proof.Machine.execTreeWeight s
  | .treeSize => Sys2Proof.Machine.execTreeSize s
  | .treeEq => Sys2Proof.Machine.execTreeEq s
  | .tbBuild => Sys2Proof.Machine.execTbBuild s
  | .cbDerive => Sys2Proof.Machine.execCbDerive s
  | .bwOpen => Sys2Proof.Machine.execBwOpen s
  | .bwClose => Sys2Proof.Machine.execBwClose s
  | .bwWrite b => Sys2Proof.Machine.execBwWrite b s
  | .brOpen => Sys2Proof.Machine.execBrOpen s
  | .brRead => Sys2Proof.Machine.execBrRead s
  | .brClose => Sys2Proof.Machine.execBrClose s
  | .encRun => Sys2Proof.Machine.execEncRun s
  | .decRun => Sys2Proof.Machine.execDecRun s

end Sys2Proof.Machine
end

