-- ==== Sys2Proof/Machine/Flags.lean ====
section
/-! DEFINITION. The fault codes, the `STATUS` view and what the host reads from the command port and from the external
memories (spec/10_state.md R20, R22, R23; spec/60_exceptions.md R270; spec/47_session_and_system.md R239;
spec/20_memory.md R77). -/

namespace Sys2Proof.Machine

/-- The code of a kind (R270). -/
def FaultKind.code : FaultKind → BitVec 4
  | .sourceUnavailable => 1#4
  | .sinkUnavailable => 2#4
  | .sourceCorrupt => 3#4
  | .sinkCorrupt => 4#4
  | .streamTruncated => 5#4
  | .streamUnexpectedBit => 6#4
  | .symbolUnencodable => 7#4
  | .illegalCommand => 8#4
  | .capacityExceeded => 9#4

/-- `ERR`, `STATUS[3:0]`: the code of the first fault, 0 for none (R22, R23). -/
def State.errCode (s : State) : BitVec 4 :=
  match s.err with
  | none => 0#4
  | some k => k.code

/-- `FAULTED`, `STATUS[4]`: 1 exactly when `ERR ≠ 0` (R22). -/
def State.faulted (s : State) : Bool := s.err.isSome

/-- `STATUS` (R22): reserved `[31:10]`, `OUT_VALID` `[9]`, `CMP_VALID` `[8]`, `BR_SHORT` `[7]`, `BR_OPEN` `[6]`, `BW_OPEN`
`[5]`, `FAULTED` `[4]`, `ERR` `[3:0]`. -/
def State.status (s : State) : Word :=
  (0#22 ++ BitVec.ofBool s.outValid ++ BitVec.ofBool s.cmpValid ++ BitVec.ofBool s.brShort ++
    BitVec.ofBool s.brOpen ++ BitVec.ofBool s.bwOpen ++ BitVec.ofBool s.faulted ++ s.errCode :
    BitVec (22 + 1 + 1 + 1 + 1 + 1 + 1 + 4))

/-- The byte offset of a register from the block's base address (R20). -/
def PortReg.offset : PortReg → Nat
  | .cmd => 0x00
  | .arg0 => 0x04
  | .arg1 => 0x08
  | .arg2 => 0x0C
  | .res => 0x10
  | .status => 0x14

/-- What the host reads from a register (R20, R239): 0 from `CMD`. -/
def State.readReg (s : State) : PortReg → Word
  | .cmd => 0#32
  | .arg0 => s.arg0
  | .arg1 => s.arg1
  | .arg2 => s.arg2
  | .res => s.res
  | .status => s.status

/-- What the host reads from an external memory (R77): a symbol or a byte zero-extended, or a length. -/
def State.readMem (s : State) : MemRef → Word
  | .src a => (s.src.read 0#16 a.toNat).setWidth 32
  | .srcLen => s.src.len
  | .cmp a => (s.cmp.read 0#8 a.toNat).setWidth 32
  | .cmpLen => s.cmp.len
  | .out a => (s.out.read 0#16 a.toNat).setWidth 32
  | .outLen => s.out.len

end Sys2Proof.Machine
end

