-- ==== Sys2Proof/Machine/Port.lean ====
section
/-! DEFINITION. What the host's actions do: port writes and reads, memory writes between commands, reset
(spec/47_session_and_system.md R235, R239; spec/20_memory.md R77; spec/70_reset_and_hazards.md R310), and the assembler's
lines as such actions (spec/30_encoding.md R105, R106). -/

namespace Sys2Proof.Machine

/-- Steps 1 and 2 of the acceptance sequence for a word that names no command (R94, R235). -/
def rejectWord (s : State) : State :=
  if s.err.isSome then s else s.raiseFault .illegalCommand

/-- The host writes `w` to `CMD` (R90, R235). -/
def issueCommand (w : Word) (s : State) : Host.Outcome State Fault Refusal :=
  match decode w with
  | .instr i => exec i s
  | .reject _ => .next (rejectWord s)

/-- The host writes a port register (R20, R239). -/
def writePort (r : PortReg) (v : Word) (s : State) : Host.Outcome State Fault Refusal :=
  match r with
  | .cmd => issueCommand v s
  | .arg0 => .next { s with arg0 := v }
  | .arg1 => .next { s with arg1 := v }
  | .arg2 => .next { s with arg2 := v }
  | .res => .next s
  | .status => .next s

/-! ### A reset while a command runs (R310) -/

/-- What a command may have done to a memory when a reset abandons it (R310). -/
inductive Touch where
  /-- It writes no cell and does not open the memory for writing. -/
  | kept
  /-- It opens the memory for writing, which sets the length to 0, and writes no cell. -/
  | opened
  /-- `first` is the lowest cell it might have written. -/
  | written (first : Word)
  deriving DecidableEq, Repr

/-- One piece of a command after another. -/
def Touch.both : Touch → Touch → Touch
  | .kept, t => t
  | t, .kept => t
  | .opened, t => t
  | t, .opened => t
  | .written a, .written b => .written (if a < b then a else b)

/-- The quiet close (R133) rewrites the prefix, once the placeholders are there. -/
def quietTouch (s : State) : Touch :=
  if s.bwOpen && decide (4 ≤ s.cmp.len.toNat) then .written 0#32 else .kept

/-- A run that ends by a raise closes an open writer quietly (R281). -/
def raiseTouch {α : Type} : Run α → Touch
  | .done _ _ => .kept
  | .raised _ s => quietTouch s

/-- `bw_open()` (R120): the open, and if it is answered `ok` the placeholders from cell 0 on. -/
def openTouch (s : State) : Touch :=
  match openWriteCmp s with
  | .done _ _ => .written 0#32
  | .raised _ _ => .kept

/-- `bw_write_bit(b)` (R122): the eighth bit writes cell `CMP_LEN`. -/
def bitTouch (b : Bool) (s : State) : Touch :=
  Touch.both (if s.bwNbuf = 7#3 ∧ s.bwTotal ≠ wordMax then .written s.cmp.len else .kept)
    (raiseTouch (bwWriteBit b s))

/-- `bw_close()` (R124): the partial byte at `CMP_LEN`, then the prefix. -/
def closeTouch (s : State) : Touch :=
  Touch.both (if s.bwNbuf = 0#3 then .kept else .written s.cmp.len)
    (match bwFlush s with
    | .done _ _ => .written 0#32
    | .raised _ s1 => quietTouch s1)

/-- What an accepted command may write in `CMP`: the writing commands their cells, every other one only by the quiet
close of a raise. -/
def commandTouchesCmp (i : Instr) (s : State) : Touch :=
  match i with
  | .sysClear => quietTouch s
  | .sesRun =>
    match sesStages s with
    | .done _ s3 => openTouch s3
    | .raised _ _ => .kept
  | .bwOpen => openTouch s
  | .encRun => openTouch s
  | .bwWrite b => bitTouch b s
  | .bwClose => closeTouch s
  | .fcCount => raiseTouch (fcCount s)
  | .tbBuild => raiseTouch (tbBuild s)
  | .treeLeaf | .treeNode =>
    if s.cfg.nodesMax.toNat ≤ s.nodes.length then quietTouch s else .kept
  | .treeSize => raiseTouch (sizeRun s.arg0 s)
  | .brRead => raiseTouch (brReadBit s)
  | .treeIsLeaf | .treeSym | .treeLeft | .treeRight | .treeWeight | .treeEq | .cbDerive => .kept
  | .brOpen | .brClose | .decRun => .kept

/-- What `dec_run(root)` (R223) may write in `OUT`: nothing before both opens are answered `ok`, then cell 0 on if it
emits a symbol. -/
def decTouch (root : NodeId) (s : State) : Touch :=
  match (brOpenRun s).andThen fun _ s1 => openWriteOut s1 with
  | .raised _ _ => .kept
  | .done _ _ =>
    match decRun root s with
    | .raised .sinkCorrupt _ => .written 0#32
    | r => if r.state.out.len = 0#32 then .opened else .written 0#32

/-- What an accepted command may write in `OUT` (R39, R60). -/
def commandTouchesOut (i : Instr) (s : State) : Touch :=
  match i with
  | .decRun => decTouch s.arg0 s
  | .sesRun =>
    match (sesStages s).andThen fun root s3 => (encRun s3).andThen fun _ s4 => .done root s4 with
    | .done root s4 => decTouch root s4
    | .raised _ _ => .kept
  | .sysClear | .fcCount | .treeLeaf | .treeNode | .treeIsLeaf | .treeSym | .treeLeft | .treeRight | .treeWeight
  | .treeSize | .treeEq | .tbBuild | .cbDerive | .bwOpen | .bwClose | .bwWrite _ | .brOpen | .brRead | .brClose
  | .encRun => .kept

/-- What the word `w` written to `CMD` may write in `CMP`: nothing when it is ignored, a quiet close when it is refused
(R235). -/
def touchesCmp (w : Word) (s : State) : Touch :=
  match decode w with
  | .reject _ => if s.err.isSome then .kept else quietTouch s
  | .instr i =>
    if s.err.isSome && decide (i ≠ .sysClear) then .kept
    else if acceptable i s then commandTouchesCmp i s
    else quietTouch s

/-- What the word `w` written to `CMD` may write in `OUT`. -/
def touchesOut (w : Word) (s : State) : Touch :=
  match decode w with
  | .reject _ => .kept
  | .instr i => if s.err.isNone && acceptable i s then commandTouchesOut i s else .kept

/-- A memory a command has left at an unspecified point (R310): unspecified, `left` and `len`, "from the first cell the
command might have written onward", and kept below it; a memory opened and not written has the length from before or 0
(log entry 12). -/
def Space.abandoned {α : Type} [DecidableEq α] (d : α) (sp : Space α) (left : List (Word × α)) (len : Word) :
    Touch → Space α
  | .kept => sp
  | .opened => { sp with len := if len = 0#32 then 0#32 else sp.len }
  | .written first =>
    { cells := (sp.cells.filter fun e => decide (e.1 < first.toNat)) ++
        (Memory.ofWrites d left).filter fun e => decide (first.toNat ≤ e.1)
      len := if len < first then first else len }

/-- How many of the environment's answers the word `w` uses when its command is not abandoned. -/
def answersUsed (w : Word) (s : State) : Nat :=
  match issueCommand w s with
  | .next t => s.env.length - t.env.length
  | .fault _ => 0
  | .refused _ => 0

/-- Reset while the command `w` runs (R310): the block is reset without a quiet close; the command has used at most the
answers it would have used, and `CMP` and `OUT` are unspecified where it might have written them (U10; log entry 12). -/
def resetDuring (w : Word) (used : Nat) (cmpLeft : List (Word × Byte)) (cmpLen : Word)
    (outLeft : List (Word × Symbol)) (outLen : Word) (s : State) : State :=
  { s.applyReset with
    env := s.env.drop (min used (answersUsed w s))
    cmp := s.cmp.abandoned 0#8 cmpLeft cmpLen (touchesCmp w s)
    out := s.out.abandoned 0#16 (outLeft.map fun e => (e.1, symCell s.cfg e.2)) outLen (touchesOut w s) }

/-! ### One action -/

/-- One action of the host (R77, R235, R239, R310). A cell of `SRC` or `OUT` keeps `SYM_W` bits (log entry 7). -/
def perform (op : HostOp) (s : State) : Host.Outcome State Fault Refusal :=
  match op with
  | .writeReg r v => writePort r v s
  | .readReg _ => .next s
  | .readMem _ => .next s
  | .writeSrc a v => .next { s with src := s.src.store 0#16 a.toNat (symCell s.cfg v) }
  | .writeSrcLen n => .next { s with src := { s.src with len := n } }
  | .writeCmp a v => .next { s with cmp := s.cmp.store 0#8 a.toNat v }
  | .writeCmpLen n => .next { s with cmp := { s.cmp with len := n } }
  | .writeOut a v => .next { s with out := s.out.store 0#16 a.toNat (symCell s.cfg v) }
  | .writeOutLen n => .next { s with out := { s.out with len := n } }
  | .reset => .next s.applyReset
  | .resetDuring w used cmpLeft cmpLen outLeft outLen =>
    .next (resetDuring w used cmpLeft cmpLen outLeft outLen s)

/-- The writes of operands to `ARG0`, `ARG1`, `ARG2`, in order (R105). -/
def argWrites : List PortReg → List Word → List HostOp
  | [], _ => []
  | _ :: _, [] => []
  | r :: rs, v :: vs => .writeReg r v :: argWrites rs vs

/-- The actions a line assembles to: each operand to its `ARG` register, then the opcode to `CMD` (R105); `BW.BITS`
expands to `BW.WRITE`s (R106). -/
def assemble : AsmLine → List HostOp
  | .command i operands => argWrites [.arg0, .arg1, .arg2] operands ++ [.writeReg .cmd (encode i)]
  | .bits bs => bs.map fun b => .writeReg .cmd (encode (.bwWrite b))

end Sys2Proof.Machine
end

