-- ==== Sys2Proof/Machine/Step.lean ====
section
/-! DEFINITION. One step: the host's next action. Nothing is fetched (spec/10_state.md R41); commands come from the host
one at a time in the order it writes `CMD`. -/

namespace Sys2Proof.Machine

/-- Take the oldest pending action of the host and perform it; with none pending the block is "simply idle with all
state kept" (R290, R311). -/
def step (s : State) : Host.Outcome State Fault Refusal :=
  match s.host with
  | [] => .next s
  | op :: rest => perform op { s with host := rest }

/-- `s` with the host about to write the command word `w` to `CMD` (log entry 1): the very next step issues it. -/
def State.withFetchWord (s : State) (nbits w : Nat) : State :=
  { s with host := .writeReg .cmd (BitVec.ofNat 32 (w % 2 ^ nbits)) :: s.host }

end Sys2Proof.Machine
end

