-- ==== Sys2Proof/Safety.lean ====
section
/-! DEFINITION. The terms in which claims are made: the invariant of the state, the fault-free environment, the
compressed stream as the spec lays it out (spec/30_encoding.md R98, R99), payloads and codewords, and runs of several
commands. Nothing here is used by the machine. -/

namespace Sys2Proof.Machine

/-! ### The invariant -/

/-- A child id is `NIL` or smaller than the record's own id (R29). -/
def childBelow (i : Nat) (n : NodeId) : Bool := decide (n = nilId) || decide (n.toNat < i)

/-- What R26 and R29 say of the record with id `i`. -/
def Node.okAt (c : Config) (i : Nat) : Node → Bool
  | .leaf sym _ => decide (sym.toNat < c.nsym)
  | .inner l r _ => childBelow i l && childBelow i r

/-- An external memory of symbols: canonical, addresses of 32 bits, cells of `SYM_W` bits (R37, R39). -/
structure SymSpaceOk (c : Config) (sp : Space Symbol) : Prop where
  canonical : Memory.wf 0#16 sp.cells = true
  addresses : ∀ e ∈ sp.cells, e.1 < 2 ^ 32
  symbols   : ∀ e ∈ sp.cells, e.2.toNat < c.nsym

/-- `CMP`: canonical, addresses of 32 bits (R38). -/
structure ByteSpaceOk (sp : Space Byte) : Prop where
  canonical : Memory.wf 0#8 sp.cells = true
  addresses : ∀ e ∈ sp.cells, e.1 < 2 ^ 32

/-- What holds in every state of the machine between commands; every step keeps it. -/
structure State.Inv (s : State) : Prop where
  /-- R8. -/
  cfgWf        : s.cfg.wf = true
  /-- R37. -/
  srcOk        : SymSpaceOk s.cfg s.src
  /-- R38. -/
  cmpOk        : ByteSpaceOk s.cmp
  /-- R39. -/
  outOk        : SymSpaceOk s.cfg s.out
  /-- R25. -/
  ftCanonical  : Memory.wf 0#32 s.ft = true
  /-- R25. -/
  ftSymbols    : ∀ e ∈ s.ft, e.1 < s.cfg.nsym
  /-- R33. -/
  cbCanonical  : Memory.rising 0 s.cb = true
  /-- R33: "a non-empty bit string". -/
  cbEntries    : ∀ e ∈ s.cb, e.1 < s.cfg.nsym ∧ e.2 ≠ []
  /-- R26, R27. -/
  nodesFit     : s.nodes.length ≤ s.cfg.nodesMax.toNat
  /-- R26, R29. -/
  nodesOk      : ∀ i (h : i < s.nodes.length), Node.okAt s.cfg i s.nodes[i] = true
  /-- R28, R34. -/
  decRootOk    : s.decRoot = nilId ∨ (s.node? s.decRoot).isSome = true
  /-- R28, R34. -/
  decCurOk     : s.decCur = nilId ∨ (s.node? s.decCur).isSome = true
  /-- R315: a stream is never read while it is being written. -/
  oneOpen      : s.bwOpen = false ∨ s.brOpen = false
  /-- R281: nothing is open once a fault is recorded. -/
  faultedShut  : s.err ≠ none → s.bwOpen = false ∧ s.brOpen = false
  /-- R40: an open writer's stream is not valid. -/
  openNotValid : s.bwOpen = true → s.cmpValid = false
  /-- R31: "unfilled positions are 0". -/
  bufClear     : s.bwOpen = true → s.bwBuf.toNat % 2 ^ (8 - s.bwNbuf.toNat) = 0
  /-- R32: `BR_NBUF` is `0 .. 8`. -/
  brNbufRange  : s.brNbuf.toNat ≤ 8

/-- No fault recorded, no writer and no reader open. -/
structure State.Idle (s : State) : Prop where
  noFault  : s.err = none
  noWriter : s.bwOpen = false
  noReader : s.brOpen = false

/-- What holds of the block after every reset: the column "value after reset" of R44. -/
def State.ResetColumn (t : State) : Prop :=
  t.arg0 = 0#32 ∧ t.arg1 = 0#32 ∧ t.arg2 = 0#32 ∧ t.res = 0#32 ∧ t.err = none ∧ t.ft = [] ∧ t.nodeCnt = 0#32 ∧
  t.cb = [] ∧ t.bwOpen = false ∧ t.bwBuf = 0#8 ∧ t.bwNbuf = 0#3 ∧ t.bwTotal = 0#32 ∧ t.brOpen = false ∧
  t.brShort = false ∧ t.brRem = 0#32 ∧ t.brPtr = 0#32 ∧ t.brBuf = 0#8 ∧ t.brNbuf = 0#4 ∧ t.decRoot = nilId ∧
  t.decCur = nilId ∧ t.cmpValid = false ∧ t.outValid = false ∧ t.status = 0#32

/-- A fault-free environment: every answer to come is `ok` or a value (R61); past the end of the script every answer is
`ok` (log entry 2). -/
def State.FaultFree (s : State) : Prop := s.env = []

/-! ### The three memories as sequences -/

/-- The cells below the length, in order (R37 to R39). -/
def Space.contents {α : Type} (d : α) (sp : Space α) : List α := (List.range sp.len.toNat).map (sp.read d)

/-- `CMP` holds the finalized stream of a payload (R98): the count prefix, the payload MSB first, padding of zeros. -/
structure Space.IsStream (sp : Space Byte) (bits : Bits) : Prop where
  countFits : bits.length ≤ wordMax.toNat
  length    : sp.len.toNat = 4 + (bits.length + 7) / 8
  prefixOk  : ∀ a, a < 4 → some (sp.read 0#8 a) = (be32 (BitVec.ofNat 32 bits.length))[a]?
  payload   : ∀ j k, j < (bits.length + 7) / 8 → k < 8 →
    (sp.read 0#8 (4 + j)).getLsbD (7 - k) = bits.getD (8 * j + k) false

/-- The number the four prefix bytes announce (R99). -/
def Space.announced (sp : Space Byte) : Nat :=
  (sp.read 0#8 0).toNat * 2 ^ 24 + (sp.read 0#8 1).toNat * 2 ^ 16 + (sp.read 0#8 2).toNat * 2 ^ 8 +
    (sp.read 0#8 3).toNat

/-- `avail` of R99: the payload bits that are there. -/
def Space.available (sp : Space Byte) : Nat := 8 * (sp.len.toNat - 4)

/-- The bits an arbitrary `CMP` delivers (R99). -/
def Space.delivered (sp : Space Byte) : Bits :=
  if sp.len.toNat < 4 then []
  else (List.range (min sp.announced sp.available)).map fun k => (sp.read 0#8 (4 + k / 8)).getLsbD (7 - k % 8)

/-- A short stream (R99). -/
def Space.short (sp : Space Byte) : Bool :=
  decide (sp.len.toNat < 4) || decide (sp.available < sp.announced)

/-! ### Trees, codewords, payloads -/

/-- A Huffman tree: "a well-formed tree whose leaf symbols are pairwise distinct" (R46). DESIGN CHOICE, log entry 20: C11
of spec/90_conflicts.md says that R46's Huffman tree "requires the sums" of the weights, which R46's own words do not ask;
they are not asked here, so that a statement about every Huffman tree covers both readings. The sums of a built tree are
`Tree.SumsWeights`. -/
structure Tree.IsHuffman (t : Tree) : Prop where
  wellFormed : t.wf = true
  distinct   : t.leaves.Nodup

/-- The leaf symbols with their root-to-leaf paths, left to right: `0` for left, `1` for right (R101). -/
def Tree.paths : Tree → List (Symbol × Bits)
  | .empty => []
  | .leaf sym _ => [(sym, [])]
  | .inner l r _ => (l.paths.map fun e => (e.1, false :: e.2)) ++ (r.paths.map fun e => (e.1, true :: e.2))

/-- The paths from the root to a missing child, a `NIL` (R216, R222). -/
def Tree.gaps : Tree → List Bits
  | .empty => [[]]
  | .leaf _ _ => []
  | .inner l r _ => (l.gaps.map fun g => false :: g) ++ (r.gaps.map fun g => true :: g)

/-- The id that bits lead to from `n`, `0` to the left and `1` to the right (R215). -/
def State.follow (s : State) : NodeId → Bits → NodeId
  | n, [] => n
  | n, b :: bs =>
    match s.node? n with
    | none => nilId
    | some nd => s.follow (if b then nd.right else nd.left) bs

/-- The leaves with their weights, left to right (R176). -/
def Tree.weighted : Tree → List (Symbol × Word)
  | .empty => []
  | .leaf sym w => [(sym, w)]
  | .inner l r _ => l.weighted ++ r.weighted

/-- I2: every internal node's weight is the sum of its children's weights (R251). -/
def Tree.SumsWeights : Tree → Prop
  | .empty => True
  | .leaf _ _ => True
  | .inner l r w => w.toNat = l.weight.toNat + r.weight.toNat ∧ l.SumsWeights ∧ r.SumsWeights

/-- The sum of the weights of the internal nodes (R254). -/
def Tree.innerWeights : Tree → Nat
  | .empty => 0
  | .leaf _ _ => 0
  | .inner l r w => w.toNat + l.innerWeights + r.innerWeights

/-- The codewords of symbols, one after another (R102); nothing for a symbol that has none. -/
def State.payload (s : State) (syms : List Symbol) : Bits :=
  syms.flatMap fun sym => (s.codeword sym.toNat).getD []

/-- `SRC` as a sequence (R37). -/
def State.source (s : State) : List Symbol := s.src.contents 0#16

/-! ### Several commands -/

/-- Run commands one after another, `ARG0` to `ARG2` as they stand. -/
def commands : List Instr → State → Option State
  | [], s => some s
  | i :: is, s =>
    match exec i s with
    | .next t => commands is t
    | .fault _ => none
    | .refused _ => none

/-- The results of `n` times `BR.READ`. -/
def readResults : Nat → State → Option (List Word)
  | 0, _ => some []
  | n + 1, s =>
    match exec .brRead s with
    | .next t => (readResults n t).map (t.res :: ·)
    | .fault _ => none
    | .refused _ => none

/-- The host copies `RES` to `ARG0`, as it does to pass a tree on (R105, R313). -/
def State.passResult (s : State) : State := { s with arg0 := s.res }

/-- HE's data flow as commands (R237, R255): `SYS.CLEAR ; FC.COUNT ; r = TB.BUILD ; CB.DERIVE r ; ENC.RUN ; DEC.RUN r`. -/
def stageByStage (s : State) : Option State :=
  (commands [.sysClear, .fcCount, .tbBuild] s).bind fun s1 =>
    commands [.cbDerive, .encRun, .decRun] s1.passResult

end Sys2Proof.Machine
end

