-- ==== Sys2Proof/Certificates/Slice0/Obligations.lean ====
section
/-! DEFINITION. The statements, each formalising rules of spec/ as its docstring says. Nothing is proved here. -/

open Sys2Proof Sys2Proof.Machine

/-! ### Encodings (spec/30_encoding.md) -/

/-- Every command's word decodes to that command (R93; derived). -/
def Obligations.EncodedCommandsDecodeBack : Prop :=
  ∀ i : Instr, i.wf = true → decode (encode i) = .instr i

/-- A word that decodes to a command is the one word of that command: no two words share a meaning and no bit is
ignored (R90, R93; derived). -/
def Obligations.DecodedWordsAreTheTable : Prop :=
  ∀ (w : Word) (i : Instr), decode w = .instr i → w = encode i

/-- R94: every reserved opcode, and every word with a bit of `[31:8]` set, raises `IllegalCommand` (in a block that is
not `FAULTED`). -/
def Obligations.ReservedWordsRaiseIllegalCommand : Prop :=
  ∀ (s : State) (w : Word) (rest : List HostOp), s.err = none → s.host = .writeReg .cmd w :: rest →
    (w.toNat = 0 ∨ (0x03 ≤ w.toNat ∧ w.toNat ≤ 0x0F) ∨ (0x11 ≤ w.toNat ∧ w.toNat ≤ 0x1F) ∨
      (0x29 ≤ w.toNat ∧ w.toNat ≤ 0x2F) ∨ (0x32 ≤ w.toNat ∧ w.toNat ≤ 0x3F) ∨ (0x47 ≤ w.toNat ∧ w.toNat ≤ 0x4F) ∨
      (0x51 ≤ w.toNat ∧ w.toNat ≤ 0x5F) ∨ (0x61 ≤ w.toNat ∧ w.toNat ≤ 0xFF) ∨ upperField w ≠ 0#24) →
    ∃ t, step s = .next t ∧ t = State.raiseFault .illegalCommand { s with host := rest } ∧
      t.err = some .illegalCommand

/-- Words written out from R93 decode to their commands, and three illegal words are refused by reason (R94). -/
def Obligations.WrittenOutWordsDecode : Prop :=
  decode 0x00000001#32 = .instr .sysClear ∧ decode 0x00000002#32 = .instr .sesRun ∧
  decode 0x00000010#32 = .instr .fcCount ∧ decode 0x00000020#32 = .instr .treeLeaf ∧
  decode 0x00000028#32 = .instr .treeEq ∧ decode 0x00000030#32 = .instr .tbBuild ∧
  decode 0x00000031#32 = .instr .cbDerive ∧ decode 0x00000042#32 = .instr (.bwWrite false) ∧
  decode 0x00000043#32 = .instr (.bwWrite true) ∧ decode 0x00000044#32 = .instr .brOpen ∧
  decode 0x00000050#32 = .instr .encRun ∧ decode 0x00000060#32 = .instr .decRun ∧
  decode 0x00000000#32 = .reject .reservedOpcode ∧ decode 0x00000047#32 = .reject .reservedOpcode ∧
  decode 0x00000140#32 = .reject .upperBitsNonZero

/-- A step with a `CMD` write pending runs the command its word decodes to, in the state with that write taken off; with
nothing pending a step changes nothing; the lines of the assembler put operands in `ARG0`, `ARG1`, `ARG2` and issue the
command's word (R90, R105, R106, R290, R311; derived). The queue of pending actions is the model's choice, log entry
1. -/
def Obligations.StepRunsTheDecodedCommand : Prop :=
  (∀ (s : State) (w : Word) (i : Instr) (rest : List HostOp), s.host = .writeReg .cmd w :: rest →
    decode w = .instr i → step s = exec i { s with host := rest }) ∧
  (∀ (s : State) (w : Nat) (i : Instr), decode (BitVec.ofNat 32 w) = .instr i →
    step (s.withFetchWord 32 w) = exec i s) ∧
  (∀ s : State, s.host = [] → step s = .next s) ∧
  (∀ (i : Instr) (a b c : Word),
    assemble (.command i []) = [.writeReg .cmd (encode i)] ∧
    assemble (.command i [a]) = [.writeReg .arg0 a, .writeReg .cmd (encode i)] ∧
    assemble (.command i [a, b]) = [.writeReg .arg0 a, .writeReg .arg1 b, .writeReg .cmd (encode i)] ∧
    assemble (.command i [a, b, c]) =
      [.writeReg .arg0 a, .writeReg .arg1 b, .writeReg .arg2 c, .writeReg .cmd (encode i)]) ∧
  (∀ bs : Bits, assemble (.bits bs) = bs.map fun b => .writeReg .cmd (encode (.bwWrite b)))

/-! ### The command port and the host (spec/10_state.md, spec/47_session_and_system.md) -/

/-- R239: reads change nothing and return the register (0 for `CMD`), writes of `ARG0` to `ARG2` store, writes of `RES`
and `STATUS` are ignored. -/
def Obligations.PortAccessesFollowTheRegisterMap : Prop :=
  ∀ (s : State) (v : Word) (rest : List HostOp),
    (∀ r, s.host = .readReg r :: rest → step s = .next { s with host := rest }) ∧
    (s.readReg .cmd = 0#32 ∧ s.readReg .arg0 = s.arg0 ∧ s.readReg .arg1 = s.arg1 ∧ s.readReg .arg2 = s.arg2 ∧
      s.readReg .res = s.res ∧ s.readReg .status = s.status) ∧
    (s.host = .writeReg .arg0 v :: rest → step s = .next { s with arg0 := v, host := rest }) ∧
    (s.host = .writeReg .arg1 v :: rest → step s = .next { s with arg1 := v, host := rest }) ∧
    (s.host = .writeReg .arg2 v :: rest → step s = .next { s with arg2 := v, host := rest }) ∧
    (s.host = .writeReg .res v :: rest → step s = .next { s with host := rest }) ∧
    (s.host = .writeReg .status v :: rest → step s = .next { s with host := rest })

/-- Between commands the host reads and writes any cell and any length of the external memories; a read changes nothing,
and after a write every other cell, and the rest of the state, is kept (R77; derived). Two clauses are the model's choice:
that a cell of `SRC` or `OUT` keeps `SYM_W` bits of a wider value (log entry 7), and that a write of a length keeps every
cell, so that a raised length uncovers what the cells hold (log entry 6). -/
def Obligations.HostMemoryAccessesReachTheirCell : Prop :=
  ∀ (s : State) (a : Word) (n : Word) (rest : List HostOp), s.Inv →
    (∀ m, s.host = .readMem m :: rest → step s = .next { s with host := rest }) ∧
    ((s.readMem (.src a)).toNat = (s.src.read 0#16 a.toNat).toNat ∧
      (s.readMem (.cmp a)).toNat = (s.cmp.read 0#8 a.toNat).toNat ∧
      (s.readMem (.out a)).toNat = (s.out.read 0#16 a.toNat).toNat ∧ s.readMem .srcLen = s.src.len ∧
      s.readMem .cmpLen = s.cmp.len ∧ s.readMem .outLen = s.out.len) ∧
    (∀ v : Byte, s.host = .writeCmp a v :: rest →
      ∃ t, step s = .next t ∧ t = { s with cmp := t.cmp, host := rest } ∧ t.cmp.len = s.cmp.len ∧
        t.cmp.read 0#8 a.toNat = v ∧ ∀ b, b ≠ a.toNat → t.cmp.read 0#8 b = s.cmp.read 0#8 b) ∧
    (∀ v : Symbol, s.host = .writeSrc a v :: rest →
      ∃ t, step s = .next t ∧ t = { s with src := t.src, host := rest } ∧ t.src.len = s.src.len ∧
        (t.src.read 0#16 a.toNat).toNat = v.toNat % s.cfg.nsym ∧
        ∀ b, b ≠ a.toNat → t.src.read 0#16 b = s.src.read 0#16 b) ∧
    (∀ v : Symbol, s.host = .writeOut a v :: rest →
      ∃ t, step s = .next t ∧ t = { s with out := t.out, host := rest } ∧ t.out.len = s.out.len ∧
        (t.out.read 0#16 a.toNat).toNat = v.toNat % s.cfg.nsym ∧
        ∀ b, b ≠ a.toNat → t.out.read 0#16 b = s.out.read 0#16 b) ∧
    (s.host = .writeSrcLen n :: rest →
      step s = .next { s with src := { s.src with len := n }, host := rest }) ∧
    (s.host = .writeCmpLen n :: rest →
      step s = .next { s with cmp := { s.cmp with len := n }, host := rest }) ∧
    (s.host = .writeOutLen n :: rest →
      step s = .next { s with out := { s.out with len := n }, host := rest })

/-- R22: the fields of `STATUS`, and that reading it changes nothing; with the codes of R270. -/
def Obligations.StatusShowsTheFlagsAndTheFaultCode : Prop :=
  (∀ s : State,
    s.status.extractLsb' 0 4 = s.errCode ∧
    s.status.getLsbD 4 = decide (s.errCode ≠ 0#4) ∧
    s.status.getLsbD 5 = s.bwOpen ∧ s.status.getLsbD 6 = s.brOpen ∧ s.status.getLsbD 7 = s.brShort ∧
    s.status.getLsbD 8 = s.cmpValid ∧ s.status.getLsbD 9 = s.outValid ∧
    ∀ j, 10 ≤ j → s.status.getLsbD j = false) ∧
  (∀ (s : State) (rest : List HostOp), s.host = .readReg .status :: rest →
    s.readReg .status = s.status ∧ step s = .next { s with host := rest }) ∧
  (∀ s : State, s.err = none → s.errCode = 0#4) ∧ (∀ (s : State) (k : FaultKind), s.err = some k → s.errCode = k.code) ∧
  FaultKind.code .sourceUnavailable = 1#4 ∧ FaultKind.code .sinkUnavailable = 2#4 ∧
  FaultKind.code .sourceCorrupt = 3#4 ∧ FaultKind.code .sinkCorrupt = 4#4 ∧
  FaultKind.code .streamTruncated = 5#4 ∧ FaultKind.code .streamUnexpectedBit = 6#4 ∧
  FaultKind.code .symbolUnencodable = 7#4 ∧ FaultKind.code .illegalCommand = 8#4 ∧
  FaultKind.code .capacityExceeded = 9#4

/-! ### Faults (spec/60_exceptions.md) -/

/-- R280 and R281: a raise keeps the first kind, closes an open writer quietly, drops the reader, and leaves everything
else (`RES`, the tables, the decoder, the valid flags, the other reader registers) as it was. -/
def Obligations.RaiseKeepsTheFirstKindAndReleases : Prop :=
  ∀ (k : FaultKind) (s t : State), t = complete (.raised k s) →
    t.err = some (s.err.getD k) ∧ t.bwOpen = false ∧ t.brOpen = false ∧
    (s.bwOpen = false → t = { s with err := some (s.err.getD k), brOpen := false }) ∧
    (s.bwOpen = true →
      t.cmp = (bwCloseQuiet s).cmp ∧
      t = { s with err := some (s.err.getD k), brOpen := false, bwOpen := false, cmp := t.cmp, env := t.env,
                   bwBuf := t.bwBuf, bwNbuf := t.bwNbuf })

/-- The quiet close (R133) in a fault-free environment: the partial byte is flushed with its zero padding, the prefix
is rewritten with the count, nothing else of `CMP` changes and validity is not claimed; before the placeholders are
complete only `BW_OPEN` is cleared (derived). At the largest `CMP_LEN` an append stores its byte, and its increment raises
`CapacityExceeded` with `CMP_LEN` kept, in `BW.WRITE` and `BW.CLOSE` too, and the quiet close goes on: the model's reading
of R61, R9 and R133, log entries 9 and 10. -/
def Obligations.QuietCloseFinalizesTheStream : Prop :=
  (∀ s : State, s.cmp.len.toNat < 4 → bwCloseQuiet s = { s with bwOpen := false }) ∧
  (∀ (s : State) (v : Byte), s.Inv → s.FaultFree → s.cmp.len = wordMax →
    ∃ u, writeCmp s.cmp.len.toNat v s = .raised .capacityExceeded u ∧ u = { s with cmp := u.cmp } ∧
      u.cmp.len = wordMax ∧ u.cmp.read 0#8 s.cmp.len.toNat = v ∧
      ∀ a, a ≠ s.cmp.len.toNat → u.cmp.read 0#8 a = s.cmp.read 0#8 a) ∧
  (∀ (s : State) (b : Bool), s.Inv → s.FaultFree → s.err = none → s.bwOpen = true → s.cmp.len = wordMax →
    (s.bwTotal ≠ wordMax → s.bwNbuf = 7#3 →
      ∃ u, exec (.bwWrite b) s = .next (State.raiseFault .capacityExceeded u) ∧
        u = { s with cmp := u.cmp, bwBuf := setBit s.bwBuf 0 b, bwTotal := s.bwTotal + 1#32 } ∧
        u.cmp.len = wordMax ∧ u.cmp.read 0#8 s.cmp.len.toNat = setBit s.bwBuf 0 b) ∧
    (s.bwNbuf ≠ 0#3 →
      ∃ u, exec .bwClose s = .next (State.raiseFault .capacityExceeded u) ∧ u = { s with cmp := u.cmp } ∧
        u.cmp.len = wordMax ∧ u.cmp.read 0#8 s.cmp.len.toNat = s.bwBuf)) ∧
  (∀ s t : State, s.Inv → s.FaultFree → 4 ≤ s.cmp.len.toNat → t = bwCloseQuiet s →
    t = { s with bwOpen := false, cmp := t.cmp, bwNbuf := 0#3, bwBuf := t.bwBuf } ∧
    t.cmp.len.toNat = s.cmp.len.toNat + (if s.bwNbuf = 0#3 ∨ s.cmp.len = wordMax then 0 else 1) ∧
    (∀ a, a < 4 → some (t.cmp.read 0#8 a) = (be32 s.bwTotal)[a]?) ∧
    (s.bwNbuf ≠ 0#3 → t.cmp.read 0#8 s.cmp.len.toNat = s.bwBuf) ∧
    (∀ a, 4 ≤ a → (s.bwNbuf = 0#3 ∨ a ≠ s.cmp.len.toNat) → t.cmp.read 0#8 a = s.cmp.read 0#8 a))

/-- R282: in the `FAULTED` state every `CMD` write but `SYS.CLEAR` is ignored, and only `SYS.CLEAR` or a reset ends it. -/
def Obligations.FaultedBlockIgnoresCommands : Prop :=
  (∀ (s : State) (k : FaultKind) (w : Word) (rest : List HostOp), s.err = some k →
    s.host = .writeReg .cmd w :: rest → w ≠ 0x00000001#32 → step s = .next { s with host := rest }) ∧
  (∀ (s t : State) (k : FaultKind), s.err = some k → step s = .next t → t.err ≠ some k →
    t.err = none ∧
    ((∃ rest, s.host = .writeReg .cmd 0x00000001#32 :: rest) ∨ (∃ rest, s.host = .reset :: rest) ∨
      (∃ w used cl cn ol on rest, s.host = .resetDuring w used cl cn ol on :: rest))) ∧
  (∀ (s : State) (k : FaultKind), s.err = some k → s.status.getLsbD 4 = true)

/-- A command ends normally, by a raise, or ignored, and a raise or an ignored command does not write `RES` (R21, R238;
derived). For `SES.RUN` that follows R21 and R238 against the column of R44 in R237: the model's reading, log entry 11. -/
def Obligations.CommandsEndInOneOfThreeWays : Prop :=
  ∀ (i : Instr) (s : State), ∃ t, exec i s = .next t ∧
    ((s.err ≠ none ∧ i ≠ .sysClear ∧ t = s) ∨
      ((s.err = none ∨ i = .sysClear) ∧ t.err = none) ∨
      (s.err = none ∧ (∃ k, t.err = some k) ∧ t.bwOpen = false ∧ t.brOpen = false ∧ t.res = s.res))

/-- Operand ranges and preconditions (R92, R235, R278): each failed check raises `IllegalCommand` and nothing else
happens. -/
def Obligations.UnacceptableCommandsRaiseIllegalCommand : Prop :=
  ∀ s : State, s.err = none →
    (∀ i ∈ [Instr.bwOpen, .brOpen, .encRun, .decRun, .sesRun], s.bwOpen = true ∨ s.brOpen = true →
      exec i s = .next (s.raiseFault .illegalCommand)) ∧
    (∀ i ∈ [Instr.bwWrite false, .bwWrite true, .bwClose], s.bwOpen = false →
      exec i s = .next (s.raiseFault .illegalCommand)) ∧
    (∀ i ∈ [Instr.brRead, .brClose], s.brOpen = false → exec i s = .next (s.raiseFault .illegalCommand)) ∧
    (∀ i ∈ [Instr.treeIsLeaf, .treeSym, .treeLeft, .treeRight, .treeWeight], s.node? s.arg0 = none →
      exec i s = .next (s.raiseFault .illegalCommand)) ∧
    (∀ l r w, s.node? s.arg0 = some (.inner l r w) → exec .treeSym s = .next (s.raiseFault .illegalCommand)) ∧
    (∀ i ∈ [Instr.treeNode, .treeSize, .treeEq, .cbDerive, .decRun], s.arg0 ≠ nilId → s.node? s.arg0 = none →
      exec i s = .next (s.raiseFault .illegalCommand)) ∧
    (∀ i ∈ [Instr.treeNode, .treeEq], s.arg1 ≠ nilId → s.node? s.arg1 = none →
      exec i s = .next (s.raiseFault .illegalCommand)) ∧
    (s.cfg.nsym ≤ s.arg0.toNat → exec .treeLeaf s = .next (s.raiseFault .illegalCommand))

/-- R62 and R63: an `ioerr` raises the kind of its role, and a failed write does not advance the length. The value left
in the addressed cell is free: only the other cells are said to be kept. -/
def Obligations.FailedAccessesRaiseByRole : Prop :=
  ∀ (s : State) (left : Symbol) (rest : List Answer), s.Inv → s.env = .ioerr left :: rest →
    openRead s = .raised .sourceUnavailable { s with env := rest } ∧
    openWriteCmp s = .raised .sinkUnavailable { s with env := rest } ∧
    openWriteOut s = .raised .sinkUnavailable { s with env := rest } ∧
    (∀ a, readSrc a s = .raised .sourceCorrupt { s with env := rest }) ∧
    (∀ a, readCmp a s = .raised .sourceCorrupt { s with env := rest }) ∧
    (∀ a v, ∃ t, writeCmp a v s = .raised .sinkCorrupt t ∧ t = { s with env := rest, cmp := t.cmp } ∧
      t.cmp.len = s.cmp.len ∧ ∀ b, b ≠ a → t.cmp.read 0#8 b = s.cmp.read 0#8 b) ∧
    (∀ a v, ∃ t, writeOut a v s = .raised .sinkCorrupt t ∧ t = { s with env := rest, out := t.out } ∧
      t.out.len = s.out.len ∧ ∀ b, b ≠ a → t.out.read 0#16 b = s.out.read 0#16 b)

/-- The order of the opens decides the kind (R284): the first access fails, so the encoder reports its sink and the
decoder its source, with none of the later conditions looked at (derived). That `SES.RUN` then leaves a fresh session with
`RES` as it was is the model's reading, log entry 11. -/
def Obligations.FirstFailingAccessDecidesTheKind : Prop :=
  ∀ (s : State) (left : Symbol) (rest : List Answer), s.Idle → s.env = .ioerr left :: rest →
    exec .encRun s = .next (State.raiseFault .sinkUnavailable { s with env := rest }) ∧
    exec .bwOpen s = .next (State.raiseFault .sinkUnavailable { s with env := rest }) ∧
    exec .brOpen s = .next (State.raiseFault .sourceUnavailable { s with env := rest }) ∧
    exec .fcCount s = .next (State.raiseFault .sourceUnavailable { s with env := rest, ft := [] }) ∧
    (s.arg0 = nilId ∨ (s.node? s.arg0).isSome = true →
      exec .decRun s = .next (State.raiseFault .sourceUnavailable { s with env := rest })) ∧
    exec .sesRun s = .next (State.raiseFault .sourceUnavailable { s.clearSession with res := s.res, env := rest })

/-- No step stops: the block has no stuck state (R325; derived). -/
def Obligations.NoStepStops : Prop :=
  ∀ s : State, ∃ t, step s = .next t

/-! ### Reset, `SYS.CLEAR`, the invariant -/

/-- Reset (R44, R310, R311): every register takes its reset value. While idle the external memories stay. While a command
runs there is no quiet close, and `CMP` and `OUT` stay as they were where the command can write no cell: `CMP` when the
word is ignored, when it is not an opening command and no writer is open, when something else is refused for an open
reader, when a bit goes to the buffer only, and when a command outside the bit writer leaves the writer open; below
`CMP_LEN` when a bit appends a byte; `OUT` unless a `DEC.RUN` or `SES.RUN` is accepted. And the reset states meet the
invariant for every admissible instance (derived). The model's choices: what an abandoned command leaves where R310 is
silent, the environment's answers and a length among it (log entry 12); the instance of `State.reset` and its empty
memories (log entries 4 and 5). -/
def Obligations.ResetGivesTheEmptySession : Prop :=
  (∀ (s : State) (rest : List HostOp), s.host = .reset :: rest →
    ∃ t, step s = .next t ∧ t.ResetColumn ∧ t.src = s.src ∧ t.cmp = s.cmp ∧ t.out = s.out ∧
      t.cfg = s.cfg ∧ t.host = rest) ∧
  (∀ (s : State) (w : Word) (used : Nat) (cl : List (Word × Byte)) (cn : Word) (ol : List (Word × Symbol)) (on : Word)
      (rest : List HostOp), s.host = .resetDuring w used cl cn ol on :: rest →
    ∃ t, step s = .next t ∧ t.ResetColumn ∧ t.src = s.src ∧ t.cfg = s.cfg ∧ t.host = rest ∧
      (∃ n, t.env = s.env.drop n) ∧
      (s.err ≠ none → w ≠ 0x00000001#32 → t.cmp = s.cmp) ∧
      (s.bwOpen = false → w ∉ [0x00000002#32, 0x00000040#32, 0x00000050#32] → t.cmp = s.cmp) ∧
      (s.bwOpen = false → s.brOpen = true → t.cmp = s.cmp) ∧
      (s.bwTotal ≠ wordMax → s.bwNbuf ≠ 7#3 → s.bwOpen = true → w ∈ [0x00000042#32, 0x00000043#32] →
        t.cmp = s.cmp) ∧
      (∀ i u, decode w = .instr i → i ∉ [Instr.bwClose, .bwWrite false, .bwWrite true] → s.bwOpen = true →
        exec i s = .next u → u.bwOpen = true → t.cmp = s.cmp) ∧
      (s.FaultFree → s.cmp.len ≠ wordMax → s.bwTotal ≠ wordMax → s.bwOpen = true →
        w ∈ [0x00000042#32, 0x00000043#32] → s.cmp.len.toNat ≤ t.cmp.len.toNat ∧
        ∀ a, a < s.cmp.len.toNat → t.cmp.read 0#8 a = s.cmp.read 0#8 a) ∧
      (s.err ≠ none ∨ w ∉ [0x00000002#32, 0x00000060#32] ∨ s.bwOpen = true ∨ s.brOpen = true → t.out = s.out) ∧
      (w = 0x00000060#32 → s.arg0 ≠ nilId → s.node? s.arg0 = none → t.out = s.out)) ∧
  (∀ c : Config, c.wf = true → (State.resetOf c).Inv) ∧ State.reset.Inv

/-- R236: `SYS.CLEAR` completes in every state, `FAULTED` or not; the session starts afresh, the `ARG` registers and
`SRC`, `OUT` are not touched, and `CMP` only by the quiet close of an open writer. -/
def Obligations.SysClearStartsAFreshSession : Prop :=
  decode 0x00000001#32 = .instr .sysClear ∧
  ∀ s : State, ∃ t, exec .sysClear s = .next t ∧ t.status = 0#32 ∧ t.res = 0#32 ∧ t.err = none ∧
    t.ft = [] ∧ t.nodeCnt = 0#32 ∧ t.cb = [] ∧ t.bwOpen = false ∧ t.bwBuf = 0#8 ∧ t.bwNbuf = 0#3 ∧ t.bwTotal = 0#32 ∧
    t.brOpen = false ∧ t.brShort = false ∧ t.brRem = 0#32 ∧ t.brPtr = 0#32 ∧ t.brBuf = 0#8 ∧ t.brNbuf = 0#4 ∧
    t.decRoot = nilId ∧ t.decCur = nilId ∧ t.cmpValid = false ∧ t.outValid = false ∧
    t.arg0 = s.arg0 ∧ t.arg1 = s.arg1 ∧ t.arg2 = s.arg2 ∧ t.src = s.src ∧ t.out = s.out ∧ t.cfg = s.cfg ∧
    t.host = s.host ∧
    (s.bwOpen = false → t.cmp = s.cmp ∧ t.env = s.env) ∧
    (s.bwOpen = true → t.cmp = (bwCloseQuiet s).cmp ∧ t.env = (bwCloseQuiet s).env)

/-- Every step keeps the invariant, from every state that meets it: the memories and tables stay canonical and in
range, the records stay acyclic, ids stay valid, a faulted block has nothing open, a writer and a reader are never open
together (R25 to R34, R40, R281, R315; derived). -/
def Obligations.StepKeepsTheInvariant : Prop :=
  ∀ s t : State, s.Inv → step s = .next t → t.Inv

/-! ### What no command touches -/

/-- No command writes the `ARG` registers, `SRC`, `SRC_LEN` or the parameters (R20, R37, R43; derived). -/
def Obligations.CommandsKeepOperandsSourceAndParameters : Prop :=
  ∀ (i : Instr) (s t : State), exec i s = .next t →
    t.arg0 = s.arg0 ∧ t.arg1 = s.arg1 ∧ t.arg2 = s.arg2 ∧ t.src = s.src ∧ t.cfg = s.cfg ∧ t.host = s.host

/-- Which commands write which tables, memories and registers (R25, R31 to R34, R39, R40, R60, R281; derived): every other
command leaves them, byte for byte. With a writer open, a command outside `BW.*`, `ENC.RUN`, `SYS.CLEAR` and `SES.RUN` that
leaves it open leaves `CMP` and the bit buffer, and one that does not leaves what the quiet close makes of them in the
state it raised in. -/
def Obligations.EachTableHasItsWriters : Prop :=
  ∀ (i : Instr) (s t : State), exec i s = .next t →
    (i ∉ [Instr.fcCount, .sysClear, .sesRun] → t.ft = s.ft) ∧
    (i ∉ [Instr.cbDerive, .sysClear, .sesRun] → t.cb = s.cb) ∧
    (i ∉ [Instr.treeLeaf, .treeNode, .tbBuild, .sysClear, .sesRun] → t.nodes = s.nodes) ∧
    (i ∉ [Instr.decRun, .sysClear, .sesRun] → t.decRoot = s.decRoot ∧ t.decCur = s.decCur ∧ t.outValid = s.outValid) ∧
    (i ∉ [Instr.decRun, .sesRun] → t.out = s.out) ∧
    (i ∉ [Instr.brOpen, .brRead, .decRun, .sysClear, .sesRun] →
      t.brRem = s.brRem ∧ t.brPtr = s.brPtr ∧ t.brBuf = s.brBuf ∧ t.brNbuf = s.brNbuf ∧ t.brShort = s.brShort) ∧
    (i ∉ [Instr.brOpen, .decRun, .sesRun] → t.brOpen = true → s.brOpen = true) ∧
    (i ∉ [Instr.bwOpen, .bwWrite false, .bwWrite true, .encRun, .sysClear, .sesRun] → t.bwTotal = s.bwTotal) ∧
    (i ∉ [Instr.bwOpen, .encRun, .sesRun] → t.bwOpen = true → s.bwOpen = true) ∧
    (i ∉ [Instr.bwOpen, .encRun, .sesRun] → s.bwOpen = false →
      t.cmp = s.cmp ∧ t.bwBuf = (if i = .sysClear then 0#8 else s.bwBuf) ∧
      t.bwNbuf = (if i = .sysClear then 0#3 else s.bwNbuf)) ∧
    (i ∉ [Instr.bwOpen, .bwClose, .bwWrite false, .bwWrite true, .encRun, .sysClear, .sesRun] → s.bwOpen = true →
      (t.bwOpen = true → t.cmp = s.cmp ∧ t.bwBuf = s.bwBuf ∧ t.bwNbuf = s.bwNbuf) ∧
      (t.bwOpen = false →
        ∃ u : State, u.bwOpen = true ∧ u.cmp = s.cmp ∧ u.bwBuf = s.bwBuf ∧ u.bwNbuf = s.bwNbuf ∧
          u.bwTotal = s.bwTotal ∧ (∃ n, u.env = s.env.drop n) ∧ t.cmp = (bwCloseQuiet u).cmp ∧
          t.bwBuf = (bwCloseQuiet u).bwBuf ∧ t.bwNbuf = (bwCloseQuiet u).bwNbuf ∧ t.env = (bwCloseQuiet u).env)) ∧
    (i ∉ [Instr.bwOpen, .bwClose, .encRun, .sysClear, .sesRun] → t.cmpValid = s.cmpValid) ∧
    (i ∉ [Instr.bwClose, .encRun, .sesRun] → t.cmpValid = true → s.cmpValid = true) ∧
    (i ∉ [Instr.decRun, .sesRun] → t.outValid = true → s.outValid = true)

/-- R150: no command writes a record below `NODE_CNT` (a fresh session excepted), so an id names the same record, and
the same tree, for the rest of the session. -/
def Obligations.RecordsAreNeverRewritten : Prop :=
  ∀ (i : Instr) (s t : State), i ≠ .sysClear → i ≠ .sesRun → exec i s = .next t →
    (∃ more, t.nodes = s.nodes ++ more) ∧
    (∀ n nd, s.node? n = some nd → t.node? n = some nd) ∧
    (s.Inv → ∀ n, (s.node? n).isSome = true → t.tree n = s.tree n)

/-! ### The tree store (spec/41_tree_store.md) -/

/-- R141, `TREE.LEAF`. -/
def Obligations.TreeLeafAllocatesALeaf : Prop :=
  decode 0x00000020#32 = .instr .treeLeaf ∧
  ∀ s : State, s.err = none →
    (s.cfg.nsym ≤ s.arg0.toNat → exec .treeLeaf s = .next (s.raiseFault .illegalCommand)) ∧
    (s.arg0.toNat < s.cfg.nsym → s.nodes.length = s.cfg.nodesMax.toNat →
      exec .treeLeaf s = .next (s.raiseFault .capacityExceeded)) ∧
    (s.arg0.toNat < s.cfg.nsym → s.nodes.length < s.cfg.nodesMax.toNat →
      exec .treeLeaf s = .next { s with nodes := s.nodes ++ [.leaf (s.arg0.setWidth 16) s.arg1], res := s.nodeCnt })

/-- R142, `TREE.NODE`. -/
def Obligations.TreeNodeAllocatesAnInternalNode : Prop :=
  decode 0x00000021#32 = .instr .treeNode ∧
  ∀ s : State, s.err = none →
    ((s.arg0 ≠ nilId ∧ s.node? s.arg0 = none) ∨ (s.arg1 ≠ nilId ∧ s.node? s.arg1 = none) →
      exec .treeNode s = .next (s.raiseFault .illegalCommand)) ∧
    ((s.arg0 = nilId ∨ (s.node? s.arg0).isSome = true) → (s.arg1 = nilId ∨ (s.node? s.arg1).isSome = true) →
      (s.nodes.length = s.cfg.nodesMax.toNat → exec .treeNode s = .next (s.raiseFault .capacityExceeded)) ∧
      (s.nodes.length < s.cfg.nodesMax.toNat →
        exec .treeNode s =
          .next { s with nodes := s.nodes ++ [.inner s.arg0 s.arg1 s.arg2], res := s.nodeCnt }))

/-- R143, R145, R146, R147: `TREE.ISLEAF`, `TREE.LEFT`, `TREE.RIGHT`, `TREE.WEIGHT`, on a leaf, on an internal node and
on an id that is not valid. -/
def Obligations.TreeInspectionsReadTheRecord : Prop :=
  decode 0x00000022#32 = .instr .treeIsLeaf ∧ decode 0x00000024#32 = .instr .treeLeft ∧
  decode 0x00000025#32 = .instr .treeRight ∧ decode 0x00000026#32 = .instr .treeWeight ∧
  ∀ s : State, s.err = none →
    (∀ sym w, s.node? s.arg0 = some (.leaf sym w) →
      exec .treeIsLeaf s = .next { s with res := 1#32 } ∧ exec .treeLeft s = .next { s with res := nilId } ∧
      exec .treeRight s = .next { s with res := nilId } ∧ exec .treeWeight s = .next { s with res := w }) ∧
    (∀ l r w, s.node? s.arg0 = some (.inner l r w) →
      exec .treeIsLeaf s = .next { s with res := 0#32 } ∧ exec .treeLeft s = .next { s with res := l } ∧
      exec .treeRight s = .next { s with res := r } ∧ exec .treeWeight s = .next { s with res := w }) ∧
    (s.node? s.arg0 = none → ∀ i ∈ [Instr.treeIsLeaf, .treeLeft, .treeRight, .treeWeight],
      exec i s = .next (s.raiseFault .illegalCommand))

/-- R144, `TREE.SYM`. -/
def Obligations.TreeSymReadsALeaf : Prop :=
  decode 0x00000023#32 = .instr .treeSym ∧
  ∀ s : State, s.err = none →
    (∀ sym w, s.node? s.arg0 = some (.leaf sym w) → exec .treeSym s = .next { s with res := sym.setWidth 32 }) ∧
    (s.node? s.arg0 = none ∨ (∃ l r w, s.node? s.arg0 = some (.inner l r w)) →
      exec .treeSym s = .next (s.raiseFault .illegalCommand))

/-- R46 and R29: the tree an id names is the one its record and its children's trees make (derived). -/
def Obligations.TreesFollowTheRecords : Prop :=
  ∀ s : State, s.Inv → s.tree nilId = .empty ∧ ∀ n,
    (∀ sym w, s.node? n = some (.leaf sym w) → s.tree n = .leaf sym w) ∧
    (∀ l r w, s.node? n = some (.inner l r w) → s.tree n = .inner (s.tree l) (s.tree r) w)

/-- R148, `TREE.SIZE`: the exact number of nodes of the tree, a shared record once per path, or `CapacityExceeded`; a
well-formed tree with `k` leaves has size `2k − 1`. -/
def Obligations.TreeSizeCountsTheUnfoldedTree : Prop :=
  decode 0x00000027#32 = .instr .treeSize ∧
  (∀ s : State, s.Inv → s.err = none →
    (s.arg0 ≠ nilId → s.node? s.arg0 = none → exec .treeSize s = .next (s.raiseFault .illegalCommand)) ∧
    (s.arg0 = nilId ∨ (s.node? s.arg0).isSome = true →
      ((s.tree s.arg0).size ≤ 2 ^ 32 - 1 →
        exec .treeSize s = .next { s with res := BitVec.ofNat 32 (s.tree s.arg0).size }) ∧
      (2 ^ 32 - 1 < (s.tree s.arg0).size → exec .treeSize s = .next (s.raiseFault .capacityExceeded)))) ∧
  (∀ t : Tree, t.wf = true → t.size + 1 = 2 * t.leaves.length ∧ 1 ≤ t.leaves.length)

/-- R149, `TREE.EQ`: structure and leaf symbols decide, weights do not; left and right are not interchangeable. -/
def Obligations.TreeEqComparesShapeAndSymbols : Prop :=
  decode 0x00000028#32 = .instr .treeEq ∧
  (∀ s : State, s.err = none →
    ((s.arg0 ≠ nilId ∧ s.node? s.arg0 = none) ∨ (s.arg1 ≠ nilId ∧ s.node? s.arg1 = none) →
      exec .treeEq s = .next (s.raiseFault .illegalCommand)) ∧
    ((s.arg0 = nilId ∨ (s.node? s.arg0).isSome = true) → (s.arg1 = nilId ∨ (s.node? s.arg1).isSome = true) →
      exec .treeEq s = .next { s with res := if (s.tree s.arg0).eqv (s.tree s.arg1) then 1#32 else 0#32 })) ∧
  (∀ a b w w', (Tree.leaf a w).eqv (.leaf b w') = decide (a = b)) ∧
  (∀ l r l' r' w w', (Tree.inner l r w).eqv (.inner l' r' w') = (l.eqv l' && r.eqv r')) ∧
  (∀ t : Tree, t.eqv t = true) ∧
  (∀ t : Tree, (t.eqv .empty = true ↔ t = .empty) ∧ (Tree.empty.eqv t = true ↔ t = .empty)) ∧
  (∀ a w l r w', (Tree.leaf a w).eqv (.inner l r w') = false ∧ (Tree.inner l r w').eqv (.leaf a w) = false)

/-! ### The frequency counter (spec/42_frequency_counter.md) -/

/-- R162: after an `FC.COUNT` without fault every entry is the number of occurrences, the symbols that occur are those
with an entry, and the entries sum to `SRC_LEN`; and (R161) in a fault-free environment `FC.COUNT` completes, with
nothing but `FT` and `RES` written. -/
def Obligations.FcCountCountsOccurrences : Prop :=
  (∀ s t : State, s.err = none → exec .fcCount s = .next t → t.err = none →
    (∀ sym, (t.count sym).toNat = s.source.countP fun x => x.toNat = sym) ∧
    (∀ sym, 1 ≤ (t.count sym).toNat ↔ ∃ x ∈ s.source, x.toNat = sym) ∧
    (t.ft.map fun e => e.2.toNat).sum = s.src.len.toNat) ∧
  (∀ s : State, s.err = none → s.FaultFree →
    ∃ t, exec .fcCount s = .next t ∧ t.err = none ∧ t = { s with ft := t.ft, res := s.src.len })

/-- An access that fails in `FC.COUNT` (R161, R271, R273, R285; derived): a failed open leaves the table empty, a failed
read at index `i` leaves exactly the counts of the indices below `i`, and `RES` is not written. -/
def Obligations.FcCountStopsAtAFailedAccess : Prop :=
  ∀ (s : State) (i : Nat) (left : Symbol) (rest : List Answer), s.Idle →
    (s.env = .ioerr left :: rest →
      ∃ t, exec .fcCount s = .next t ∧ t = { s with err := some .sourceUnavailable, env := rest, ft := [] }) ∧
    (i < s.src.len.toNat → s.env = List.replicate (i + 1) .ok ++ .ioerr left :: rest →
      ∃ t, exec .fcCount s = .next t ∧
        t = { s with err := some .sourceCorrupt, env := rest, ft := t.ft } ∧
        ∀ sym, (t.count sym).toNat = (s.source.take i).countP fun x => x.toNat = sym)

/-! ### The tree builder (spec/43_huffman_tree_builder.md) -/

/-- R174 and R175: an empty table gives `NIL` and no record; one entry gives the one leaf and its id. -/
def Obligations.TbBuildOfEmptyAndSingleTables : Prop :=
  ∀ s : State, s.err = none →
    (s.ft = [] → exec .tbBuild s = .next { s with res := nilId }) ∧
    (∀ sym c, s.ft = [(sym, c)] → s.nodes.length < s.cfg.nodesMax.toNat →
      exec .tbBuild s =
        .next { s with nodes := s.nodes ++ [.leaf (BitVec.ofNat 16 sym) c], res := s.nodeCnt })

/-- R177 and R170: `pq_pop_min` removes and returns an id whose (weight, smallest symbol) no other id of the queue is
below; `pq_insert` adds one id; the queue is a multiset. -/
def Obligations.QueuePopsTheSmallestKey : Prop :=
  (∀ s : State, pqPopMin s [] = none) ∧
  (∀ (s : State) (n : NodeId) (q : List NodeId), ∃ a rest, pqPopMin s (n :: q) = some (a, rest)) ∧
  (∀ (s : State) (q rest : List NodeId) (a : NodeId), pqPopMin s q = some (a, rest) →
    List.Perm q (a :: rest) ∧
    ∀ b ∈ rest, ¬ ((s.tree b).weight.toNat < (s.tree a).weight.toNat ∨
      ((s.tree b).weight = (s.tree a).weight ∧ (s.tree b).minSym < (s.tree a).minSym))) ∧
  (∀ (n : NodeId) (q : List NodeId), List.Perm (pqInsert n q) (n :: q))

/-- R173: one pass of the merge loop pops A, then B, and puts back an internal node with A on the left, B on the right
and the exact sum as weight (derived). -/
def Obligations.MergePutsTheLightestLeft : Prop :=
  ∀ (s : State) (fuel : Nat) (q q1 q2 : List NodeId) (a b : NodeId),
    pqPopMin s q = some (a, q1) → pqPopMin s q1 = some (b, q2) →
    s.nodes.length < s.cfg.nodesMax.toNat →
    (s.tree a).weight.toNat + (s.tree b).weight.toNat < 2 ^ 32 →
    tbLoop (fuel + 1) q s =
      tbLoop fuel (pqInsert s.nodeCnt q2)
        { s with nodes := s.nodes ++ [.inner a b ((s.tree a).weight + (s.tree b).weight)] }

/-- R176 and R251: for a table with `k ≥ 1` entries whose counts sum within 32 bits, and room for `2k − 1` records,
`TB.BUILD` completes and returns the root of a Huffman tree with one leaf per entry carrying its symbol and count,
`2k − 1` new records, every internal weight the sum of its children's, and the root's weight the sum of all counts
(R176's optimality is not stated). Without that room, or with a larger sum, it raises `CapacityExceeded` at the first
record or sum that does not fit, and the records allocated before it stay: first the leaves, then merges (R171, R280).
Derived. -/
def Obligations.TbBuildMakesAHuffmanTree : Prop :=
  (∀ s : State, s.Inv → s.err = none → s.ft ≠ [] →
    s.cfg.nodesMax.toNat < s.nodes.length + (2 * s.ft.length - 1) ∨ 2 ^ 32 ≤ (s.ft.map fun e => e.2.toNat).sum →
    ∃ more : List Node,
      exec .tbBuild s = .next (State.raiseFault .capacityExceeded { s with nodes := s.nodes ++ more }) ∧
      more.length < 2 * s.ft.length - 1 ∧ s.nodes.length + more.length ≤ s.cfg.nodesMax.toNat ∧
      more.take s.ft.length = (s.ft.map fun e => Node.leaf (BitVec.ofNat 16 e.1) e.2).take more.length ∧
      (∀ nd ∈ more.drop s.ft.length, nd.isLeaf = false) ∧
      ((s.ft.map fun e => e.2.toNat).sum < 2 ^ 32 → s.nodes.length + more.length = s.cfg.nodesMax.toNat)) ∧
  ∀ s : State, s.Inv → s.err = none → s.ft ≠ [] →
    s.nodes.length + (2 * s.ft.length - 1) ≤ s.cfg.nodesMax.toNat →
    (s.ft.map fun e => e.2.toNat).sum < 2 ^ 32 →
    ∃ t, exec .tbBuild s = .next t ∧ t = { s with nodes := t.nodes, res := t.res } ∧
      t.res.toNat = s.nodes.length + (2 * s.ft.length - 2) ∧
      t.nodes.length = s.nodes.length + (2 * s.ft.length - 1) ∧
      (∃ more, t.nodes = s.nodes ++ more) ∧
      (t.tree t.res).IsHuffman ∧ (t.tree t.res).SumsWeights ∧
      List.Perm (t.tree t.res).weighted (s.ft.map fun e => (BitVec.ofNat 16 e.1, e.2)) ∧
      (t.tree t.res).size = 2 * s.ft.length - 1 ∧
      (t.tree t.res).weight.toNat = (s.ft.map fun e => e.2.toNat).sum

/-! ### The codebook (spec/44_codebook.md) -/

/-- R187 and R188: the single leaf gets the one-bit codeword `0`; the empty tree gives the empty codebook; old entries
are cleared. -/
def Obligations.CbDeriveOfEmptyTreeAndSingleLeaf : Prop :=
  ∀ s : State, s.err = none →
    (s.arg0 = nilId → exec .cbDerive s = .next { s with cb := [], res := 0#32 }) ∧
    (∀ sym w, s.node? s.arg0 = some (.leaf sym w) →
      exec .cbDerive s = .next { s with cb := [(sym.toNat, [false])], res := 1#32 })

/-- R189 and R186, on every tree with an internal root: the walk skips missing children, and a symbol on several leaves
keeps the path of the last one in left-to-right order; `RES` is the number of entries. -/
def Obligations.CbDeriveKeepsTheLastPath : Prop :=
  ∀ s : State, s.err = none → ∀ l r w, s.tree s.arg0 = .inner l r w →
    ∃ t, exec .cbDerive s = .next t ∧ t = { s with cb := t.cb, res := BitVec.ofNat 32 t.cb.length } ∧
      ∀ n, t.codeword n =
        (((s.tree s.arg0).paths.filter fun e => e.1.toNat = n).getLast?).map fun e => e.2

/-- R190: for a Huffman tree the keys of the codebook are the leaf symbols, every codeword is non-empty and no codeword
is a prefix of another; with an internal root each codeword is its leaf's path, so as long as the leaf is deep, and a
single leaf gets one bit. -/
def Obligations.CbDeriveOfAHuffmanTreeIsItsPaths : Prop :=
  ∀ s : State, s.err = none → (s.tree s.arg0).IsHuffman →
    ∃ t, exec .cbDerive s = .next t ∧
      t = { s with cb := t.cb, res := BitVec.ofNat 32 (s.tree s.arg0).leaves.length } ∧
      (∀ n, (t.codeword n).isSome = true ↔ ∃ sym ∈ (s.tree s.arg0).leaves, sym.toNat = n) ∧
      (∀ n, t.codeword n ≠ some []) ∧
      (∀ m n cm cn, m ≠ n → t.codeword m = some cm → t.codeword n = some cn → ¬ cm <+: cn) ∧
      ((∀ sym w, s.tree s.arg0 ≠ .leaf sym w) →
        ∀ (sym : Symbol) (code : Bits), t.codeword sym.toNat = some code ↔ (sym, code) ∈ (s.tree s.arg0).paths) ∧
      (∀ sym w, s.tree s.arg0 = .leaf sym w → t.codeword sym.toNat = some [false])

/-- R250, I1: for every Huffman tree no codeword is a prefix of another. -/
def Obligations.CodewordsArePrefixFree : Prop :=
  ∀ s t : State, s.err = none → (s.tree s.arg0).IsHuffman → exec .cbDerive s = .next t →
    ∀ m n cm cn, m ≠ n → t.codeword m = some cm → t.codeword n = some cn → ¬ cm <+: cn

/-! ### Bit I/O (spec/40_bit_io_unit.md) -/

/-- R121 with R120: `BW.OPEN` (derived). That the cells of `CMP` above those it writes read as before the open is the
model's choice, log entry 6. -/
def Obligations.BwOpenWritesThePlaceholders : Prop :=
  decode 0x00000040#32 = .instr .bwOpen ∧
  ∀ s : State, s.Inv → s.err = none →
    (s.bwOpen = true ∨ s.brOpen = true → exec .bwOpen s = .next (s.raiseFault .illegalCommand)) ∧
    (s.Idle → s.FaultFree →
      ∃ t, exec .bwOpen s = .next t ∧
        t = { s with cmp := t.cmp, cmpValid := false, bwBuf := 0#8, bwNbuf := 0#3, bwTotal := 0#32, bwOpen := true,
                     res := 0#32 } ∧
        t.cmp.len = 4#32 ∧ (∀ a, a < 4 → t.cmp.read 0#8 a = 0#8) ∧
        ∀ a, 4 ≤ a → t.cmp.read 0#8 a = s.cmp.read 0#8 a) ∧
    (∀ left rest, s.Idle → s.env = .ioerr left :: rest →
      exec .bwOpen s = .next { s with err := some .sinkUnavailable, env := rest }) ∧
    (∀ n left rest, s.Idle → n < 4 → s.env = List.replicate (n + 1) .ok ++ .ioerr left :: rest →
      ∃ t, exec .bwOpen s = .next t ∧
        t = { s with err := some .sinkCorrupt, env := rest, cmp := t.cmp, cmpValid := false, bwBuf := 0#8,
                     bwNbuf := 0#3, bwTotal := 0#32 } ∧
        t.cmp.len.toNat = n ∧ (∀ a, a < n → t.cmp.read 0#8 a = 0#8) ∧
        ∀ a, n < a → t.cmp.read 0#8 a = s.cmp.read 0#8 a)

/-- R123 with R122: `BW.WRITE b`. Seven bits stay in the buffer, the eighth appends a byte, at `CMP_LEN` and nowhere
else. The append at the largest `CMP_LEN` is in `QuietCloseFinalizesTheStream`. -/
def Obligations.BwWriteBuffersAndFlushes : Prop :=
  decode 0x00000042#32 = .instr (.bwWrite false) ∧ decode 0x00000043#32 = .instr (.bwWrite true) ∧
  (∀ (v : Byte) (i j : Nat) (b : Bool), i < 8 → j < 8 →
    (setBit v i b).getLsbD j = if j = i then b else v.getLsbD j) ∧
  ∀ (s : State) (b : Bool), s.Inv → s.err = none →
    (s.bwOpen = false → exec (.bwWrite b) s = .next (s.raiseFault .illegalCommand)) ∧
    (s.bwOpen = true → s.bwTotal = wordMax → exec (.bwWrite b) s = .next (s.raiseFault .capacityExceeded)) ∧
    (s.bwOpen = true → s.bwTotal ≠ wordMax → s.bwNbuf ≠ 7#3 →
      exec (.bwWrite b) s =
        .next { s with bwBuf := setBit s.bwBuf (7 - s.bwNbuf.toNat) b, bwNbuf := s.bwNbuf + 1#3,
                       bwTotal := s.bwTotal + 1#32, res := 0#32 }) ∧
    (s.bwOpen = true → s.bwTotal ≠ wordMax → s.bwNbuf = 7#3 → s.cmp.len ≠ wordMax → s.FaultFree →
      ∃ t, exec (.bwWrite b) s = .next t ∧
        t = { s with cmp := t.cmp, bwBuf := 0#8, bwNbuf := 0#3, bwTotal := s.bwTotal + 1#32, res := 0#32 } ∧
        t.cmp.len = s.cmp.len + 1#32 ∧ t.cmp.read 0#8 s.cmp.len.toNat = setBit s.bwBuf 0 b ∧
        ∀ a, a ≠ s.cmp.len.toNat → t.cmp.read 0#8 a = s.cmp.read 0#8 a) ∧
    (∀ left rest, s.bwOpen = true → s.bwTotal ≠ wordMax → s.bwNbuf = 7#3 → s.env = .ioerr left :: rest →
      ∃ u, exec (.bwWrite b) s = .next (State.raiseFault .sinkCorrupt u) ∧
        u = { s with env := rest, cmp := u.cmp, bwBuf := setBit s.bwBuf 0 b, bwTotal := s.bwTotal + 1#32 } ∧
        u.cmp.len = s.cmp.len ∧ ∀ a, a ≠ s.cmp.len.toNat → u.cmp.read 0#8 a = s.cmp.read 0#8 a)

/-- R125 with R124: `BW.CLOSE` in a fault-free environment flushes the partial byte at `CMP_LEN`, writes the count in
bytes 0 to 3 (appending those the host cut off) and changes no other byte of `CMP`; a failed write raises `SinkCorrupt`,
whichever it is, and the stream is not valid. The flush at the largest `CMP_LEN` is in `QuietCloseFinalizesTheStream`. -/
def Obligations.BwCloseFinalizesTheStream : Prop :=
  decode 0x00000041#32 = .instr .bwClose ∧
  ∀ s : State, s.Inv → s.err = none →
    (s.bwOpen = false → exec .bwClose s = .next (s.raiseFault .illegalCommand)) ∧
    (s.bwOpen = true → s.FaultFree → (s.bwNbuf = 0#3 ∨ s.cmp.len ≠ wordMax) →
      ∃ t, exec .bwClose s = .next t ∧
        t = { s with cmp := t.cmp, bwBuf := t.bwBuf, bwNbuf := 0#3, bwOpen := false, cmpValid := true,
                     res := s.bwTotal } ∧
        t.bwBuf = (if s.bwNbuf = 0#3 then s.bwBuf else 0#8) ∧
        t.cmp.len.toNat = max 4 (s.cmp.len.toNat + (if s.bwNbuf = 0#3 then 0 else 1)) ∧
        (∀ a, a < 4 → some (t.cmp.read 0#8 a) = (be32 s.bwTotal)[a]?) ∧
        (s.bwNbuf ≠ 0#3 → 4 ≤ s.cmp.len.toNat → t.cmp.read 0#8 s.cmp.len.toNat = s.bwBuf) ∧
        ∀ a, 4 ≤ a → (s.bwNbuf = 0#3 ∨ a ≠ s.cmp.len.toNat) → t.cmp.read 0#8 a = s.cmp.read 0#8 a) ∧
    (∀ n left rest, s.bwOpen = true → (s.bwNbuf = 0#3 ∨ s.cmp.len ≠ wordMax ∨ n = 0) →
      n < (if s.bwNbuf = 0#3 then 4 else 5) → s.env = List.replicate n .ok ++ .ioerr left :: rest →
      ∃ t, exec .bwClose s = .next t ∧ t.err = some .sinkCorrupt ∧ t.bwOpen = false ∧ t.cmpValid = false ∧
        t.res = s.res ∧ t.bwTotal = s.bwTotal)

/-- R127 with R126: `BR.OPEN`, on a `CMP` of four bytes or more, on a shorter one, and with a failing access. -/
def Obligations.BrOpenReadsThePrefix : Prop :=
  decode 0x00000044#32 = .instr .brOpen ∧
  ∀ s : State, s.err = none →
    (s.bwOpen = true ∨ s.brOpen = true → exec .brOpen s = .next (s.raiseFault .illegalCommand)) ∧
    (s.Idle → s.FaultFree → s.cmp.len.toNat < 4 →
      exec .brOpen s =
        .next { s with brOpen := true, brShort := true, brBuf := 0#8, brNbuf := 0#4, brRem := 0#32, brPtr := 0#32,
                       res := 0#32 }) ∧
    (s.Idle → s.FaultFree → 4 ≤ s.cmp.len.toNat →
      exec .brOpen s =
        .next { s with brOpen := true, brShort := false, brBuf := 0#8, brNbuf := 0#4,
                       brRem := BitVec.ofNat 32 s.cmp.announced, brPtr := 4#32,
                       res := BitVec.ofNat 32 s.cmp.announced } ∧ s.cmp.announced < 2 ^ 32) ∧
    (∀ left rest, s.Idle → s.env = .ioerr left :: rest →
      exec .brOpen s = .next { s with err := some .sourceUnavailable, env := rest }) ∧
    (∀ n left rest, s.Idle → n < 4 → 4 ≤ s.cmp.len.toNat →
      s.env = List.replicate (n + 1) .ok ++ .ioerr left :: rest →
      exec .brOpen s =
        .next { s with err := some .sourceCorrupt, env := rest, brShort := false, brBuf := 0#8, brNbuf := 0#4,
                       brRem := 0#32, brPtr := 0#32 })

/-- R129 with R128: `BR.READ`: at the end of the counted bits, at the end of a short `CMP`, from the buffer, from the
next byte, and with a failing read. -/
def Obligations.BrReadDeliversTheNextBit : Prop :=
  decode 0x00000045#32 = .instr .brRead ∧
  ∀ s : State, s.err = none →
    (s.brOpen = false → exec .brRead s = .next (s.raiseFault .illegalCommand)) ∧
    (s.brOpen = true → s.brRem = 0#32 → exec .brRead s = .next { s with res := eosWord }) ∧
    (s.brOpen = true → s.brRem ≠ 0#32 → s.brNbuf = 0#4 → s.cmp.len.toNat ≤ s.brPtr.toNat →
      exec .brRead s = .next { s with brShort := true, res := eosWord }) ∧
    (s.brOpen = true → s.brRem ≠ 0#32 → s.brNbuf ≠ 0#4 →
      exec .brRead s =
        .next { s with brBuf := s.brBuf <<< 1, brNbuf := s.brNbuf - 1#4, brRem := s.brRem - 1#32,
                       res := if s.brBuf.getLsbD 7 then 1#32 else 0#32 }) ∧
    (s.brOpen = true → s.brRem ≠ 0#32 → s.brNbuf = 0#4 → s.brPtr.toNat < s.cmp.len.toNat → s.FaultFree →
      exec .brRead s =
        .next { s with brBuf := (s.cmp.read 0#8 s.brPtr.toNat) <<< 1, brNbuf := 7#4, brPtr := s.brPtr + 1#32,
                       brRem := s.brRem - 1#32,
                       res := if (s.cmp.read 0#8 s.brPtr.toNat).getLsbD 7 then 1#32 else 0#32 }) ∧
    (∀ left rest, s.brOpen = true → s.brRem ≠ 0#32 → s.brNbuf = 0#4 → s.brPtr.toNat < s.cmp.len.toNat →
      s.env = .ioerr left :: rest →
      exec .brRead s = .next (State.raiseFault .sourceCorrupt { s with env := rest }))

/-- R130: `BR.CLOSE` clears `BR_OPEN` and nothing else. -/
def Obligations.BrCloseReleasesTheReader : Prop :=
  decode 0x00000046#32 = .instr .brClose ∧
  ∀ s : State, s.err = none →
    (s.brOpen = false → exec .brClose s = .next (s.raiseFault .illegalCommand)) ∧
    (s.brOpen = true → exec .brClose s = .next { s with brOpen := false, res := 0#32 })

/-- R98 with R124: an open, `n` bits and a close leave exactly the stream of those bits, marked valid, and `RES = n`
(derived). That bytes at or above the new length read as before the open is the model's choice, log entry 6. -/
def Obligations.ClosedWriterLeavesTheStream : Prop :=
  ∀ (s : State) (bits : Bits), s.Inv → s.Idle → s.FaultFree → bits.length < 2 ^ 32 →
    ∃ t, commands ([.bwOpen] ++ bits.map Instr.bwWrite ++ [.bwClose]) s = some t ∧ t.err = none ∧
      t.cmp.IsStream bits ∧ t.cmpValid = true ∧ t.bwOpen = false ∧ t.res = BitVec.ofNat 32 bits.length ∧
      ∀ a, t.cmp.len.toNat ≤ a → t.cmp.read 0#8 a = s.cmp.read 0#8 a

/-- R131: the bits written are read back in order, then `EOS` for ever, and `BR_SHORT` stays 0. -/
def Obligations.BitsReadBackInOrder : Prop :=
  ∀ (s : State) (bits : Bits) (k : Nat), s.Inv → s.Idle → s.FaultFree → bits.length < 2 ^ 32 →
    ∃ t, commands ([.bwOpen] ++ bits.map Instr.bwWrite ++ [.bwClose, .brOpen]) s = some t ∧ t.err = none ∧
      readResults (bits.length + k) t = some (bits.map boolWord ++ List.replicate k eosWord) ∧
      ∃ u, commands (List.replicate (bits.length + k) .brRead) t = some u ∧ u.brShort = false ∧ u.err = none

/-- R99: an arbitrary `CMP` delivers the first `min(n, avail)` payload bits, MSB first, then end of stream; it is
short when fewer than four bytes are there or fewer bits than announced, and `BR_SHORT` shows it once the end is
reached. -/
def Obligations.ReaderDeliversAnyStream : Prop :=
  ∀ (s : State) (k : Nat), s.Idle → s.FaultFree →
    ∃ t, exec .brOpen s = .next t ∧ t.err = none ∧
      readResults (s.cmp.delivered.length + k) t =
        some (s.cmp.delivered.map boolWord ++ List.replicate k eosWord) ∧
      ∃ u, commands (List.replicate (s.cmp.delivered.length + (k + 1)) .brRead) t = some u ∧
        u.brShort = s.cmp.short ∧ u.cmp = s.cmp

/-! ### The encoder (spec/45_huffman_encoder.md) -/

/-- R203 and R204: with every symbol of `SRC` in the codebook and at most `2^32 − 1` bits in all, `ENC.RUN` completes and
leaves the stream of the codewords in source order; `RES = BW_TOTAL` is their total length; nothing else changes
(derived). That bytes of `CMP` at or above the new length read as before is the model's choice, log entry 6. -/
def Obligations.EncRunWritesThePayload : Prop :=
  ∀ s : State, s.Inv → s.Idle → s.FaultFree →
    (∀ sym ∈ s.source, (s.codeword sym.toNat).isSome = true) → (s.payload s.source).length < 2 ^ 32 →
    ∃ t, exec .encRun s = .next t ∧ t.cmp.IsStream (s.payload s.source) ∧
      t.res = BitVec.ofNat 32 (s.payload s.source).length ∧
      t = { s with cmp := t.cmp, cmpValid := true, bwBuf := 0#8, bwNbuf := 0#3, bwTotal := t.res, res := t.res } ∧
      ∀ a, t.cmp.len.toNat ≤ a → t.cmp.read 0#8 a = s.cmp.read 0#8 a

/-- R201: with `SRC_LEN = 0` no bit is written, `CMP` is four zero bytes and valid, `RES` is 0; the codebook is not
consulted (derived). That bytes of `CMP` from 4 on read as before the open is the model's choice, log entry 6. -/
def Obligations.EncRunOfEmptyInput : Prop :=
  ∀ s : State, s.Inv → s.Idle → s.FaultFree → s.src.len = 0#32 →
    ∃ t, exec .encRun s = .next t ∧ t.res = 0#32 ∧ t.cmpValid = true ∧ t.cmp.len = 4#32 ∧
      t.cmp.contents 0#8 = [0#8, 0#8, 0#8, 0#8] ∧
      t = { s with cmp := t.cmp, cmpValid := true, bwBuf := 0#8, bwNbuf := 0#3, bwTotal := 0#32, res := 0#32 } ∧
      ∀ a, 4 ≤ a → t.cmp.read 0#8 a = s.cmp.read 0#8 a

/-- R202 and R277: at the first symbol without a codeword `ENC.RUN` raises `SymbolUnencodable`; `CMP`, closed quietly,
holds the whole codewords of the symbols before it and is not valid (derived). That bytes of `CMP` at or above the new
length read as before is the model's choice, log entry 6. -/
def Obligations.EncRunStopsAtAnUnencodableSymbol : Prop :=
  ∀ (s : State) (before after : List Symbol) (sym : Symbol), s.Inv → s.Idle → s.FaultFree →
    s.source = before ++ sym :: after → (∀ x ∈ before, (s.codeword x.toNat).isSome = true) →
    s.codeword sym.toNat = none → (s.payload before).length < 2 ^ 32 →
    ∃ t, exec .encRun s = .next t ∧ t.err = some .symbolUnencodable ∧ t.cmp.IsStream (s.payload before) ∧
      t.cmpValid = false ∧ t.bwTotal = BitVec.ofNat 32 (s.payload before).length ∧
      t = { s with err := t.err, cmp := t.cmp, cmpValid := false, bwBuf := 0#8, bwNbuf := 0#3, bwTotal := t.bwTotal } ∧
      ∀ a, t.cmp.len.toNat ≤ a → t.cmp.read 0#8 a = s.cmp.read 0#8 a

/-! ### The decoder (spec/46_huffman_decoder.md) -/

/-- R253 and R257: an emission returns the cursor to the root; a `DEC.RUN` without fault ends with the cursor at the
root and no short stream, the reader closed and `OUT_VALID` set, and otherwise the end of the stream raises
`StreamTruncated`. -/
def Obligations.DecoderCursorReturnsToTheRoot : Prop :=
  (∀ (b : Bool) (s t : State), decStep b s = .done () t → t.out ≠ s.out →
    (s.isLeaf s.decRoot = true → s.decCur = s.decRoot) → t.decCur = t.decRoot) ∧
  (∀ s t : State, s.err = none → exec .decRun s = .next t → t.err = none →
    t.decRoot = s.arg0 ∧ t.decCur = t.decRoot ∧ t.brShort = false ∧ t.brOpen = false ∧ t.outValid = true ∧
    t.res = t.out.len) ∧
  (∀ s : State, (s.brShort = true ∨ s.decCur ≠ s.decRoot) → decFinish s = .raised .streamTruncated s)

/-- R219 and R226, single leaf: every delivered bit, 0 or 1, emits the sole symbol (derived). That cells of `OUT` at or
above the new length read as before the open is the model's choice, log entry 6. -/
def Obligations.DecRunOfASingleLeaf : Prop :=
  ∀ (s : State) (sym : Symbol) (w : Word), s.Inv → s.Idle → s.FaultFree →
    s.node? s.arg0 = some (.leaf sym w) → s.cmp.short = false →
    ∃ t, exec .decRun s = .next t ∧ t.err = none ∧ t.outValid = true ∧
      t.out.contents 0#16 = List.replicate s.cmp.delivered.length sym ∧
      t.res = BitVec.ofNat 32 s.cmp.delivered.length ∧
      t = { s with out := t.out, brShort := false, brBuf := t.brBuf, brNbuf := t.brNbuf, brRem := 0#32, brPtr := t.brPtr,
                   decRoot := s.arg0, decCur := s.arg0, outValid := true, res := t.res } ∧
      ∀ a, t.out.len.toNat ≤ a → t.out.read 0#16 a = s.out.read 0#16 a

/-- R220 and R221: with the empty tree an end of stream at once is success, unless the stream is short, which raises
`StreamTruncated`, and any bit raises `StreamUnexpectedBit` (derived). That no cell of `OUT` changes when its open sets
`OUT_LEN` to 0 is the model's choice, log entry 6. -/
def Obligations.DecRunOfTheEmptyTree : Prop :=
  ∀ s : State, s.Idle → s.FaultFree → s.arg0 = nilId →
    (s.cmp.delivered = [] → s.cmp.short = false →
      ∃ t, exec .decRun s = .next t ∧ t.err = none ∧ t.res = 0#32 ∧ t.out.len = 0#32 ∧ t.outValid = true ∧
        t = { s with out := t.out, brShort := false, brBuf := t.brBuf, brNbuf := t.brNbuf, brRem := 0#32, brPtr := t.brPtr,
                     decRoot := s.arg0, decCur := s.arg0, outValid := true, res := t.res } ∧
        ∀ a, t.out.read 0#16 a = s.out.read 0#16 a) ∧
    (s.cmp.delivered = [] → s.cmp.short = true →
      ∃ t, exec .decRun s = .next t ∧ t.out.len = 0#32 ∧
        t = { s with err := some .streamTruncated, out := t.out, brShort := true, brBuf := t.brBuf, brNbuf := t.brNbuf,
                     brRem := t.brRem, brPtr := t.brPtr, decRoot := s.arg0, decCur := s.arg0, outValid := false } ∧
        ∀ a, t.out.read 0#16 a = s.out.read 0#16 a) ∧
    (s.cmp.delivered ≠ [] →
      ∃ t, exec .decRun s = .next t ∧ t.out.len = 0#32 ∧
        t = { s with err := some .streamUnexpectedBit, out := t.out, brShort := false, brBuf := t.brBuf,
                     brNbuf := t.brNbuf, brRem := t.brRem, brPtr := t.brPtr, decRoot := s.arg0, decCur := s.arg0,
                     outValid := false } ∧
        ∀ a, t.out.read 0#16 a = s.out.read 0#16 a)

/-- R226, two or more leaves: `DEC.RUN` completes exactly on a stream that is not short and whose bits are paths of
leaves one after another, and `OUT` is then the symbols of those leaves. R222 and R276: bits that go on to a missing child
raise `StreamUnexpectedBit`, short or not, with `DEC_CUR` the node whose child is missing and `OUT` the symbols of the
paths before. Derived. That cells of `OUT` at or above the new length read as before is the model's choice, log entry 6. -/
def Obligations.DecRunDecodesPaths : Prop :=
  ∀ (s : State) (l r : Tree) (w : Word), s.Inv → s.Idle → s.FaultFree → s.tree s.arg0 = .inner l r w →
    (∀ ys : List (Symbol × Bits), (∀ y ∈ ys, y ∈ (s.tree s.arg0).paths) →
      s.cmp.delivered = ys.flatMap (fun y => y.2) → s.cmp.short = false →
      ∃ t, exec .decRun s = .next t ∧ t.err = none ∧ t.outValid = true ∧
        t.out.contents 0#16 = ys.map (fun y => y.1) ∧ t.res = BitVec.ofNat 32 ys.length ∧
        t = { s with out := t.out, brShort := false, brBuf := t.brBuf, brNbuf := t.brNbuf, brRem := 0#32, brPtr := t.brPtr,
                     decRoot := s.arg0, decCur := s.arg0, outValid := true, res := t.res } ∧
        ∀ a, t.out.len.toNat ≤ a → t.out.read 0#16 a = s.out.read 0#16 a) ∧
    (∀ (ys : List (Symbol × Bits)) (gap rest : Bits), (∀ y ∈ ys, y ∈ (s.tree s.arg0).paths) →
      gap ∈ (s.tree s.arg0).gaps → s.cmp.delivered = ys.flatMap (fun y => y.2) ++ gap ++ rest →
      ∃ t, exec .decRun s = .next t ∧ t.out.contents 0#16 = ys.map (fun y => y.1) ∧
        t = { s with err := some .streamUnexpectedBit, out := t.out, brShort := false, brBuf := t.brBuf,
                     brNbuf := t.brNbuf, brRem := t.brRem, brPtr := t.brPtr, decRoot := s.arg0,
                     decCur := s.follow s.arg0 gap.dropLast, outValid := false } ∧
        ∀ a, t.out.len.toNat ≤ a → t.out.read 0#16 a = s.out.read 0#16 a) ∧
    (∀ t, exec .decRun s = .next t → t.err = none →
      s.cmp.short = false ∧
      ∃ ys : List (Symbol × Bits), (∀ y ∈ ys, y ∈ (s.tree s.arg0).paths) ∧
        s.cmp.delivered = ys.flatMap (fun y => y.2) ∧ t.out.contents 0#16 = ys.map (fun y => y.1))

/-- R221 and R275 on a well-formed tree: a short stream always ends in `StreamTruncated`, at a codeword boundary and for a
single leaf too (HE's tamper scenario), and so does one that ends inside a codeword of a tree with an internal root.
`OUT_VALID` is 0, `RES` is not written, `BR_SHORT` tells a short stream; with an internal root `OUT` is the symbols of the
whole codewords, `DEC_CUR` where the bits after them lead, and `BR_REM` the announced bits not delivered (derived). That
cells of `OUT` at or above the new length read as before is the model's choice, log entry 6. -/
def Obligations.DecRunReportsTruncation : Prop :=
  ∀ s : State, s.Inv → s.Idle → s.FaultFree → (s.tree s.arg0).wf = true →
    (s.cmp.short = true →
      ∃ t, exec .decRun s = .next t ∧
        t = { s with err := some .streamTruncated, out := t.out, brShort := true, brBuf := t.brBuf, brNbuf := t.brNbuf,
                     brRem := t.brRem, brPtr := t.brPtr, decRoot := s.arg0, decCur := t.decCur, outValid := false } ∧
        ∀ a, t.out.len.toNat ≤ a → t.out.read 0#16 a = s.out.read 0#16 a) ∧
    (∀ l r w, s.tree s.arg0 = .inner l r w →
      (s.cmp.short = true ∨ ¬ ∃ ys : List (Symbol × Bits), (∀ y ∈ ys, y ∈ (s.tree s.arg0).paths) ∧
        s.cmp.delivered = ys.flatMap fun y => y.2) →
      ∃ t, exec .decRun s = .next t ∧
        (∃ (ys : List (Symbol × Bits)) (tail : Bits), (∀ y ∈ ys, y ∈ (s.tree s.arg0).paths) ∧
          s.cmp.delivered = ys.flatMap (fun y => y.2) ++ tail ∧
          (∃ y ∈ (s.tree s.arg0).paths, tail <+: y.2 ∧ tail ≠ y.2) ∧
          t.out.contents 0#16 = ys.map (fun y => y.1) ∧ t.decCur = s.follow s.arg0 tail) ∧
        (s.cmp.short = false → t.decCur ≠ s.arg0) ∧
        (4 ≤ s.cmp.len.toNat → t.brRem.toNat = s.cmp.announced - s.cmp.delivered.length) ∧
        t = { s with err := some .streamTruncated, out := t.out, brShort := s.cmp.short, brBuf := t.brBuf,
                     brNbuf := t.brNbuf, brRem := t.brRem, brPtr := t.brPtr, decRoot := s.arg0, decCur := t.decCur,
                     outValid := false } ∧
        ∀ a, t.out.len.toNat ≤ a → t.out.read 0#16 a = s.out.read 0#16 a)

/-! ### Whole sessions (spec/47_session_and_system.md, spec/48_properties.md) -/

/-- R237: `SES.RUN` is the sequence `SYS.CLEAR ; FC.COUNT ; r = TB.BUILD ; CB.DERIVE r ; ENC.RUN ; DEC.RUN r`, in every
environment, but for `RES` and the host's write of `ARG0`; without fault `RES` is the root passed on (derived). -/
def Obligations.SesRunIsTheStageSequence : Prop :=
  ∀ s : State, s.Idle →
    ∃ t u, exec .sesRun s = .next t ∧ stageByStage s = some u ∧
      u = { t with arg0 := u.arg0, res := u.res } ∧ (t.err = none → t.res = u.arg0)

/-- R255, L1: in a fault-free environment, and unless `CapacityExceeded` is raised, a session on any `SRC` reproduces it
symbol for symbol, both outputs valid, by `SES.RUN` and by the stages one after another; and no fault at all arises
when `SRC_LEN · NSYM` bits are within the counter's range. -/
def Obligations.SessionRoundTrip : Prop :=
  ∀ s : State, s.Inv → s.Idle → s.FaultFree →
    (∃ t, exec .sesRun s = .next t ∧
      (t.err ≠ some .capacityExceeded →
        t.err = none ∧ t.out.len = s.src.len ∧ t.cmpValid = true ∧ t.outValid = true ∧
        ∀ i, i < s.src.len.toNat → t.out.read 0#16 i = s.src.read 0#16 i) ∧
      (s.src.len.toNat * s.cfg.nsym < 2 ^ 32 → t.err = none)) ∧
    (∃ u, stageByStage s = some u ∧
      (u.err ≠ some .capacityExceeded →
        u.err = none ∧ u.out.len = s.src.len ∧ u.cmpValid = true ∧ u.outValid = true ∧
        ∀ i, i < s.src.len.toNat → u.out.read 0#16 i = s.src.read 0#16 i))

/-- R252, I3: the codebook derived from the tree built from a table covers exactly the symbols of the table, for an
empty table and a single entry too. -/
def Obligations.CodebookCoversTheTable : Prop :=
  ∀ s t u : State, s.Inv → s.err = none → exec .tbBuild s = .next t → t.err = none →
    exec .cbDerive t.passResult = .next u →
    u.err = none ∧ ∀ n, (u.codeword n).isSome = true ↔ u.count n ≠ 0#32

/-- R254, I5, without its optimality: for two or more entries the counts times the codeword lengths sum to the weights
of the internal nodes; for one entry to its count (derived). -/
def Obligations.CodewordLengthsSumToTheInnerWeights : Prop :=
  ∀ s t u : State, s.Inv → s.err = none → exec .tbBuild s = .next t → t.err = none →
    exec .cbDerive t.passResult = .next u →
    (2 ≤ u.ft.length →
      (u.ft.map fun e => e.2.toNat * ((u.codeword e.1).getD []).length).sum = (u.tree u.arg0).innerWeights) ∧
    (u.ft.length = 1 →
      (u.ft.map fun e => e.2.toNat * ((u.codeword e.1).getD []).length).sum = (u.ft.map fun e => e.2.toNat).sum)
end

