-- ==== Sys2Proof/Laws/Memory.lean ====
section
/-! SUPPORT. The laws of the canonical memories and tables: read after write, the canonical form is kept, which entries
a write can leave, and equal reads make equal memories. -/

namespace Sys2Proof.Machine

/-! ### Rising addresses -/

@[simp] theorem Memory.rising_nil {α : Type} (lo : Nat) : Memory.rising lo ([] : List (Nat × α)) = true := rfl

@[simp] theorem Memory.rising_cons {α : Type} (lo : Nat) (e : Nat × α) (m : List (Nat × α)) :
    Memory.rising lo (e :: m) = true ↔ lo ≤ e.1 ∧ Memory.rising (e.1 + 1) m = true := by
  simp [Memory.rising]

theorem Memory.rising_mono {α : Type} {lo lo' : Nat} {m : List (Nat × α)} (h : Memory.rising lo' m = true)
    (hle : lo ≤ lo') : Memory.rising lo m = true := by
  cases m with
  | nil => rfl
  | cons e m => simp only [Memory.rising_cons] at h ⊢; exact ⟨by omega, h.2⟩

theorem Memory.le_of_rising {α : Type} {lo : Nat} {m : List (Nat × α)} (h : Memory.rising lo m = true) :
    ∀ e ∈ m, lo ≤ e.1 := by
  induction m generalizing lo with
  | nil => simp
  | cons e m ih =>
    simp only [Memory.rising_cons] at h
    intro x hx
    rcases List.mem_cons.mp hx with rfl | hx
    · exact h.1
    · have := ih h.2 x hx; omega

/-! ### Reading -/

@[simp] theorem Memory.get?_nil {α : Type} (a : Nat) : Memory.get? ([] : List (Nat × α)) a = none := rfl

theorem Memory.get?_cons {α : Type} (e : Nat × α) (m : List (Nat × α)) (a : Nat) :
    Memory.get? (e :: m) a = if e.1 = a then some e.2 else Memory.get? m a := rfl

theorem Memory.get?_eq_none_of_lt {α : Type} {lo a : Nat} {m : List (Nat × α)} (h : Memory.rising lo m = true)
    (ha : a < lo) : Memory.get? m a = none := by
  induction m generalizing lo with
  | nil => rfl
  | cons e m ih =>
    simp only [Memory.rising_cons] at h
    rw [Memory.get?_cons, if_neg (by omega)]
    exact ih h.2 (by omega)

theorem Memory.mem_of_get? {α : Type} {m : List (Nat × α)} {a : Nat} {v : α} (h : Memory.get? m a = some v) :
    (a, v) ∈ m := by
  induction m with
  | nil => simp at h
  | cons e m ih =>
    rw [Memory.get?_cons] at h
    split at h
    · next hk => cases h; cases e; simp_all
    · exact List.mem_cons_of_mem _ (ih h)

theorem Memory.get?_of_mem {α : Type} {lo : Nat} {m : List (Nat × α)} {a : Nat} {v : α}
    (h : Memory.rising lo m = true) (hm : (a, v) ∈ m) : Memory.get? m a = some v := by
  induction m generalizing lo with
  | nil => simp at hm
  | cons e m ih =>
    simp only [Memory.rising_cons] at h
    rw [Memory.get?_cons]
    rcases List.mem_cons.mp hm with rfl | hm
    · simp
    · have := Memory.le_of_rising h.2 _ hm
      rw [if_neg (by simp only at this; omega)]
      exact ih h.2 hm

/-! ### Writing: read after write -/

theorem Memory.get?_insert {α : Type} {lo : Nat} {m : List (Nat × α)} (h : Memory.rising lo m = true) (a b : Nat)
    (v : α) : Memory.get? (Memory.insert a v m) b = if a = b then some v else Memory.get? m b := by
  induction m generalizing lo with
  | nil => rfl
  | cons e m ih =>
    obtain ⟨k, w⟩ := e
    simp only [Memory.rising_cons] at h
    simp only [Memory.insert]
    split
    · next hlt => rfl
    · split
      · next hlt heq =>
        subst heq
        simp only [Memory.get?_cons]
        split <;> simp_all
      · next hlt hne =>
        rw [Memory.get?_cons, Memory.get?_cons, ih h.2]
        by_cases hk : k = b
        · subst hk; simp [hne]
        · simp [hk]

theorem Memory.get?_erase {α : Type} {lo : Nat} {m : List (Nat × α)} (h : Memory.rising lo m = true) (a b : Nat) :
    Memory.get? (Memory.erase a m) b = if a = b then none else Memory.get? m b := by
  induction m generalizing lo with
  | nil => simp [Memory.erase]
  | cons e m ih =>
    obtain ⟨k, w⟩ := e
    simp only [Memory.rising_cons] at h
    simp only [Memory.erase]
    split
    · next heq =>
      subst heq
      rw [Memory.get?_cons]
      by_cases hab : a = b
      · subst hab; simp [Memory.get?_eq_none_of_lt h.2]
      · simp [hab]
    · next hne =>
      rw [Memory.get?_cons, Memory.get?_cons, ih h.2]
      by_cases hk : k = b
      · subst hk; simp [hne]
      · simp [hk]

/-- The basic law of a memory: a read after a write at the same address gives the value written, every other address
reads as before. -/
theorem Memory.get_set {α : Type} [DecidableEq α] {d : α} {m : List (Nat × α)} (h : Memory.wf d m = true) (a b : Nat)
    (v : α) : Memory.get d (Memory.set d m a v) b = if a = b then v else Memory.get d m b := by
  have hr : Memory.rising 0 m = true := by simp [Memory.wf] at h; exact h.1
  unfold Memory.set Memory.get
  by_cases hv : v = d
  · rw [if_pos hv, Memory.get?_erase hr]; split <;> simp_all
  · rw [if_neg hv, Memory.get?_insert hr]; split <;> simp_all

/-! ### Writing: the entries a write can leave, and the canonical form -/

theorem Memory.mem_insert {α : Type} {a : Nat} {v : α} {m : List (Nat × α)} {e : Nat × α}
    (h : e ∈ Memory.insert a v m) : e = (a, v) ∨ e ∈ m := by
  induction m with
  | nil => simpa [Memory.insert] using h
  | cons x m ih =>
    obtain ⟨k, w⟩ := x
    simp only [Memory.insert] at h
    split at h
    · simpa using h
    · split at h
      · rcases List.mem_cons.mp h with h | h
        · exact .inl h
        · exact .inr (List.mem_cons_of_mem _ h)
      · rcases List.mem_cons.mp h with h | h
        · exact .inr (by simp [h])
        · exact (ih h).imp_right (List.mem_cons_of_mem _)

theorem Memory.mem_erase {α : Type} {a : Nat} {m : List (Nat × α)} {e : Nat × α} (h : e ∈ Memory.erase a m) :
    e ∈ m := by
  induction m with
  | nil => simp [Memory.erase] at h
  | cons x m ih =>
    obtain ⟨k, w⟩ := x
    simp only [Memory.erase] at h
    split at h
    · exact List.mem_cons_of_mem _ h
    · rcases List.mem_cons.mp h with h | h
      · simp [h]
      · exact List.mem_cons_of_mem _ (ih h)

/-- An entry after a write is the one written or an old one. -/
theorem Memory.mem_set {α : Type} [DecidableEq α] {d : α} {a : Nat} {v : α} {m : List (Nat × α)} {e : Nat × α}
    (h : e ∈ Memory.set d m a v) : (e = (a, v) ∧ v ≠ d) ∨ e ∈ m := by
  unfold Memory.set at h
  split at h
  · exact .inr (Memory.mem_erase h)
  · next hv => exact (Memory.mem_insert h).imp_left fun he => ⟨he, hv⟩

theorem Memory.rising_insert {α : Type} {lo a : Nat} {v : α} {m : List (Nat × α)} (h : Memory.rising lo m = true)
    (ha : lo ≤ a) : Memory.rising lo (Memory.insert a v m) = true := by
  induction m generalizing lo with
  | nil => simp [Memory.insert, ha]
  | cons x m ih =>
    obtain ⟨k, w⟩ := x
    simp only [Memory.rising_cons] at h
    simp only [Memory.insert]
    split
    · next hlt => simp only [Memory.rising_cons]; exact ⟨ha, by omega, h.2⟩
    · split
      · next heq => subst heq; simp only [Memory.rising_cons]; exact h
      · next hlt hne => simp only [Memory.rising_cons]; exact ⟨h.1, ih h.2 (by omega)⟩

theorem Memory.rising_erase {α : Type} {lo a : Nat} {m : List (Nat × α)} (h : Memory.rising lo m = true) :
    Memory.rising lo (Memory.erase a m) = true := by
  induction m generalizing lo with
  | nil => rfl
  | cons x m ih =>
    obtain ⟨k, w⟩ := x
    simp only [Memory.rising_cons] at h
    simp only [Memory.erase]
    split
    · exact Memory.rising_mono h.2 (by omega)
    · simp only [Memory.rising_cons]; exact ⟨h.1, ih h.2⟩

theorem Memory.wf_iff {α : Type} [DecidableEq α] {d : α} {m : List (Nat × α)} :
    Memory.wf d m = true ↔ Memory.rising 0 m = true ∧ ∀ e ∈ m, e.2 ≠ d := by
  simp [Memory.wf]

@[simp] theorem Memory.wf_nil {α : Type} [DecidableEq α] (d : α) : Memory.wf d [] = true := rfl

theorem Memory.wf_set {α : Type} [DecidableEq α] {d : α} {m : List (Nat × α)} (h : Memory.wf d m = true) (a : Nat)
    (v : α) : Memory.wf d (Memory.set d m a v) = true := by
  rw [Memory.wf_iff] at h ⊢
  refine ⟨?_, fun e he => ?_⟩
  · unfold Memory.set
    split
    · exact Memory.rising_erase h.1
    · exact Memory.rising_insert h.1 (Nat.zero_le a)
  · rcases Memory.mem_set he with ⟨rfl, hv⟩ | he
    · exact hv
    · exact h.2 e he

theorem Memory.wf_ofWrites {α : Type} [DecidableEq α] (d : α) (ws : List (Word × α)) :
    Memory.wf d (Memory.ofWrites d ws) = true := by
  induction ws with
  | nil => rfl
  | cons w ws ih => exact Memory.wf_set ih _ _

theorem Memory.mem_ofWrites {α : Type} [DecidableEq α] {d : α} {ws : List (Word × α)} {e : Nat × α}
    (h : e ∈ Memory.ofWrites d ws) : e.1 < 2 ^ 32 ∧ ∃ w ∈ ws, w.2 = e.2 := by
  induction ws with
  | nil => simp [Memory.ofWrites] at h
  | cons w ws ih =>
    rcases Memory.mem_set h with ⟨rfl, -⟩ | h
    · exact ⟨w.1.isLt, w, by simp, rfl⟩
    · obtain ⟨h1, x, hx, h2⟩ := ih h
      exact ⟨h1, x, List.mem_cons_of_mem _ hx, h2⟩

/-- Equal reads make equal tables: the canonical form has one list per contents. -/
theorem Memory.ext_get? {α : Type} {lo : Nat} {m n : List (Nat × α)} (hm : Memory.rising lo m = true)
    (hn : Memory.rising lo n = true) (h : ∀ a, Memory.get? m a = Memory.get? n a) : m = n := by
  induction m generalizing lo n with
  | nil =>
    cases n with
    | nil => rfl
    | cons e n => have := h e.1; simp [Memory.get?_cons] at this
  | cons e m ih =>
    obtain ⟨k, v⟩ := e
    cases n with
    | nil => have := h k; simp [Memory.get?_cons] at this
    | cons f n =>
      obtain ⟨k', v'⟩ := f
      simp only [Memory.rising_cons] at hm hn
      have hk : k = k' := by
        rcases Nat.lt_trichotomy k k' with hlt | heq | hgt
        · have := h k
          rw [Memory.get?_cons, if_pos rfl, Memory.get?_cons, if_neg (by omega),
            Memory.get?_eq_none_of_lt hn.2 (by omega)] at this
          cases this
        · exact heq
        · have := h k'
          rw [Memory.get?_cons, if_neg (by omega), Memory.get?_eq_none_of_lt hm.2 (by omega),
            Memory.get?_cons, if_pos rfl] at this
          cases this
      subst hk
      have hv : v = v' := by have := h k; simpa [Memory.get?_cons] using this
      subst hv
      congr 1
      refine ih hm.2 hn.2 fun a => ?_
      have ha := h a
      simp only [Memory.get?_cons] at ha
      by_cases hka : k = a
      · subst hka
        rw [Memory.get?_eq_none_of_lt hm.2 (by omega), Memory.get?_eq_none_of_lt hn.2 (by omega)]
      · simpa [hka] using ha

/-! ### External memories -/

@[simp] theorem Space.blank_cells (α : Type) : (Space.blank α).cells = [] := rfl

@[simp] theorem Space.blank_len (α : Type) : (Space.blank α).len = 0#32 := rfl

@[simp] theorem Space.store_len {α : Type} [DecidableEq α] (d : α) (sp : Space α) (a : Nat) (v : α) :
    (sp.store d a v).len = sp.len := rfl

@[simp] theorem Space.put_cells {α : Type} [DecidableEq α] (d : α) (sp : Space α) (a : Nat) (v : α) :
    (sp.put d a v).cells = (sp.store d a v).cells := rfl

/-- A write at the length appends, a write below overwrites (R61). -/
theorem Space.put_len {α : Type} [DecidableEq α] (d : α) (sp : Space α) (a : Nat) (v : α) :
    (sp.put d a v).len = if a = sp.len.toNat then sp.len + 1#32 else sp.len := rfl

theorem Space.read_store {α : Type} [DecidableEq α] {d : α} {sp : Space α} (h : Memory.wf d sp.cells = true)
    (a b : Nat) (v : α) : (sp.store d a v).read d b = if a = b then v else sp.read d b :=
  Memory.get_set h a b v

theorem Space.read_put {α : Type} [DecidableEq α] {d : α} {sp : Space α} (h : Memory.wf d sp.cells = true)
    (a b : Nat) (v : α) : (sp.put d a v).read d b = if a = b then v else sp.read d b :=
  Memory.get_set h a b v

/-- Setting a length changes no cell. -/
@[simp] theorem Space.read_setLen {α : Type} (d : α) (sp : Space α) (n : Word) (a : Nat) :
    Space.read d { sp with len := n } a = sp.read d a := rfl

theorem ByteSpaceOk.setLen {sp : Space Byte} (h : ByteSpaceOk sp) (n : Word) : ByteSpaceOk { sp with len := n } :=
  ⟨h.canonical, h.addresses⟩

theorem SymSpaceOk.setLen {c : Config} {sp : Space Symbol} (h : SymSpaceOk c sp) (n : Word) :
    SymSpaceOk c { sp with len := n } :=
  ⟨h.canonical, h.addresses, h.symbols⟩

theorem ByteSpaceOk.store {sp : Space Byte} (h : ByteSpaceOk sp) {a : Nat} (ha : a < 2 ^ 32) (v : Byte) :
    ByteSpaceOk (sp.store 0#8 a v) where
  canonical := Memory.wf_set h.canonical a v
  addresses e he := by
    rcases Memory.mem_set he with ⟨rfl, -⟩ | he
    · exact ha
    · exact h.addresses e he

theorem SymSpaceOk.store {c : Config} {sp : Space Symbol} (h : SymSpaceOk c sp) {a : Nat} (ha : a < 2 ^ 32)
    {v : Symbol} (hv : v.toNat < c.nsym) : SymSpaceOk c (sp.store 0#16 a v) where
  canonical := Memory.wf_set h.canonical a v
  addresses e he := by
    rcases Memory.mem_set he with ⟨rfl, -⟩ | he
    · exact ha
    · exact h.addresses e he
  symbols e he := by
    rcases Memory.mem_set he with ⟨rfl, -⟩ | he
    · exact hv
    · exact h.symbols e he

theorem ByteSpaceOk.put {sp : Space Byte} (h : ByteSpaceOk sp) {a : Nat} (ha : a < 2 ^ 32) (v : Byte) :
    ByteSpaceOk (sp.put 0#8 a v) :=
  (h.store ha v).setLen _

theorem SymSpaceOk.put {c : Config} {sp : Space Symbol} (h : SymSpaceOk c sp) {a : Nat} (ha : a < 2 ^ 32)
    {v : Symbol} (hv : v.toNat < c.nsym) : SymSpaceOk c (sp.put 0#16 a v) :=
  (h.store ha hv).setLen _

/-- The memories of the reset state are canonical. -/
theorem State.reset_memories_canonical : Memory.wf 0#16 State.reset.src.cells = true ∧
    Memory.wf 0#8 State.reset.cmp.cells = true ∧ Memory.wf 0#16 State.reset.out.cells = true :=
  ⟨rfl, rfl, rfl⟩

/-- A cell of `SYM_W` bits (R6). -/
theorem symCell_toNat (c : Config) (v : Symbol) : (symCell c v).toNat = v.toNat % c.nsym := by
  have hv := v.isLt
  have : v.toNat % c.nsym ≤ v.toNat := Nat.mod_le _ _
  simp only [symCell, BitVec.toNat_ofNat]
  exact Nat.mod_eq_of_lt (by omega)

theorem symCell_lt (c : Config) (v : Symbol) : (symCell c v).toNat < c.nsym := by
  rw [symCell_toNat]
  exact Nat.mod_lt _ (Nat.pow_pos (by decide))

end Sys2Proof.Machine
end

