-- ==== Sys2Proof/Laws/State.lean ====
section
/-! SUPPORT. One lemma per field per named update of the state, all true by `rfl`, so that no proof unfolds an update. -/

namespace Sys2Proof.Machine

/-! ### `State.resetOf` (R44) -/

@[simp] theorem State.resetOf_cfg (c : Config) : (State.resetOf c).cfg = c := rfl
@[simp] theorem State.resetOf_arg0 (c : Config) : (State.resetOf c).arg0 = 0#32 := rfl
@[simp] theorem State.resetOf_arg1 (c : Config) : (State.resetOf c).arg1 = 0#32 := rfl
@[simp] theorem State.resetOf_arg2 (c : Config) : (State.resetOf c).arg2 = 0#32 := rfl
@[simp] theorem State.resetOf_res (c : Config) : (State.resetOf c).res = 0#32 := rfl
@[simp] theorem State.resetOf_err (c : Config) : (State.resetOf c).err = none := rfl
@[simp] theorem State.resetOf_ft (c : Config) : (State.resetOf c).ft = [] := rfl
@[simp] theorem State.resetOf_nodes (c : Config) : (State.resetOf c).nodes = [] := rfl
@[simp] theorem State.resetOf_cb (c : Config) : (State.resetOf c).cb = [] := rfl
@[simp] theorem State.resetOf_bwOpen (c : Config) : (State.resetOf c).bwOpen = false := rfl
@[simp] theorem State.resetOf_bwBuf (c : Config) : (State.resetOf c).bwBuf = 0#8 := rfl
@[simp] theorem State.resetOf_bwNbuf (c : Config) : (State.resetOf c).bwNbuf = 0#3 := rfl
@[simp] theorem State.resetOf_bwTotal (c : Config) : (State.resetOf c).bwTotal = 0#32 := rfl
@[simp] theorem State.resetOf_brOpen (c : Config) : (State.resetOf c).brOpen = false := rfl
@[simp] theorem State.resetOf_brRem (c : Config) : (State.resetOf c).brRem = 0#32 := rfl
@[simp] theorem State.resetOf_brPtr (c : Config) : (State.resetOf c).brPtr = 0#32 := rfl
@[simp] theorem State.resetOf_brBuf (c : Config) : (State.resetOf c).brBuf = 0#8 := rfl
@[simp] theorem State.resetOf_brNbuf (c : Config) : (State.resetOf c).brNbuf = 0#4 := rfl
@[simp] theorem State.resetOf_brShort (c : Config) : (State.resetOf c).brShort = false := rfl
@[simp] theorem State.resetOf_decRoot (c : Config) : (State.resetOf c).decRoot = nilId := rfl
@[simp] theorem State.resetOf_decCur (c : Config) : (State.resetOf c).decCur = nilId := rfl
@[simp] theorem State.resetOf_cmpValid (c : Config) : (State.resetOf c).cmpValid = false := rfl
@[simp] theorem State.resetOf_outValid (c : Config) : (State.resetOf c).outValid = false := rfl
@[simp] theorem State.resetOf_src (c : Config) : (State.resetOf c).src = Space.blank Symbol := rfl
@[simp] theorem State.resetOf_cmp (c : Config) : (State.resetOf c).cmp = Space.blank Byte := rfl
@[simp] theorem State.resetOf_out (c : Config) : (State.resetOf c).out = Space.blank Symbol := rfl
@[simp] theorem State.resetOf_env (c : Config) : (State.resetOf c).env = [] := rfl
@[simp] theorem State.resetOf_host (c : Config) : (State.resetOf c).host = [] := rfl

/-! ### `State.clearSession` (R44, R236) -/

@[simp] theorem State.clearSession_cfg (s : State) : (s.clearSession).cfg = s.cfg := rfl
@[simp] theorem State.clearSession_arg0 (s : State) : (s.clearSession).arg0 = s.arg0 := rfl
@[simp] theorem State.clearSession_arg1 (s : State) : (s.clearSession).arg1 = s.arg1 := rfl
@[simp] theorem State.clearSession_arg2 (s : State) : (s.clearSession).arg2 = s.arg2 := rfl
@[simp] theorem State.clearSession_res (s : State) : (s.clearSession).res = 0#32 := rfl
@[simp] theorem State.clearSession_err (s : State) : (s.clearSession).err = none := rfl
@[simp] theorem State.clearSession_ft (s : State) : (s.clearSession).ft = [] := rfl
@[simp] theorem State.clearSession_nodes (s : State) : (s.clearSession).nodes = [] := rfl
@[simp] theorem State.clearSession_cb (s : State) : (s.clearSession).cb = [] := rfl
@[simp] theorem State.clearSession_bwOpen (s : State) : (s.clearSession).bwOpen = false := rfl
@[simp] theorem State.clearSession_bwBuf (s : State) : (s.clearSession).bwBuf = 0#8 := rfl
@[simp] theorem State.clearSession_bwNbuf (s : State) : (s.clearSession).bwNbuf = 0#3 := rfl
@[simp] theorem State.clearSession_bwTotal (s : State) : (s.clearSession).bwTotal = 0#32 := rfl
@[simp] theorem State.clearSession_brOpen (s : State) : (s.clearSession).brOpen = false := rfl
@[simp] theorem State.clearSession_brRem (s : State) : (s.clearSession).brRem = 0#32 := rfl
@[simp] theorem State.clearSession_brPtr (s : State) : (s.clearSession).brPtr = 0#32 := rfl
@[simp] theorem State.clearSession_brBuf (s : State) : (s.clearSession).brBuf = 0#8 := rfl
@[simp] theorem State.clearSession_brNbuf (s : State) : (s.clearSession).brNbuf = 0#4 := rfl
@[simp] theorem State.clearSession_brShort (s : State) : (s.clearSession).brShort = false := rfl
@[simp] theorem State.clearSession_decRoot (s : State) : (s.clearSession).decRoot = nilId := rfl
@[simp] theorem State.clearSession_decCur (s : State) : (s.clearSession).decCur = nilId := rfl
@[simp] theorem State.clearSession_cmpValid (s : State) : (s.clearSession).cmpValid = false := rfl
@[simp] theorem State.clearSession_outValid (s : State) : (s.clearSession).outValid = false := rfl
@[simp] theorem State.clearSession_src (s : State) : (s.clearSession).src = s.src := rfl
@[simp] theorem State.clearSession_cmp (s : State) : (s.clearSession).cmp = s.cmp := rfl
@[simp] theorem State.clearSession_out (s : State) : (s.clearSession).out = s.out := rfl
@[simp] theorem State.clearSession_env (s : State) : (s.clearSession).env = s.env := rfl
@[simp] theorem State.clearSession_host (s : State) : (s.clearSession).host = s.host := rfl

/-! ### `State.applyReset` (R44, R310) -/

@[simp] theorem State.applyReset_cfg (s : State) : (s.applyReset).cfg = s.cfg := rfl
@[simp] theorem State.applyReset_arg0 (s : State) : (s.applyReset).arg0 = 0#32 := rfl
@[simp] theorem State.applyReset_arg1 (s : State) : (s.applyReset).arg1 = 0#32 := rfl
@[simp] theorem State.applyReset_arg2 (s : State) : (s.applyReset).arg2 = 0#32 := rfl
@[simp] theorem State.applyReset_res (s : State) : (s.applyReset).res = 0#32 := rfl
@[simp] theorem State.applyReset_err (s : State) : (s.applyReset).err = none := rfl
@[simp] theorem State.applyReset_ft (s : State) : (s.applyReset).ft = [] := rfl
@[simp] theorem State.applyReset_nodes (s : State) : (s.applyReset).nodes = [] := rfl
@[simp] theorem State.applyReset_cb (s : State) : (s.applyReset).cb = [] := rfl
@[simp] theorem State.applyReset_bwOpen (s : State) : (s.applyReset).bwOpen = false := rfl
@[simp] theorem State.applyReset_bwBuf (s : State) : (s.applyReset).bwBuf = 0#8 := rfl
@[simp] theorem State.applyReset_bwNbuf (s : State) : (s.applyReset).bwNbuf = 0#3 := rfl
@[simp] theorem State.applyReset_bwTotal (s : State) : (s.applyReset).bwTotal = 0#32 := rfl
@[simp] theorem State.applyReset_brOpen (s : State) : (s.applyReset).brOpen = false := rfl
@[simp] theorem State.applyReset_brRem (s : State) : (s.applyReset).brRem = 0#32 := rfl
@[simp] theorem State.applyReset_brPtr (s : State) : (s.applyReset).brPtr = 0#32 := rfl
@[simp] theorem State.applyReset_brBuf (s : State) : (s.applyReset).brBuf = 0#8 := rfl
@[simp] theorem State.applyReset_brNbuf (s : State) : (s.applyReset).brNbuf = 0#4 := rfl
@[simp] theorem State.applyReset_brShort (s : State) : (s.applyReset).brShort = false := rfl
@[simp] theorem State.applyReset_decRoot (s : State) : (s.applyReset).decRoot = nilId := rfl
@[simp] theorem State.applyReset_decCur (s : State) : (s.applyReset).decCur = nilId := rfl
@[simp] theorem State.applyReset_cmpValid (s : State) : (s.applyReset).cmpValid = false := rfl
@[simp] theorem State.applyReset_outValid (s : State) : (s.applyReset).outValid = false := rfl
@[simp] theorem State.applyReset_src (s : State) : (s.applyReset).src = s.src := rfl
@[simp] theorem State.applyReset_cmp (s : State) : (s.applyReset).cmp = s.cmp := rfl
@[simp] theorem State.applyReset_out (s : State) : (s.applyReset).out = s.out := rfl
@[simp] theorem State.applyReset_env (s : State) : (s.applyReset).env = s.env := rfl
@[simp] theorem State.applyReset_host (s : State) : (s.applyReset).host = s.host := rfl

/-! ### `State.freshSession` (R237) -/

@[simp] theorem State.freshSession_cfg (s : State) : (s.freshSession).cfg = s.cfg := rfl
@[simp] theorem State.freshSession_arg0 (s : State) : (s.freshSession).arg0 = s.arg0 := rfl
@[simp] theorem State.freshSession_arg1 (s : State) : (s.freshSession).arg1 = s.arg1 := rfl
@[simp] theorem State.freshSession_arg2 (s : State) : (s.freshSession).arg2 = s.arg2 := rfl
@[simp] theorem State.freshSession_res (s : State) : (s.freshSession).res = s.res := rfl
@[simp] theorem State.freshSession_err (s : State) : (s.freshSession).err = none := rfl
@[simp] theorem State.freshSession_ft (s : State) : (s.freshSession).ft = [] := rfl
@[simp] theorem State.freshSession_nodes (s : State) : (s.freshSession).nodes = [] := rfl
@[simp] theorem State.freshSession_cb (s : State) : (s.freshSession).cb = [] := rfl
@[simp] theorem State.freshSession_bwOpen (s : State) : (s.freshSession).bwOpen = false := rfl
@[simp] theorem State.freshSession_bwBuf (s : State) : (s.freshSession).bwBuf = 0#8 := rfl
@[simp] theorem State.freshSession_bwNbuf (s : State) : (s.freshSession).bwNbuf = 0#3 := rfl
@[simp] theorem State.freshSession_bwTotal (s : State) : (s.freshSession).bwTotal = 0#32 := rfl
@[simp] theorem State.freshSession_brOpen (s : State) : (s.freshSession).brOpen = false := rfl
@[simp] theorem State.freshSession_brRem (s : State) : (s.freshSession).brRem = 0#32 := rfl
@[simp] theorem State.freshSession_brPtr (s : State) : (s.freshSession).brPtr = 0#32 := rfl
@[simp] theorem State.freshSession_brBuf (s : State) : (s.freshSession).brBuf = 0#8 := rfl
@[simp] theorem State.freshSession_brNbuf (s : State) : (s.freshSession).brNbuf = 0#4 := rfl
@[simp] theorem State.freshSession_brShort (s : State) : (s.freshSession).brShort = false := rfl
@[simp] theorem State.freshSession_decRoot (s : State) : (s.freshSession).decRoot = nilId := rfl
@[simp] theorem State.freshSession_decCur (s : State) : (s.freshSession).decCur = nilId := rfl
@[simp] theorem State.freshSession_cmpValid (s : State) : (s.freshSession).cmpValid = false := rfl
@[simp] theorem State.freshSession_outValid (s : State) : (s.freshSession).outValid = false := rfl
@[simp] theorem State.freshSession_src (s : State) : (s.freshSession).src = s.src := rfl
@[simp] theorem State.freshSession_cmp (s : State) : (s.freshSession).cmp = s.cmp := rfl
@[simp] theorem State.freshSession_out (s : State) : (s.freshSession).out = s.out := rfl
@[simp] theorem State.freshSession_env (s : State) : (s.freshSession).env = s.env := rfl
@[simp] theorem State.freshSession_host (s : State) : (s.freshSession).host = s.host := rfl

/-! ### `brRelease` (R130) -/

@[simp] theorem brRelease_cfg (s : State) : (brRelease s).cfg = s.cfg := rfl
@[simp] theorem brRelease_arg0 (s : State) : (brRelease s).arg0 = s.arg0 := rfl
@[simp] theorem brRelease_arg1 (s : State) : (brRelease s).arg1 = s.arg1 := rfl
@[simp] theorem brRelease_arg2 (s : State) : (brRelease s).arg2 = s.arg2 := rfl
@[simp] theorem brRelease_res (s : State) : (brRelease s).res = s.res := rfl
@[simp] theorem brRelease_err (s : State) : (brRelease s).err = s.err := rfl
@[simp] theorem brRelease_ft (s : State) : (brRelease s).ft = s.ft := rfl
@[simp] theorem brRelease_nodes (s : State) : (brRelease s).nodes = s.nodes := rfl
@[simp] theorem brRelease_cb (s : State) : (brRelease s).cb = s.cb := rfl
@[simp] theorem brRelease_bwOpen (s : State) : (brRelease s).bwOpen = s.bwOpen := rfl
@[simp] theorem brRelease_bwBuf (s : State) : (brRelease s).bwBuf = s.bwBuf := rfl
@[simp] theorem brRelease_bwNbuf (s : State) : (brRelease s).bwNbuf = s.bwNbuf := rfl
@[simp] theorem brRelease_bwTotal (s : State) : (brRelease s).bwTotal = s.bwTotal := rfl
@[simp] theorem brRelease_brOpen (s : State) : (brRelease s).brOpen = false := rfl
@[simp] theorem brRelease_brRem (s : State) : (brRelease s).brRem = s.brRem := rfl
@[simp] theorem brRelease_brPtr (s : State) : (brRelease s).brPtr = s.brPtr := rfl
@[simp] theorem brRelease_brBuf (s : State) : (brRelease s).brBuf = s.brBuf := rfl
@[simp] theorem brRelease_brNbuf (s : State) : (brRelease s).brNbuf = s.brNbuf := rfl
@[simp] theorem brRelease_brShort (s : State) : (brRelease s).brShort = s.brShort := rfl
@[simp] theorem brRelease_decRoot (s : State) : (brRelease s).decRoot = s.decRoot := rfl
@[simp] theorem brRelease_decCur (s : State) : (brRelease s).decCur = s.decCur := rfl
@[simp] theorem brRelease_cmpValid (s : State) : (brRelease s).cmpValid = s.cmpValid := rfl
@[simp] theorem brRelease_outValid (s : State) : (brRelease s).outValid = s.outValid := rfl
@[simp] theorem brRelease_src (s : State) : (brRelease s).src = s.src := rfl
@[simp] theorem brRelease_cmp (s : State) : (brRelease s).cmp = s.cmp := rfl
@[simp] theorem brRelease_out (s : State) : (brRelease s).out = s.out := rfl
@[simp] theorem brRelease_env (s : State) : (brRelease s).env = s.env := rfl
@[simp] theorem brRelease_host (s : State) : (brRelease s).host = s.host := rfl

/-! ### `State.passResult` (R105) -/

@[simp] theorem State.passResult_cfg (s : State) : (s.passResult).cfg = s.cfg := rfl
@[simp] theorem State.passResult_arg0 (s : State) : (s.passResult).arg0 = s.res := rfl
@[simp] theorem State.passResult_arg1 (s : State) : (s.passResult).arg1 = s.arg1 := rfl
@[simp] theorem State.passResult_arg2 (s : State) : (s.passResult).arg2 = s.arg2 := rfl
@[simp] theorem State.passResult_res (s : State) : (s.passResult).res = s.res := rfl
@[simp] theorem State.passResult_err (s : State) : (s.passResult).err = s.err := rfl
@[simp] theorem State.passResult_ft (s : State) : (s.passResult).ft = s.ft := rfl
@[simp] theorem State.passResult_nodes (s : State) : (s.passResult).nodes = s.nodes := rfl
@[simp] theorem State.passResult_cb (s : State) : (s.passResult).cb = s.cb := rfl
@[simp] theorem State.passResult_bwOpen (s : State) : (s.passResult).bwOpen = s.bwOpen := rfl
@[simp] theorem State.passResult_bwBuf (s : State) : (s.passResult).bwBuf = s.bwBuf := rfl
@[simp] theorem State.passResult_bwNbuf (s : State) : (s.passResult).bwNbuf = s.bwNbuf := rfl
@[simp] theorem State.passResult_bwTotal (s : State) : (s.passResult).bwTotal = s.bwTotal := rfl
@[simp] theorem State.passResult_brOpen (s : State) : (s.passResult).brOpen = s.brOpen := rfl
@[simp] theorem State.passResult_brRem (s : State) : (s.passResult).brRem = s.brRem := rfl
@[simp] theorem State.passResult_brPtr (s : State) : (s.passResult).brPtr = s.brPtr := rfl
@[simp] theorem State.passResult_brBuf (s : State) : (s.passResult).brBuf = s.brBuf := rfl
@[simp] theorem State.passResult_brNbuf (s : State) : (s.passResult).brNbuf = s.brNbuf := rfl
@[simp] theorem State.passResult_brShort (s : State) : (s.passResult).brShort = s.brShort := rfl
@[simp] theorem State.passResult_decRoot (s : State) : (s.passResult).decRoot = s.decRoot := rfl
@[simp] theorem State.passResult_decCur (s : State) : (s.passResult).decCur = s.decCur := rfl
@[simp] theorem State.passResult_cmpValid (s : State) : (s.passResult).cmpValid = s.cmpValid := rfl
@[simp] theorem State.passResult_outValid (s : State) : (s.passResult).outValid = s.outValid := rfl
@[simp] theorem State.passResult_src (s : State) : (s.passResult).src = s.src := rfl
@[simp] theorem State.passResult_cmp (s : State) : (s.passResult).cmp = s.cmp := rfl
@[simp] theorem State.passResult_out (s : State) : (s.passResult).out = s.out := rfl
@[simp] theorem State.passResult_env (s : State) : (s.passResult).env = s.env := rfl
@[simp] theorem State.passResult_host (s : State) : (s.passResult).host = s.host := rfl

/-! ### `State.withFetchWord` (log entry 1) -/

@[simp] theorem State.withFetchWord_cfg (s : State) (n w : Nat) : (s.withFetchWord n w).cfg = s.cfg := rfl
@[simp] theorem State.withFetchWord_arg0 (s : State) (n w : Nat) : (s.withFetchWord n w).arg0 = s.arg0 := rfl
@[simp] theorem State.withFetchWord_arg1 (s : State) (n w : Nat) : (s.withFetchWord n w).arg1 = s.arg1 := rfl
@[simp] theorem State.withFetchWord_arg2 (s : State) (n w : Nat) : (s.withFetchWord n w).arg2 = s.arg2 := rfl
@[simp] theorem State.withFetchWord_res (s : State) (n w : Nat) : (s.withFetchWord n w).res = s.res := rfl
@[simp] theorem State.withFetchWord_err (s : State) (n w : Nat) : (s.withFetchWord n w).err = s.err := rfl
@[simp] theorem State.withFetchWord_ft (s : State) (n w : Nat) : (s.withFetchWord n w).ft = s.ft := rfl
@[simp] theorem State.withFetchWord_nodes (s : State) (n w : Nat) : (s.withFetchWord n w).nodes = s.nodes := rfl
@[simp] theorem State.withFetchWord_cb (s : State) (n w : Nat) : (s.withFetchWord n w).cb = s.cb := rfl
@[simp] theorem State.withFetchWord_bwOpen (s : State) (n w : Nat) : (s.withFetchWord n w).bwOpen = s.bwOpen := rfl
@[simp] theorem State.withFetchWord_bwBuf (s : State) (n w : Nat) : (s.withFetchWord n w).bwBuf = s.bwBuf := rfl
@[simp] theorem State.withFetchWord_bwNbuf (s : State) (n w : Nat) : (s.withFetchWord n w).bwNbuf = s.bwNbuf := rfl
@[simp] theorem State.withFetchWord_bwTotal (s : State) (n w : Nat) : (s.withFetchWord n w).bwTotal = s.bwTotal := rfl
@[simp] theorem State.withFetchWord_brOpen (s : State) (n w : Nat) : (s.withFetchWord n w).brOpen = s.brOpen := rfl
@[simp] theorem State.withFetchWord_brRem (s : State) (n w : Nat) : (s.withFetchWord n w).brRem = s.brRem := rfl
@[simp] theorem State.withFetchWord_brPtr (s : State) (n w : Nat) : (s.withFetchWord n w).brPtr = s.brPtr := rfl
@[simp] theorem State.withFetchWord_brBuf (s : State) (n w : Nat) : (s.withFetchWord n w).brBuf = s.brBuf := rfl
@[simp] theorem State.withFetchWord_brNbuf (s : State) (n w : Nat) : (s.withFetchWord n w).brNbuf = s.brNbuf := rfl
@[simp] theorem State.withFetchWord_brShort (s : State) (n w : Nat) : (s.withFetchWord n w).brShort = s.brShort := rfl
@[simp] theorem State.withFetchWord_decRoot (s : State) (n w : Nat) : (s.withFetchWord n w).decRoot = s.decRoot := rfl
@[simp] theorem State.withFetchWord_decCur (s : State) (n w : Nat) : (s.withFetchWord n w).decCur = s.decCur := rfl
@[simp] theorem State.withFetchWord_cmpValid (s : State) (n w : Nat) :
    (s.withFetchWord n w).cmpValid = s.cmpValid := rfl
@[simp] theorem State.withFetchWord_outValid (s : State) (n w : Nat) :
    (s.withFetchWord n w).outValid = s.outValid := rfl
@[simp] theorem State.withFetchWord_src (s : State) (n w : Nat) : (s.withFetchWord n w).src = s.src := rfl
@[simp] theorem State.withFetchWord_cmp (s : State) (n w : Nat) : (s.withFetchWord n w).cmp = s.cmp := rfl
@[simp] theorem State.withFetchWord_out (s : State) (n w : Nat) : (s.withFetchWord n w).out = s.out := rfl
@[simp] theorem State.withFetchWord_env (s : State) (n w : Nat) : (s.withFetchWord n w).env = s.env := rfl
@[simp] theorem State.withFetchWord_host (s : State) (n w : Nat) :
    (s.withFetchWord n w).host = .writeReg .cmd (BitVec.ofNat 32 (w % 2 ^ n)) :: s.host := rfl

section

variable (w : Word) (n : Nat) (cl : List (Word × Byte)) (cn : Word) (ol : List (Word × Symbol)) (on : Word) (s : State)

/-! ### `resetDuring` (R310) -/

@[simp] theorem resetDuring_cfg : (resetDuring w n cl cn ol on s).cfg = s.cfg := rfl
@[simp] theorem resetDuring_arg0 : (resetDuring w n cl cn ol on s).arg0 = 0#32 := rfl
@[simp] theorem resetDuring_arg1 : (resetDuring w n cl cn ol on s).arg1 = 0#32 := rfl
@[simp] theorem resetDuring_arg2 : (resetDuring w n cl cn ol on s).arg2 = 0#32 := rfl
@[simp] theorem resetDuring_res : (resetDuring w n cl cn ol on s).res = 0#32 := rfl
@[simp] theorem resetDuring_err : (resetDuring w n cl cn ol on s).err = none := rfl
@[simp] theorem resetDuring_ft : (resetDuring w n cl cn ol on s).ft = [] := rfl
@[simp] theorem resetDuring_nodes : (resetDuring w n cl cn ol on s).nodes = [] := rfl
@[simp] theorem resetDuring_cb : (resetDuring w n cl cn ol on s).cb = [] := rfl
@[simp] theorem resetDuring_bwOpen : (resetDuring w n cl cn ol on s).bwOpen = false := rfl
@[simp] theorem resetDuring_bwBuf : (resetDuring w n cl cn ol on s).bwBuf = 0#8 := rfl
@[simp] theorem resetDuring_bwNbuf : (resetDuring w n cl cn ol on s).bwNbuf = 0#3 := rfl
@[simp] theorem resetDuring_bwTotal : (resetDuring w n cl cn ol on s).bwTotal = 0#32 := rfl
@[simp] theorem resetDuring_brOpen : (resetDuring w n cl cn ol on s).brOpen = false := rfl
@[simp] theorem resetDuring_brRem : (resetDuring w n cl cn ol on s).brRem = 0#32 := rfl
@[simp] theorem resetDuring_brPtr : (resetDuring w n cl cn ol on s).brPtr = 0#32 := rfl
@[simp] theorem resetDuring_brBuf : (resetDuring w n cl cn ol on s).brBuf = 0#8 := rfl
@[simp] theorem resetDuring_brNbuf : (resetDuring w n cl cn ol on s).brNbuf = 0#4 := rfl
@[simp] theorem resetDuring_brShort : (resetDuring w n cl cn ol on s).brShort = false := rfl
@[simp] theorem resetDuring_decRoot : (resetDuring w n cl cn ol on s).decRoot = nilId := rfl
@[simp] theorem resetDuring_decCur : (resetDuring w n cl cn ol on s).decCur = nilId := rfl
@[simp] theorem resetDuring_cmpValid : (resetDuring w n cl cn ol on s).cmpValid = false := rfl
@[simp] theorem resetDuring_outValid : (resetDuring w n cl cn ol on s).outValid = false := rfl
@[simp] theorem resetDuring_src : (resetDuring w n cl cn ol on s).src = s.src := rfl
@[simp] theorem resetDuring_cmp :
    (resetDuring w n cl cn ol on s).cmp = s.cmp.abandoned 0#8 cl cn (touchesCmp w s) := rfl
@[simp] theorem resetDuring_out :
    (resetDuring w n cl cn ol on s).out = s.out.abandoned 0#16 (ol.map fun e => (e.1, symCell s.cfg e.2)) on (touchesOut w s) := rfl
@[simp] theorem resetDuring_env : (resetDuring w n cl cn ol on s).env = s.env.drop (min n (answersUsed w s)) := rfl
@[simp] theorem resetDuring_host : (resetDuring w n cl cn ol on s).host = s.host := rfl

end

end Sys2Proof.Machine
end

