-- ==== Sys2Proof/Laws/Ops.lean ====
section
/-! SUPPORT. What each shared operation can do, said once: the access primitives, the byte writers, the node store, the
quiet close, raising a fault, accepting and completing a command. -/

namespace Sys2Proof.Machine

/-! ### Runs -/

@[simp] theorem Run.andThen_done {α β : Type} (a : α) (s : State) (f : α → State → Run β) :
    (Run.done a s).andThen f = f a s := rfl

@[simp] theorem Run.andThen_raised {α β : Type} (k : FaultKind) (s : State) (f : α → State → Run β) :
    (Run.raised k s).andThen f = .raised k s := rfl

@[simp] theorem Run.state_done {α : Type} (a : α) (s : State) : (Run.done a s).state = s := rfl

@[simp] theorem Run.state_raised {α : Type} (k : FaultKind) (s : State) :
    (Run.raised k s : Run α).state = s := rfl

/-- A sequence that returns has returned twice. -/
theorem Run.andThen_eq_done {α β : Type} {r : Run α} {f : α → State → Run β} {b : β} {t : State} :
    r.andThen f = .done b t ↔ ∃ a s, r = .done a s ∧ f a s = .done b t := by
  cases r <;> simp [and_assoc]

/-- A sequence that raises has raised in its first or in its second part. -/
theorem Run.andThen_eq_raised {α β : Type} {r : Run α} {f : α → State → Run β} {k : FaultKind} {t : State} :
    r.andThen f = .raised k t ↔ r = .raised k t ∨ ∃ a s, r = .done a s ∧ f a s = .raised k t := by
  cases r <;> simp [and_assoc]

/-- A property that the first part establishes and the second part keeps holds of the state a sequence leaves. -/
theorem Run.andThen_state {α β : Type} {r : Run α} {f : α → State → Run β} (P : State → Prop) (hr : P r.state)
    (hf : ∀ a s, r = .done a s → P s → P (f a s).state) : P (r.andThen f).state := by
  cases r with
  | done a s => exact hf a s rfl hr
  | raised k s => exact hr

/-! ### The environment and the access primitives (R61 to R63) -/

/-- One answer is used up; past the end of the script it is `ok` (log entry 2). -/
theorem ask_eq (s : State) : ask s = (s.env.headD .ok, { s with env := s.env.tail }) := by
  unfold ask
  cases s with
  | mk =>
    dsimp only
    split <;> simp_all

theorem ask_faultFree {s : State} (h : s.FaultFree) : ask s = (.ok, s) := by
  unfold ask
  rw [show s.env = [] from h]

theorem openRead_cases (s : State) :
    (s.env.headD .ok = .ok ∧ openRead s = .done () { s with env := s.env.tail }) ∨
    ∃ left, s.env.headD .ok = .ioerr left ∧ openRead s = .raised .sourceUnavailable { s with env := s.env.tail } := by
  unfold openRead
  rw [ask_eq]
  cases h : s.env.headD .ok with
  | ok => exact .inl ⟨rfl, rfl⟩
  | ioerr left => exact .inr ⟨left, rfl, rfl⟩

theorem openWriteCmp_cases (s : State) :
    (s.env.headD .ok = .ok ∧
      openWriteCmp s = .done () { s with env := s.env.tail, cmp := { s.cmp with len := 0#32 } }) ∨
    ∃ left, s.env.headD .ok = .ioerr left ∧
      openWriteCmp s = .raised .sinkUnavailable { s with env := s.env.tail } := by
  unfold openWriteCmp
  rw [ask_eq]
  cases h : s.env.headD .ok with
  | ok => exact .inl ⟨rfl, rfl⟩
  | ioerr left => exact .inr ⟨left, rfl, rfl⟩

theorem openWriteOut_cases (s : State) :
    (s.env.headD .ok = .ok ∧
      openWriteOut s = .done () { s with env := s.env.tail, out := { s.out with len := 0#32 } }) ∨
    ∃ left, s.env.headD .ok = .ioerr left ∧
      openWriteOut s = .raised .sinkUnavailable { s with env := s.env.tail } := by
  unfold openWriteOut
  rw [ask_eq]
  cases h : s.env.headD .ok with
  | ok => exact .inl ⟨rfl, rfl⟩
  | ioerr left => exact .inr ⟨left, rfl, rfl⟩

theorem readSrc_cases (a : Nat) (s : State) :
    (s.env.headD .ok = .ok ∧ readSrc a s = .done (s.src.read 0#16 a) { s with env := s.env.tail }) ∨
    ∃ left, s.env.headD .ok = .ioerr left ∧ readSrc a s = .raised .sourceCorrupt { s with env := s.env.tail } := by
  unfold readSrc
  rw [ask_eq]
  cases h : s.env.headD .ok with
  | ok => exact .inl ⟨rfl, rfl⟩
  | ioerr left => exact .inr ⟨left, rfl, rfl⟩

theorem readCmp_cases (a : Nat) (s : State) :
    (s.env.headD .ok = .ok ∧ readCmp a s = .done (s.cmp.read 0#8 a) { s with env := s.env.tail }) ∨
    ∃ left, s.env.headD .ok = .ioerr left ∧ readCmp a s = .raised .sourceCorrupt { s with env := s.env.tail } := by
  unfold readCmp
  rw [ask_eq]
  cases h : s.env.headD .ok with
  | ok => exact .inl ⟨rfl, rfl⟩
  | ioerr left => exact .inr ⟨left, rfl, rfl⟩

/-- `MemWrite(CMP, a, v)`: the append whose increment does not fit, the write, the failed write. -/
theorem writeCmp_cases (a : Nat) (v : Byte) (s : State) :
    (s.env.headD .ok = .ok ∧ (a = s.cmp.len.toNat ∧ s.cmp.len = wordMax) ∧
      writeCmp a v s = .raised .capacityExceeded { s with env := s.env.tail, cmp := s.cmp.store 0#8 a v }) ∨
    (s.env.headD .ok = .ok ∧ ¬ (a = s.cmp.len.toNat ∧ s.cmp.len = wordMax) ∧
      writeCmp a v s = .done () { s with env := s.env.tail, cmp := s.cmp.put 0#8 a v }) ∨
    ∃ left, s.env.headD .ok = .ioerr left ∧
      writeCmp a v s =
        .raised .sinkCorrupt { s with env := s.env.tail, cmp := s.cmp.store 0#8 a (left.setWidth 8) } := by
  unfold writeCmp
  rw [ask_eq]
  cases h : s.env.headD .ok with
  | ok =>
    dsimp only
    split
    · next hfull => exact .inl ⟨rfl, hfull, rfl⟩
    · next hfits => exact .inr (.inl ⟨rfl, hfits, rfl⟩)
  | ioerr left => exact .inr (.inr ⟨left, rfl, rfl⟩)

/-- `MemWrite(OUT, a, v)`. -/
theorem writeOut_cases (a : Nat) (v : Symbol) (s : State) :
    (s.env.headD .ok = .ok ∧
      writeOut a v s = .done () { s with env := s.env.tail, out := s.out.put 0#16 a v }) ∨
    ∃ left, s.env.headD .ok = .ioerr left ∧
      writeOut a v s =
        .raised .sinkCorrupt { s with env := s.env.tail, out := s.out.store 0#16 a (symCell s.cfg left) } := by
  unfold writeOut
  rw [ask_eq]
  cases h : s.env.headD .ok with
  | ok => exact .inl ⟨rfl, rfl⟩
  | ioerr left => exact .inr ⟨left, rfl, rfl⟩

/-! ### Accesses in a fault-free environment -/

theorem openRead_faultFree {s : State} (h : s.FaultFree) : openRead s = .done () s := by
  simp [openRead, ask_faultFree h]

theorem openWriteCmp_faultFree {s : State} (h : s.FaultFree) :
    openWriteCmp s = .done () { s with cmp := { s.cmp with len := 0#32 } } := by
  simp [openWriteCmp, ask_faultFree h]

theorem openWriteOut_faultFree {s : State} (h : s.FaultFree) :
    openWriteOut s = .done () { s with out := { s.out with len := 0#32 } } := by
  simp [openWriteOut, ask_faultFree h]

theorem readSrc_faultFree {s : State} (h : s.FaultFree) (a : Nat) :
    readSrc a s = .done (s.src.read 0#16 a) s := by
  simp [readSrc, ask_faultFree h]

theorem readCmp_faultFree {s : State} (h : s.FaultFree) (a : Nat) :
    readCmp a s = .done (s.cmp.read 0#8 a) s := by
  simp [readCmp, ask_faultFree h]

theorem writeCmp_faultFree {s : State} (h : s.FaultFree) {a : Nat} (v : Byte)
    (hfits : ¬ (a = s.cmp.len.toNat ∧ s.cmp.len = wordMax)) :
    writeCmp a v s = .done () { s with cmp := s.cmp.put 0#8 a v } := by
  simp [writeCmp, hfits, ask_faultFree h]

theorem writeCmp_faultFree_full {s : State} (h : s.FaultFree) (v : Byte) (hfull : s.cmp.len = wordMax) :
    writeCmp s.cmp.len.toNat v s =
      .raised .capacityExceeded { s with cmp := s.cmp.store 0#8 s.cmp.len.toNat v } := by
  simp [writeCmp, hfull, ask_faultFree h]

theorem writeOut_faultFree {s : State} (h : s.FaultFree) (a : Nat) (v : Symbol) :
    writeOut a v s = .done () { s with out := s.out.put 0#16 a v } := by
  simp [writeOut, ask_faultFree h]

/-! ### Writers of `CMP` change `CMP` and the environment, nothing else -/

theorem writeCmp_frame (a : Nat) (v : Byte) (s : State) :
    (writeCmp a v s).state =
      { s with env := (writeCmp a v s).state.env, cmp := (writeCmp a v s).state.cmp } := by
  rcases writeCmp_cases a v s with ⟨-, -, h⟩ | ⟨-, -, h⟩ | ⟨left, -, h⟩ <;> simp [h]

theorem writeCmp_keeps_ok {a : Nat} (ha : a < 2 ^ 32) (v : Byte) {s : State} (h : ByteSpaceOk s.cmp) :
    ByteSpaceOk (writeCmp a v s).state.cmp := by
  rcases writeCmp_cases a v s with ⟨-, -, he⟩ | ⟨-, -, he⟩ | ⟨left, -, he⟩ <;> rw [he]
  · exact h.store ha v
  · exact h.put ha v
  · exact h.store ha _

theorem writeCmpBytes_frame (vs : List Byte) (a : Nat) (s : State) :
    (writeCmpBytes a vs s).state =
      { s with env := (writeCmpBytes a vs s).state.env, cmp := (writeCmpBytes a vs s).state.cmp } := by
  induction vs generalizing a s with
  | nil => rfl
  | cons v vs ih =>
    simp only [writeCmpBytes]
    have hf := writeCmp_frame a v s
    cases h : writeCmp a v s with
    | raised k t => simpa [h] using hf
    | done u t =>
      rw [h] at hf
      simp only [Run.state_done] at hf
      simp only [Run.andThen_done]
      rw [ih, hf]

theorem writeCmpBytes_keeps_ok (vs : List Byte) {a : Nat} (ha : a + vs.length ≤ 2 ^ 32) {s : State}
    (h : ByteSpaceOk s.cmp) : ByteSpaceOk (writeCmpBytes a vs s).state.cmp := by
  induction vs generalizing a s with
  | nil => exact h
  | cons v vs ih =>
    simp only [writeCmpBytes, List.length_cons] at ha ⊢
    exact Run.andThen_state (fun t => ByteSpaceOk t.cmp) (writeCmp_keeps_ok (by omega) v h)
      fun _ s1 _ h1 => ih (by omega) h1

theorem writeCmpBytesQuiet_frame (vs : List Byte) (a : Nat) (s : State) :
    writeCmpBytesQuiet a vs s =
      { s with env := (writeCmpBytesQuiet a vs s).env, cmp := (writeCmpBytesQuiet a vs s).cmp } := by
  induction vs generalizing a s with
  | nil => rfl
  | cons v vs ih =>
    simp only [writeCmpBytesQuiet]
    rw [ih, writeCmp_frame a v s]

theorem writeCmpBytesQuiet_keeps_ok (vs : List Byte) {a : Nat} (ha : a + vs.length ≤ 2 ^ 32) {s : State}
    (h : ByteSpaceOk s.cmp) : ByteSpaceOk (writeCmpBytesQuiet a vs s).cmp := by
  induction vs generalizing a s with
  | nil => exact h
  | cons v vs ih =>
    simp only [writeCmpBytesQuiet, List.length_cons] at ha ⊢
    exact ih (by omega) (writeCmp_keeps_ok (by omega) v h)

@[simp] theorem be32_length (n : Word) : (be32 n).length = 4 := rfl

/-! ### The node store -/

@[simp] theorem nodeIn_nil (n : NodeId) : nodeIn [] n = none := by simp [nodeIn]

@[simp] theorem nodeIn_nilId (nodes : List Node) : nodeIn nodes nilId = none := by simp [nodeIn]

@[simp] theorem State.node?_nilId (s : State) : s.node? nilId = none := nodeIn_nilId s.nodes

/-- A valid id lies below `NODE_CNT` and names the record at its place (R27, R28). -/
theorem nodeIn_eq_some {nodes : List Node} {n : NodeId} {nd : Node} :
    nodeIn nodes n = some nd ↔ n ≠ nilId ∧ nodes[n.toNat]? = some nd := by
  unfold nodeIn
  split <;> simp_all

/-- Appending records changes no record that was there (R150). -/
theorem nodeIn_append {nodes more : List Node} {n : NodeId} {nd : Node} (h : nodeIn nodes n = some nd) :
    nodeIn (nodes ++ more) n = some nd := by
  rw [nodeIn_eq_some] at h ⊢
  refine ⟨h.1, ?_⟩
  rw [List.getElem?_append_left]
  · exact h.2
  · exact (List.getElem?_eq_some_iff.mp h.2).1

/-- An allocation takes the next record, or the store is full (R140). -/
theorem allocNode_cases (nd : Node) (s : State) :
    (s.cfg.nodesMax.toNat ≤ s.nodes.length ∧ allocNode nd s = .raised .capacityExceeded s) ∨
    (s.nodes.length < s.cfg.nodesMax.toNat ∧
      allocNode nd s = .done s.nodeCnt { s with nodes := s.nodes ++ [nd] }) := by
  unfold allocNode
  split
  · next h => exact .inl ⟨h, rfl⟩
  · next h => exact .inr ⟨by omega, rfl⟩

/-- The id an allocation returns is the number of the records before it. -/
theorem State.nodeCnt_toNat {s : State} (h : s.nodes.length < s.cfg.nodesMax.toNat) :
    s.nodeCnt.toNat = s.nodes.length := by
  have := s.cfg.nodesMax.isLt
  simp only [State.nodeCnt, BitVec.toNat_ofNat]
  exact Nat.mod_eq_of_lt (by omega)

/-! ### The quiet close and the release of a raise (R133, R281) -/

/-- The quiet close writes `CMP`, may clear the bit buffer, and closes the writer. -/
theorem bwCloseQuiet_frame (s : State) :
    bwCloseQuiet s =
      { s with env := (bwCloseQuiet s).env, cmp := (bwCloseQuiet s).cmp, bwBuf := (bwCloseQuiet s).bwBuf,
               bwNbuf := (bwCloseQuiet s).bwNbuf, bwOpen := false } := by
  unfold bwCloseQuiet
  split
  · dsimp only
    rw [writeCmpBytesQuiet_frame]
    split
    · rfl
    · rw [writeCmp_frame]
  · rfl

theorem bwCloseQuiet_keeps_ok {s : State} (h : ByteSpaceOk s.cmp) : ByteSpaceOk (bwCloseQuiet s).cmp := by
  unfold bwCloseQuiet
  split
  · refine writeCmpBytesQuiet_keeps_ok _ (by simp) ?_
    split
    · exact h
    · exact writeCmp_keeps_ok s.cmp.len.isLt _ h
  · exact h

/-- After a release nothing is open, and with the writer closed only `BR_OPEN` has changed. -/
theorem State.release_frame (s : State) :
    s.release =
      { s with env := s.release.env, cmp := s.release.cmp, bwBuf := s.release.bwBuf, bwNbuf := s.release.bwNbuf,
               bwOpen := false, brOpen := false } := by
  unfold State.release
  split
  · rw [bwCloseQuiet_frame]
  · next h =>
    have h : s.bwOpen = false := by simpa using h
    cases s
    simp_all

theorem State.release_keeps_ok {s : State} (h : ByteSpaceOk s.cmp) : ByteSpaceOk s.release.cmp := by
  unfold State.release
  split
  · exact bwCloseQuiet_keeps_ok h
  · exact h

/-- What a raise can change (R280, R281, R283). -/
theorem State.raiseFault_frame (k : FaultKind) (s : State) :
    s.raiseFault k =
      { s with err := some (s.err.getD k), env := (s.raiseFault k).env, cmp := (s.raiseFault k).cmp,
               bwBuf := (s.raiseFault k).bwBuf, bwNbuf := (s.raiseFault k).bwNbuf, bwOpen := false,
               brOpen := false } :=
  State.release_frame { s with err := some (s.err.getD k) }

theorem State.raiseFault_keeps_ok (k : FaultKind) {s : State} (h : ByteSpaceOk s.cmp) :
    ByteSpaceOk (s.raiseFault k).cmp :=
  State.release_keeps_ok (s := { s with err := some (s.err.getD k) }) h

/-- With no writer open a raise records the kind and drops the reader. -/
theorem State.raiseFault_noWriter (k : FaultKind) {s : State} (h : s.bwOpen = false) :
    s.raiseFault k = { s with err := some (s.err.getD k), brOpen := false } := by
  simp [State.raiseFault, State.release, h]

/-! ### Accepting and completing a command (R235, R238) -/

@[simp] theorem complete_done (v : Word) (s : State) : complete (.done v s) = { s with res := v } := rfl

@[simp] theorem complete_raised (k : FaultKind) (s : State) : complete (.raised k s) = s.raiseFault k := rfl

/-- What `exec` runs for each command: the body given to `runCommand`. -/
def body : Instr → State → Run Word
  | .sysClear => sysClear
  | .sesRun => sesRun
  | .fcCount => fcCount
  | .treeLeaf => fun s => allocNode (.leaf (s.arg0.setWidth 16) s.arg1) s
  | .treeNode => fun s => allocNode (.inner s.arg0 s.arg1 s.arg2) s
  | .treeIsLeaf => fieldOfArg0 fun nd => boolWord nd.isLeaf
  | .treeSym => fieldOfArg0 fun nd => nd.sym.setWidth 32
  | .treeLeft => fieldOfArg0 Node.left
  | .treeRight => fieldOfArg0 Node.right
  | .treeWeight => fieldOfArg0 Node.weight
  | .treeSize => fun s => sizeRun s.arg0 s
  | .treeEq => fun s => .done (boolWord ((s.tree s.arg0).eqv (s.tree s.arg1))) s
  | .tbBuild => tbBuild
  | .cbDerive => fun s => cbDerive s.arg0 s
  | .bwOpen => fun s => (bwOpenRun s).andThen fun _ s1 => .done 0#32 s1
  | .bwClose => bwCloseRun
  | .bwWrite b => fun s => (bwWriteBit b s).andThen fun _ s1 => .done 0#32 s1
  | .brOpen => brOpenRun
  | .brRead => fun s => (brReadBit s).andThen fun b s1 => .done (bitWord b) s1
  | .brClose => fun s => .done 0#32 (brRelease s)
  | .encRun => encRun
  | .decRun => fun s => decRun s.arg0 s

/-- Every command runs its body through the one acceptance sequence, and answers a next state. -/
theorem exec_eq_runCommand (i : Instr) (s : State) : exec i s = .next (runCommand i (body i) s) := by
  cases i <;> rfl

/-- The ways a command can go (R235, R238). -/
theorem runCommand_cases (i : Instr) (b : State → Run Word) (s : State) :
    ((s.err ≠ none ∧ i ≠ .sysClear) ∧ runCommand i b s = s) ∨
    ((s.err = none ∨ i = .sysClear) ∧ acceptable i s = false ∧
      runCommand i b s = s.raiseFault .illegalCommand) ∨
    ((s.err = none ∨ i = .sysClear) ∧ acceptable i s = true ∧ runCommand i b s = complete (b s)) := by
  unfold runCommand
  cases herr : s.err with
  | none => cases hacc : acceptable i s <;> simp
  | some k => by_cases hi : i = .sysClear <;> cases hacc : acceptable i s <;> simp [hi]

/-- An accepted command of a block without fault runs its body. -/
theorem exec_accepted {i : Instr} {s : State} (herr : s.err = none) (hacc : acceptable i s = true) :
    exec i s = .next (complete (body i s)) := by
  simp [exec_eq_runCommand, runCommand, herr, hacc]

/-- A command whose operands or precondition fail raises `IllegalCommand` (R278). -/
theorem exec_unacceptable {i : Instr} {s : State} (herr : s.err = none) (hacc : acceptable i s = false) :
    exec i s = .next (s.raiseFault .illegalCommand) := by
  simp [exec_eq_runCommand, runCommand, herr, hacc]

end Sys2Proof.Machine
end

