-- ==== Sys2Proof/Laws/Frames.lean ====
section
/-! SUPPORT. What the micro-operations leave unchanged, however they end. Each relation names the fields that may change;
every other field of `t` is that of `s`. -/

namespace Sys2Proof.Machine

/-! ### The relations -/

/-- Only the writer, `CMP`, its valid flag and the environment may change. -/
def WriterOnly (s t : State) : Prop :=
  t = { s with env := t.env, cmp := t.cmp, cmpValid := t.cmpValid, bwOpen := t.bwOpen, bwBuf := t.bwBuf,
               bwNbuf := t.bwNbuf, bwTotal := t.bwTotal }

/-- Only the reader and the environment may change. -/
def ReaderOnly (s t : State) : Prop :=
  t = { s with env := t.env, brOpen := t.brOpen, brShort := t.brShort, brBuf := t.brBuf, brNbuf := t.brNbuf,
               brRem := t.brRem, brPtr := t.brPtr }

/-- Only `OUT`, the cursor and the environment may change. -/
def OutputOnly (s t : State) : Prop := t = { s with env := t.env, out := t.out, decCur := t.decCur }

/-- Only the reader, the decoder, `OUT`, its valid flag and the environment may change. -/
def DecoderOnly (s t : State) : Prop :=
  t = { s with env := t.env, brOpen := t.brOpen, brShort := t.brShort, brBuf := t.brBuf, brNbuf := t.brNbuf,
               brRem := t.brRem, brPtr := t.brPtr, decRoot := t.decRoot, decCur := t.decCur,
               out := t.out, outValid := t.outValid }

/-- Only the frequency table and the environment may change. -/
def TableOnly (s t : State) : Prop := t = { s with env := t.env, ft := t.ft }

/-- Only the node store may change, and only by new records. -/
def NodesOnly (s t : State) : Prop := ∃ more, t = { s with nodes := s.nodes ++ more }

theorem WriterOnly.refl (s : State) : WriterOnly s s := rfl
theorem ReaderOnly.refl (s : State) : ReaderOnly s s := rfl
theorem OutputOnly.refl (s : State) : OutputOnly s s := rfl
theorem DecoderOnly.refl (s : State) : DecoderOnly s s := rfl
theorem TableOnly.refl (s : State) : TableOnly s s := rfl
theorem NodesOnly.refl (s : State) : NodesOnly s s := ⟨[], by simp⟩

theorem WriterOnly.trans {s t u : State} (h : WriterOnly s t) (g : WriterOnly t u) : WriterOnly s u := by
  unfold WriterOnly at *
  cases s; cases t; cases u; simp_all

theorem ReaderOnly.trans {s t u : State} (h : ReaderOnly s t) (g : ReaderOnly t u) : ReaderOnly s u := by
  unfold ReaderOnly at *
  cases s; cases t; cases u; simp_all

theorem OutputOnly.trans {s t u : State} (h : OutputOnly s t) (g : OutputOnly t u) : OutputOnly s u := by
  unfold OutputOnly at *
  cases s; cases t; cases u; simp_all

theorem DecoderOnly.trans {s t u : State} (h : DecoderOnly s t) (g : DecoderOnly t u) : DecoderOnly s u := by
  unfold DecoderOnly at *
  cases s; cases t; cases u; simp_all

theorem TableOnly.trans {s t u : State} (h : TableOnly s t) (g : TableOnly t u) : TableOnly s u := by
  unfold TableOnly at *
  cases s; cases t; cases u; simp_all

theorem NodesOnly.trans {s t u : State} (h : NodesOnly s t) (g : NodesOnly t u) : NodesOnly s u := by
  obtain ⟨m, rfl⟩ := h
  obtain ⟨n, rfl⟩ := g
  exact ⟨m ++ n, by simp⟩

theorem ReaderOnly.decoder {s t : State} (h : ReaderOnly s t) : DecoderOnly s t := by
  unfold ReaderOnly at h
  unfold DecoderOnly
  cases s; cases t; simp_all

theorem OutputOnly.decoder {s t : State} (h : OutputOnly s t) : DecoderOnly s t := by
  unfold OutputOnly at h
  unfold DecoderOnly
  cases s; cases t; simp_all

/-! ### A frame of a sequence from the frames of its parts -/

theorem Run.andThen_frame {α β : Type} (R : State → State → Prop)
    (trans : ∀ {s t u}, R s t → R t u → R s u) {s : State} {r : Run α} {f : α → State → Run β} (hr : R s r.state)
    (hf : ∀ a t, R t (f a t).state) : R s (r.andThen f).state := by
  cases r with
  | done a t => exact trans hr (hf a t)
  | raised k t => exact hr

theorem WriterOnly.andThen {α β : Type} {s : State} {r : Run α} {f : α → State → Run β}
    (hr : WriterOnly s r.state) (hf : ∀ a t, WriterOnly t (f a t).state) : WriterOnly s (r.andThen f).state :=
  Run.andThen_frame WriterOnly WriterOnly.trans hr hf

theorem ReaderOnly.andThen {α β : Type} {s : State} {r : Run α} {f : α → State → Run β}
    (hr : ReaderOnly s r.state) (hf : ∀ a t, ReaderOnly t (f a t).state) : ReaderOnly s (r.andThen f).state :=
  Run.andThen_frame ReaderOnly ReaderOnly.trans hr hf

theorem OutputOnly.andThen {α β : Type} {s : State} {r : Run α} {f : α → State → Run β}
    (hr : OutputOnly s r.state) (hf : ∀ a t, OutputOnly t (f a t).state) : OutputOnly s (r.andThen f).state :=
  Run.andThen_frame OutputOnly OutputOnly.trans hr hf

theorem DecoderOnly.andThen {α β : Type} {s : State} {r : Run α} {f : α → State → Run β}
    (hr : DecoderOnly s r.state) (hf : ∀ a t, DecoderOnly t (f a t).state) : DecoderOnly s (r.andThen f).state :=
  Run.andThen_frame DecoderOnly DecoderOnly.trans hr hf

theorem TableOnly.andThen {α β : Type} {s : State} {r : Run α} {f : α → State → Run β}
    (hr : TableOnly s r.state) (hf : ∀ a t, TableOnly t (f a t).state) : TableOnly s (r.andThen f).state :=
  Run.andThen_frame TableOnly TableOnly.trans hr hf

theorem NodesOnly.andThen {α β : Type} {s : State} {r : Run α} {f : α → State → Run β}
    (hr : NodesOnly s r.state) (hf : ∀ a t, NodesOnly t (f a t).state) : NodesOnly s (r.andThen f).state :=
  Run.andThen_frame NodesOnly NodesOnly.trans hr hf

/-! ### The writer -/

theorem writeCmp_writerOnly (a : Nat) (v : Byte) (s : State) : WriterOnly s (writeCmp a v s).state := by
  have h := writeCmp_frame a v s
  unfold WriterOnly
  rw [h]

theorem writeCmpBytes_writerOnly (a : Nat) (vs : List Byte) (s : State) :
    WriterOnly s (writeCmpBytes a vs s).state := by
  have h := writeCmpBytes_frame vs a s
  unfold WriterOnly
  rw [h]

theorem bwOpenRun_frame (s : State) : WriterOnly s (bwOpenRun s).state := by
  refine WriterOnly.andThen ?_ fun _ t => ?_
  · rcases openWriteCmp_cases s with ⟨-, h⟩ | ⟨_, -, h⟩ <;> rw [h] <;> rfl
  · refine WriterOnly.trans ?_ (writeCmpBytes_writerOnly _ _ _)
    rfl

theorem bwWriteBit_frame (b : Bool) (s : State) : WriterOnly s (bwWriteBit b s).state := by
  unfold bwWriteBit
  split
  · rfl
  · dsimp only
    split
    · refine WriterOnly.andThen ?_ fun _ _ => rfl
      refine WriterOnly.trans ?_ (writeCmp_writerOnly _ _ _)
      rfl
    · rfl

theorem bwFlush_frame (s : State) : WriterOnly s (bwFlush s).state := by
  unfold bwFlush
  split
  · rfl
  · exact WriterOnly.andThen (writeCmp_writerOnly _ _ _) fun _ _ => rfl

theorem bwCloseRun_frame (s : State) : WriterOnly s (bwCloseRun s).state :=
  WriterOnly.andThen (bwFlush_frame s) fun _ _ =>
    WriterOnly.andThen (writeCmpBytes_writerOnly _ _ _) fun _ _ => rfl

theorem bwCloseQuiet_writerOnly (s : State) : WriterOnly s (bwCloseQuiet s) := by
  unfold WriterOnly
  rw [bwCloseQuiet_frame]

theorem writeBits_frame (bs : Bits) (s : State) : WriterOnly s (writeBits bs s).state := by
  induction bs generalizing s with
  | nil => rfl
  | cons b bs ih => exact WriterOnly.andThen (bwWriteBit_frame b s) fun _ t => ih t

/-! ### The encoder -/

theorem encSymbol_frame (sym : Symbol) (s : State) : WriterOnly s (encSymbol sym s).state := by
  unfold encSymbol
  split
  · rfl
  · exact writeBits_frame _ s

theorem encLoop_frame (remaining i : Nat) (s : State) : WriterOnly s (encLoop remaining i s).state := by
  induction remaining generalizing i s with
  | zero => rfl
  | succ n ih =>
    refine WriterOnly.andThen ?_ fun sym t =>
      WriterOnly.andThen (encSymbol_frame sym t) fun _ u => ih (i + 1) u
    rcases readSrc_cases i s with ⟨-, h⟩ | ⟨_, -, h⟩ <;> rw [h] <;> rfl

theorem encRun_frame (s : State) : WriterOnly s (encRun s).state := by
  refine WriterOnly.andThen (bwOpenRun_frame s) fun _ t =>
    WriterOnly.andThen ?_ fun _ u =>
      WriterOnly.andThen (encLoop_frame _ _ u) fun _ v => bwCloseRun_frame v
  rcases openRead_cases t with ⟨-, h⟩ | ⟨_, -, h⟩ <;> rw [h] <;> rfl

/-! ### The reader -/

theorem readPrefix_frame (as : List Nat) (n : Word) (s : State) : ReaderOnly s (readPrefix as n s).state := by
  induction as generalizing n s with
  | nil => rfl
  | cons a as ih =>
    refine ReaderOnly.andThen ?_ fun v t => ih _ t
    rcases readCmp_cases a s with ⟨-, h⟩ | ⟨_, -, h⟩ <;> rw [h] <;> rfl

theorem brOpenRun_frame (s : State) : ReaderOnly s (brOpenRun s).state := by
  refine ReaderOnly.andThen ?_ fun _ t => ?_
  · rcases openRead_cases s with ⟨-, h⟩ | ⟨_, -, h⟩ <;> rw [h] <;> rfl
  · dsimp only
    split
    · rfl
    · refine ReaderOnly.andThen ?_ fun _ _ => rfl
      refine ReaderOnly.trans ?_ (readPrefix_frame _ _ _)
      rfl

theorem brReadBit_frame (s : State) : ReaderOnly s (brReadBit s).state := by
  unfold brReadBit
  split
  · rfl
  · split
    · split
      · rfl
      · refine ReaderOnly.andThen ?_ fun _ _ => rfl
        rcases readCmp_cases s.brPtr.toNat s with ⟨-, h⟩ | ⟨_, -, h⟩ <;> rw [h] <;> rfl
    · rfl

/-! ### The decoder -/

theorem emit_frame (sym : Symbol) (s : State) : OutputOnly s (emit sym s).state := by
  unfold emit
  split
  · rfl
  · rcases writeOut_cases s.out.len.toNat sym s with ⟨-, h⟩ | ⟨_, -, h⟩ <;> rw [h] <;> rfl

theorem decDescend_frame (b : Bool) (s : State) : OutputOnly s (decDescend b s).state := by
  unfold decDescend
  split
  · rfl
  · rfl
  · refine OutputOnly.andThen ?_ fun _ _ => rfl
    refine OutputOnly.trans ?_ (emit_frame _ _)
    rfl

theorem decStep_frame (b : Bool) (s : State) : OutputOnly s (decStep b s).state := by
  unfold decStep
  split
  · rfl
  · exact emit_frame _ s
  · exact decDescend_frame b s

theorem decLoop_frame (fuel : Nat) (s : State) : DecoderOnly s (decLoop fuel s).state := by
  induction fuel generalizing s with
  | zero => rfl
  | succ n ih =>
    refine DecoderOnly.andThen (brReadBit_frame s).decoder fun b t => ?_
    cases b with
    | none => rfl
    | some b => exact DecoderOnly.andThen (decStep_frame b t).decoder fun _ u => ih u

theorem decRun_frame (root : NodeId) (s : State) : DecoderOnly s (decRun root s).state := by
  refine DecoderOnly.andThen (brOpenRun_frame s).decoder fun _ t =>
    DecoderOnly.andThen ?_ fun _ u =>
      DecoderOnly.andThen ?_ fun _ v => ?_
  · rcases openWriteOut_cases t with ⟨-, h⟩ | ⟨_, -, h⟩ <;> rw [h] <;> rfl
  · refine DecoderOnly.trans ?_ (decLoop_frame _ _)
    rfl
  · unfold decFinish
    split <;> rfl

/-! ### The frequency counter and the tree builder -/

theorem fcStep_frame (sym : Symbol) (s : State) : TableOnly s (fcStep sym s).state := by
  unfold fcStep
  split <;> rfl

theorem fcLoop_frame (remaining i : Nat) (s : State) : TableOnly s (fcLoop remaining i s).state := by
  induction remaining generalizing i s with
  | zero => rfl
  | succ n ih =>
    refine TableOnly.andThen ?_ fun sym t =>
      TableOnly.andThen (fcStep_frame sym t) fun _ u => ih (i + 1) u
    rcases readSrc_cases i s with ⟨-, h⟩ | ⟨_, -, h⟩ <;> rw [h] <;> rfl

theorem fcCount_frame (s : State) : TableOnly s (fcCount s).state := by
  refine TableOnly.andThen ?_ fun _ t =>
    TableOnly.andThen (fcLoop_frame _ _ t) fun _ _ => rfl
  rcases openRead_cases { s with ft := [] } with ⟨-, h⟩ | ⟨_, -, h⟩ <;> rw [h] <;> rfl

theorem allocNode_frame (nd : Node) (s : State) : NodesOnly s (allocNode nd s).state := by
  rcases allocNode_cases nd s with ⟨-, h⟩ | ⟨-, h⟩ <;> rw [h]
  · exact .refl s
  · exact ⟨[nd], rfl⟩

theorem tbLeaves_frame (entries : List (Nat × Word)) (q : List NodeId) (s : State) :
    NodesOnly s (tbLeaves entries q s).state := by
  induction entries generalizing q s with
  | nil => exact .refl s
  | cons e entries ih => exact NodesOnly.andThen (allocNode_frame _ s) fun n t => ih _ t

theorem tbMerge_frame (a b : NodeId) (s : State) : NodesOnly s (tbMerge a b s).state := by
  unfold tbMerge
  dsimp only
  split
  · exact .refl s
  · exact allocNode_frame _ s

theorem tbLoop_frame (fuel : Nat) (q : List NodeId) (s : State) : NodesOnly s (tbLoop fuel q s).state := by
  induction fuel generalizing q s with
  | zero => exact .refl s
  | succ n ih =>
    unfold tbLoop
    split
    · exact .refl s
    · split
      · exact .refl s
      · exact NodesOnly.andThen (tbMerge_frame _ _ s) fun _ t => ih _ t

theorem tbBuild_frame (s : State) : NodesOnly s (tbBuild s).state :=
  NodesOnly.andThen (tbLeaves_frame _ _ s) fun _ t => tbLoop_frame _ _ t

/-! ### Results read from a record -/

theorem fieldOfArg0_state (f : Node → Word) (s : State) : (fieldOfArg0 f s).state = s := by
  unfold fieldOfArg0
  split <;> rfl

theorem sizeRun_state (n : NodeId) (s : State) : (sizeRun n s).state = s := by
  unfold sizeRun
  split <;> rfl

end Sys2Proof.Machine
end

