-- ==== Sys2Proof/Laws/Invariant.lean ====
section
/-! SUPPORT. The invariant `State.Inv` through the micro-operations: one lemma per operation, in the form "from a state
that meets it, the run is good". -/

namespace Sys2Proof.Machine

/-- A state with nothing open: what a raise makes of it. -/
def State.shut (s : State) : State := { s with bwOpen := false, brOpen := false }

/-- A good run: the state it returns meets the invariant and `P`; the state it raises in meets it once all is shut. -/
def Run.Good {α : Type} (P : α → State → Prop) : Run α → Prop
  | .done a s => s.Inv ∧ P a s
  | .raised _ s => s.shut.Inv

@[simp] theorem Run.good_done {α : Type} {P : α → State → Prop} {a : α} {s : State} :
    (Run.done a s).Good P ↔ s.Inv ∧ P a s := Iff.rfl

@[simp] theorem Run.good_raised {α : Type} {P : α → State → Prop} {k : FaultKind} {s : State} :
    (Run.raised k s : Run α).Good P ↔ s.shut.Inv := Iff.rfl

/-- Good runs compose. -/
theorem Run.Good.andThen {α β : Type} {P : α → State → Prop} {Q : β → State → Prop} {r : Run α}
    {f : α → State → Run β} (hr : r.Good P) (hf : ∀ a s, s.Inv → P a s → (f a s).Good Q) : (r.andThen f).Good Q := by
  cases r with
  | done a s => exact hf a s hr.1 hr.2
  | raised k s => exact hr

theorem Run.Good.mono {α : Type} {P Q : α → State → Prop} {r : Run α} (hr : r.Good P)
    (hPQ : ∀ a s, P a s → Q a s) : r.Good Q := by
  cases r with
  | done a s => exact ⟨hr.1, hPQ a s hr.2⟩
  | raised k s => exact hr

theorem State.Inv.shut {s : State} (h : s.Inv) : s.shut.Inv :=
  { h with oneOpen := .inl rfl, faultedShut := fun _ => ⟨rfl, rfl⟩, openNotValid := nofun, bufClear := nofun }

theorem State.Inv.setHost {s : State} (h : s.Inv) (ops : List HostOp) : State.Inv { s with host := ops } := { h with }

theorem State.Inv.setRes {s : State} (h : s.Inv) (v : Word) : State.Inv { s with res := v } := { h with }

/-- A raise makes a good state of one that meets the invariant once all is shut (R281). -/
theorem State.raiseFault_inv (k : FaultKind) {s : State} (h : s.shut.Inv) : (s.raiseFault k).Inv := by
  rw [State.raiseFault_frame]
  exact { h with
    cmpOk := State.raiseFault_keeps_ok k h.cmpOk
    oneOpen := .inl rfl, faultedShut := fun _ => ⟨rfl, rfl⟩, openNotValid := nofun, bufClear := nofun }

theorem complete_inv {r : Run Word} (h : r.Good fun _ _ => True) : (complete r).Inv := by
  cases r with
  | done v s => exact h.1.setRes v
  | raised k s => exact State.raiseFault_inv k h

/-! ### Values read from memories and tables -/

theorem State.Inv.nsym_pos (c : Config) : 0 < c.nsym := Nat.pow_pos (by decide)

theorem SymSpaceOk.read_lt {c : Config} {sp : Space Symbol} (h : SymSpaceOk c sp) (a : Nat) :
    (sp.read 0#16 a).toNat < c.nsym := by
  unfold Space.read Memory.get
  cases hg : Memory.get? sp.cells a with
  | none => exact State.Inv.nsym_pos c
  | some v => exact h.symbols _ (Memory.mem_of_get? hg)

theorem State.Inv.node_ok {s : State} (h : s.Inv) {n : NodeId} {nd : Node} (hn : s.node? n = some nd) :
    nd.okAt s.cfg n.toNat = true := by
  obtain ⟨-, hget⟩ := nodeIn_eq_some.mp hn
  obtain ⟨hlt, rfl⟩ := List.getElem?_eq_some_iff.mp hget
  exact h.nodesOk _ hlt

/-! ### The writer -/

theorem writeCmp_good {s : State} (h : s.Inv) {a : Nat} (ha : a < 2 ^ 32) (v : Byte) :
    (writeCmp a v s).Good fun _ t => WriterOnly s t ∧ t.bwOpen = s.bwOpen := by
  have hok := writeCmp_keeps_ok ha v h.cmpOk
  rcases writeCmp_cases a v s with ⟨-, -, he⟩ | ⟨-, -, he⟩ | ⟨left, -, he⟩ <;> rw [he] at hok ⊢
  · exact { h.shut with cmpOk := hok }
  · exact ⟨{ h with cmpOk := hok }, rfl, rfl⟩
  · exact { h.shut with cmpOk := hok }

theorem writeCmpBytes_good (vs : List Byte) {a : Nat} (ha : a + vs.length ≤ 2 ^ 32) {s : State} (h : s.Inv) :
    (writeCmpBytes a vs s).Good fun _ t => WriterOnly s t ∧ t.bwOpen = s.bwOpen := by
  induction vs generalizing a s with
  | nil => exact ⟨h, rfl, rfl⟩
  | cons v vs ih =>
    simp only [List.length_cons] at ha
    refine (writeCmp_good h (by omega) v).andThen fun _ t ht hw => ?_
    exact (ih (a := a + 1) (by omega) ht).mono fun _ u hu => ⟨hw.1.trans hu.1, hu.2.trans hw.2⟩

theorem bwOpenRun_good {s : State} (h : s.Inv) (herr : s.err = none) (hbr : s.brOpen = false) :
    (bwOpenRun s).Good fun _ t => t.bwOpen = true := by
  have hopen : (openWriteCmp s).Good fun _ t => WriterOnly s t := by
    rcases openWriteCmp_cases s with ⟨-, he⟩ | ⟨_, -, he⟩ <;> rw [he]
    · exact ⟨{ h with cmpOk := (h.cmpOk.setLen _) }, rfl⟩
    · exact { h.shut with }
  refine hopen.andThen fun _ t ht hw => ?_
  have herr' : t.err = none := (congrArg State.err hw).trans herr
  have hbr' : t.brOpen = false := (congrArg State.brOpen hw).trans hbr
  have hopened : State.Inv { t with cmpValid := false, bwBuf := 0#8, bwNbuf := 0#3, bwTotal := 0#32,
                                    bwOpen := true } :=
    { ht with
      oneOpen := .inr hbr', faultedShut := fun he => absurd herr' he, openNotValid := fun _ => rfl,
      bufClear := fun _ => rfl }
  exact (writeCmpBytes_good _ (by simp) hopened).mono fun _ _ hu => hu.2

/-- Filling a bit keeps the unfilled positions at 0 (R31, R122). -/
theorem setBit_keeps_clear : ∀ (n : BitVec 3) (v : Byte) (b : Bool), n ≠ 7#3 → v.toNat % 2 ^ (8 - n.toNat) = 0 →
    (setBit v (7 - n.toNat) b).toNat % 2 ^ (8 - (n + 1#3).toNat) = 0 := by
  decide +kernel

theorem bwWriteBit_good {s : State} (h : s.Inv) (b : Bool) :
    (bwWriteBit b s).Good fun _ t => t.bwOpen = s.bwOpen := by
  unfold bwWriteBit
  split
  · exact h.shut
  · dsimp only
    split
    · have hok := writeCmp_keeps_ok (s := { s with bwBuf := setBit s.bwBuf (7 - s.bwNbuf.toNat) b,
                                                   bwTotal := s.bwTotal + 1#32 })
        s.cmp.len.isLt (setBit s.bwBuf (7 - s.bwNbuf.toNat) b) h.cmpOk
      rcases writeCmp_cases s.cmp.len.toNat (setBit s.bwBuf (7 - s.bwNbuf.toNat) b)
        { s with bwBuf := setBit s.bwBuf (7 - s.bwNbuf.toNat) b, bwTotal := s.bwTotal + 1#32 }
        with ⟨-, -, he⟩ | ⟨-, -, he⟩ | ⟨left, -, he⟩ <;> rw [he] at hok ⊢
      · exact { h.shut with cmpOk := hok, bufClear := nofun }
      · exact ⟨{ h with cmpOk := hok, bufClear := fun _ => rfl }, rfl⟩
      · exact { h.shut with cmpOk := hok, bufClear := nofun }
    · next hn => exact ⟨{ h with bufClear := fun ho => setBit_keeps_clear _ _ _ hn (h.bufClear ho) }, rfl⟩

theorem bwFlush_good {s : State} (h : s.Inv) : (bwFlush s).Good fun _ _ => True := by
  unfold bwFlush
  split
  · exact ⟨h, trivial⟩
  · refine (writeCmp_good h s.cmp.len.isLt _).andThen fun _ t ht _ => ⟨?_, trivial⟩
    exact { ht with bufClear := fun _ => rfl }

theorem bwCloseRun_good {s : State} (h : s.Inv) : (bwCloseRun s).Good fun _ t => t.bwOpen = false := by
  refine (bwFlush_good h).andThen fun _ t ht _ =>
    (writeCmpBytes_good _ (by simp) ht).andThen fun _ u hu _ => ⟨?_, rfl⟩
  exact { hu with
    oneOpen := .inl rfl, faultedShut := fun he => ⟨rfl, (hu.faultedShut he).2⟩, openNotValid := nofun
    bufClear := nofun }

theorem bwCloseQuiet_inv {s : State} (h : s.Inv) : (bwCloseQuiet s).Inv := by
  rw [bwCloseQuiet_frame]
  exact { h with
    cmpOk := bwCloseQuiet_keeps_ok h.cmpOk
    oneOpen := .inl rfl, faultedShut := fun he => ⟨rfl, (h.faultedShut he).2⟩, openNotValid := nofun
    bufClear := nofun }

/-! ### The encoder -/

theorem writeBits_good (bs : Bits) {s : State} (h : s.Inv) : (writeBits bs s).Good fun _ _ => True := by
  induction bs generalizing s with
  | nil => exact ⟨h, trivial⟩
  | cons b bs ih => exact (bwWriteBit_good h b).andThen fun _ t ht _ => ih ht

theorem encSymbol_good (sym : Symbol) {s : State} (h : s.Inv) : (encSymbol sym s).Good fun _ _ => True := by
  unfold encSymbol
  split
  · exact h.shut
  · exact writeBits_good _ h

theorem readSrc_good (a : Nat) {s : State} (h : s.Inv) :
    (readSrc a s).Good fun sym t => sym.toNat < t.cfg.nsym := by
  rcases readSrc_cases a s with ⟨-, he⟩ | ⟨_, -, he⟩ <;> rw [he]
  · exact ⟨{ h with }, h.srcOk.read_lt a⟩
  · exact { h.shut with }

theorem openRead_good {s : State} (h : s.Inv) :
    (openRead s).Good fun _ t => t = { s with env := t.env } := by
  rcases openRead_cases s with ⟨-, he⟩ | ⟨_, -, he⟩ <;> rw [he]
  · exact ⟨{ h with }, rfl⟩
  · exact { h.shut with }

theorem encLoop_good (remaining i : Nat) {s : State} (h : s.Inv) :
    (encLoop remaining i s).Good fun _ _ => True := by
  induction remaining generalizing i s with
  | zero => exact ⟨h, trivial⟩
  | succ n ih =>
    exact (readSrc_good i h).andThen fun sym t ht _ => (encSymbol_good sym ht).andThen fun _ u hu _ => ih (i + 1) hu

theorem encRun_good {s : State} (h : s.Inv) (herr : s.err = none) (hbr : s.brOpen = false) :
    (encRun s).Good fun _ t => t.bwOpen = false :=
  (bwOpenRun_good h herr hbr).andThen fun _ _ ht _ => (openRead_good ht).andThen fun _ _ hu _ =>
    (encLoop_good _ _ hu).andThen fun _ _ hv _ => bwCloseRun_good hv

/-! ### The reader -/

theorem readCmp_good (a : Nat) {s : State} (h : s.Inv) :
    (readCmp a s).Good fun _ t => t = { s with env := t.env } := by
  rcases readCmp_cases a s with ⟨-, he⟩ | ⟨_, -, he⟩ <;> rw [he]
  · exact ⟨{ h with }, rfl⟩
  · exact { h.shut with }

theorem readPrefix_good (as : List Nat) (n : Word) {s : State} (h : s.Inv) :
    (readPrefix as n s).Good fun _ _ => True := by
  induction as generalizing n s with
  | nil => exact ⟨h, trivial⟩
  | cons a as ih => exact (readCmp_good a h).andThen fun v t ht _ => ih _ ht

theorem brOpenRun_good {s : State} (h : s.Inv) (herr : s.err = none) (hbw : s.bwOpen = false) :
    (brOpenRun s).Good fun _ _ => True := by
  refine (openRead_good h).andThen fun _ t ht hw => ?_
  have herr' : t.err = none := (congrArg State.err hw).trans herr
  have hbw' : t.bwOpen = false := (congrArg State.bwOpen hw).trans hbw
  have hopened : State.Inv { t with brOpen := true, brShort := false, brBuf := 0#8, brNbuf := 0#4, brRem := 0#32,
                                    brPtr := 0#32 } :=
    { ht with
      oneOpen := .inl hbw', faultedShut := fun he => absurd herr' he, brNbufRange := by simp }
  dsimp only
  split
  · exact ⟨{ hopened with }, trivial⟩
  · exact (readPrefix_good _ _ hopened).andThen fun n u hu _ => ⟨{ hu with }, trivial⟩

theorem brDeliver_good {s : State} (h : s.Inv) (hn : s.brNbuf ≠ 0#4) : (brDeliver s).Good fun _ _ => True := by
  refine ⟨{ h with brNbufRange := ?_ }, trivial⟩
  have := h.brNbufRange
  have : s.brNbuf.toNat ≠ 0 := fun h0 => hn (BitVec.eq_of_toNat_eq h0)
  have hlt := s.brNbuf.isLt
  simp only [BitVec.toNat_sub, BitVec.toNat_ofNat]
  omega

theorem brReadBit_good {s : State} (h : s.Inv) : (brReadBit s).Good fun _ _ => True := by
  unfold brReadBit
  split
  · exact ⟨h, trivial⟩
  · split
    · split
      · exact ⟨{ h with }, trivial⟩
      · refine (readCmp_good _ h).andThen fun v t ht _ => brDeliver_good ?_ (by simp)
        exact { ht with brNbufRange := by simp }
    · next hn => exact brDeliver_good h hn

/-! ### The decoder -/

theorem emit_good {s : State} (h : s.Inv) {sym : Symbol} (hsym : sym.toNat < s.cfg.nsym) :
    (emit sym s).Good fun _ _ => True := by
  unfold emit
  split
  · exact h.shut
  · rcases writeOut_cases s.out.len.toNat sym s with ⟨-, he⟩ | ⟨left, -, he⟩ <;> rw [he]
    · exact ⟨{ h with outOk := (h.outOk.put s.out.len.isLt hsym) }, trivial⟩
    · exact { h.shut with outOk := h.outOk.store s.out.len.isLt (symCell_lt s.cfg left) }

theorem decDescend_good {s : State} (h : s.Inv) (b : Bool) : (decDescend b s).Good fun _ _ => True := by
  unfold decDescend
  split
  · exact h.shut
  · next hn => exact ⟨{ h with decCurOk := .inr (by rw [State.node?] at hn ⊢; simp [hn]) }, trivial⟩
  · next sym w hn =>
    have hcur : State.Inv { s with decCur := s.childAt b } :=
      { h with decCurOk := .inr (by rw [State.node?] at hn ⊢; simp [hn]) }
    refine (emit_good hcur (by simpa [Node.okAt] using h.node_ok hn)).andThen fun _ t ht _ => ⟨?_, trivial⟩
    exact { ht with decCurOk := ht.decRootOk }

theorem decStep_good {s : State} (h : s.Inv) (b : Bool) : (decStep b s).Good fun _ _ => True := by
  unfold decStep
  split
  · exact h.shut
  · next hn => exact emit_good h (by simpa [Node.okAt] using h.node_ok hn)
  · exact decDescend_good h b

theorem decLoop_good (fuel : Nat) {s : State} (h : s.Inv) : (decLoop fuel s).Good fun _ _ => True := by
  induction fuel generalizing s with
  | zero => exact ⟨h, trivial⟩
  | succ n ih =>
    refine (brReadBit_good h).andThen fun b t ht _ => ?_
    cases b with
    | none => exact ⟨ht, trivial⟩
    | some b => exact (decStep_good ht b).andThen fun _ u hu _ => ih hu

theorem decFinish_good {s : State} (h : s.Inv) : (decFinish s).Good fun _ _ => True := by
  unfold decFinish
  split
  · exact h.shut
  · exact ⟨{ h with oneOpen := .inr rfl, faultedShut := fun he => ⟨(h.faultedShut he).1, rfl⟩ }, trivial⟩

theorem decRun_good {s : State} (h : s.Inv) (herr : s.err = none) (hbw : s.bwOpen = false) {root : NodeId}
    (hroot : root = nilId ∨ (s.node? root).isSome = true) : (decRun root s).Good fun _ _ => True := by
  have hframe := brOpenRun_frame s
  have hgood := brOpenRun_good h herr hbw
  unfold decRun
  cases he : brOpenRun s with
  | raised k t => rw [he] at hgood; exact hgood
  | done n t =>
    rw [he] at hgood hframe
    simp only [Run.state_done] at hframe
    have ht : t.Inv := hgood.1
    have hsame : t.nodes = s.nodes := (congrArg State.nodes hframe).trans rfl
    have hn : ∀ x, t.node? x = s.node? x := fun x => by rw [State.node?, State.node?, hsame]
    have hout : (openWriteOut t).Good fun _ u => u.nodes = t.nodes := by
      rcases openWriteOut_cases t with ⟨-, he⟩ | ⟨_, -, he⟩ <;> rw [he]
      · exact ⟨{ ht with outOk := (ht.outOk.setLen _) }, rfl⟩
      · exact { ht.shut with }
    refine hout.andThen fun _ u hu hnodes => ?_
    have hroot' : root = nilId ∨ (u.node? root).isSome = true := by
      rw [State.node?, hnodes, ← State.node?, hn]; exact hroot
    have hstart : State.Inv { u with outValid := false, decRoot := root, decCur := root } :=
      { hu with decRootOk := hroot', decCurOk := hroot' }
    exact (decLoop_good _ hstart).andThen fun _ v hv _ => decFinish_good hv

/-! ### The frequency counter -/

theorem fcStep_good {s : State} (h : s.Inv) {sym : Symbol} (hsym : sym.toNat < s.cfg.nsym) :
    (fcStep sym s).Good fun _ _ => True := by
  unfold fcStep
  split
  · exact h.shut
  · refine ⟨{ h with ftCanonical := Memory.wf_set h.ftCanonical _ _, ftSymbols := fun e he => ?_ }, trivial⟩
    rcases Memory.mem_set he with ⟨rfl, -⟩ | he
    · exact hsym
    · exact h.ftSymbols e he

theorem fcLoop_good (remaining i : Nat) {s : State} (h : s.Inv) :
    (fcLoop remaining i s).Good fun _ _ => True := by
  induction remaining generalizing i s with
  | zero => exact ⟨h, trivial⟩
  | succ n ih =>
    exact (readSrc_good i h).andThen fun sym t ht hsym =>
      (fcStep_good ht hsym).andThen fun _ u hu _ => ih (i + 1) hu

theorem fcCount_good {s : State} (h : s.Inv) : (fcCount s).Good fun _ _ => True := by
  have hclear : State.Inv { s with ft := [] } := { h with ftCanonical := rfl, ftSymbols := by simp }
  exact (openRead_good hclear).andThen fun _ t ht _ => (fcLoop_good _ _ ht).andThen fun _ u hu _ => ⟨hu, trivial⟩

/-! ### The node store and the tree builder -/

/-- A valid id or `NIL`, in a store of `count` records: what a child of the next record must be. -/
theorem childBelow_of_node {s : State} {n : NodeId} (h : n = nilId ∨ (s.node? n).isSome = true) :
    childBelow s.nodes.length n = true := by
  unfold childBelow
  rcases h with rfl | h
  · simp
  · obtain ⟨nd, hnd⟩ := Option.isSome_iff_exists.mp h
    have := (List.getElem?_eq_some_iff.mp (nodeIn_eq_some.mp hnd).2).1
    simp [this]

/-- The id of a new record is valid. -/
theorem node?_nodeCnt {s : State} (h : s.nodes.length < s.cfg.nodesMax.toNat) (nd : Node) :
    State.node? { s with nodes := s.nodes ++ [nd] } s.nodeCnt = some nd := by
  have hcnt := State.nodeCnt_toNat h
  have hmax := s.cfg.nodesMax.isLt
  refine nodeIn_eq_some.mpr ⟨fun heq => ?_, by rw [hcnt]; simp⟩
  have : s.nodeCnt.toNat = 2 ^ 32 - 1 := by rw [heq]; rfl
  omega

/-- An allocation of a record that may stand next (R29) keeps the invariant and answers its id. -/
theorem allocNode_good {s : State} (h : s.Inv) {nd : Node} (hnd : nd.okAt s.cfg s.nodes.length = true) :
    (allocNode nd s).Good fun n t => (t.node? n).isSome = true ∧ n.toNat < t.nodes.length ∧
      n ≠ nilId ∧ t.nodes = s.nodes ++ [nd] := by
  rcases allocNode_cases nd s with ⟨-, he⟩ | ⟨hlt, he⟩ <;> rw [he]
  · exact h.shut
  · have hvalid : ∀ x, x = nilId ∨ (s.node? x).isSome = true →
        x = nilId ∨ (State.node? { s with nodes := s.nodes ++ [nd] } x).isSome = true := by
      intro x hx
      rcases hx with hx | hx
      · exact .inl hx
      · obtain ⟨v, hv⟩ := Option.isSome_iff_exists.mp hx
        exact .inr (by rw [State.node?, nodeIn_append hv]; rfl)
    refine ⟨{ h with
      nodesFit := by simp only [List.length_append, List.length_singleton]; omega
      nodesOk := fun i hi => ?_
      decRootOk := hvalid _ h.decRootOk
      decCurOk := hvalid _ h.decCurOk }, by rw [node?_nodeCnt hlt]; rfl, ?_, ?_, rfl⟩
    · simp only [List.length_append, List.length_singleton] at hi
      by_cases hold : i < s.nodes.length
      · simp only [List.getElem_append_left hold]
        exact h.nodesOk i hold
      · obtain rfl : i = s.nodes.length := by omega
        simpa using hnd
    · simp only [List.length_append, List.length_singleton]
      rw [State.nodeCnt_toNat hlt]; omega
    · exact (nodeIn_eq_some.mp (node?_nodeCnt hlt nd)).1

/-- The ids of a queue name records. -/
def QueueOk (s : State) (q : List NodeId) : Prop := ∀ n ∈ q, (s.node? n).isSome = true

theorem QueueOk.append {s t : State} {q : List NodeId} (h : QueueOk s q) {more : List Node}
    (ht : t.nodes = s.nodes ++ more) : QueueOk t q := fun n hn => by
  obtain ⟨v, hv⟩ := Option.isSome_iff_exists.mp (h n hn)
  rw [State.node?, ht, nodeIn_append hv]; rfl

theorem tbLeaves_good (entries : List (Nat × Word)) (q : List NodeId) {s : State} (h : s.Inv)
    (he : ∀ e ∈ entries, e.1 < s.cfg.nsym) (hq : QueueOk s q) :
    (tbLeaves entries q s).Good fun q' t => QueueOk t q' := by
  induction entries generalizing q s with
  | nil => exact ⟨h, hq⟩
  | cons e entries ih =>
    obtain ⟨sym, c⟩ := e
    have hsym : sym < s.cfg.nsym := he (sym, c) (by simp)
    have hleaf : Node.okAt s.cfg s.nodes.length (.leaf (BitVec.ofNat 16 sym) c) = true := by
      have := Nat.mod_le sym (2 ^ 16)
      simp only [Node.okAt, BitVec.toNat_ofNat, decide_eq_true_eq]
      omega
    have hgood := allocNode_good h hleaf
    have hframe := allocNode_frame (.leaf (BitVec.ofNat 16 sym) c) s
    unfold tbLeaves
    cases ha : allocNode (.leaf (BitVec.ofNat 16 sym) c) s with
    | raised k t => rw [ha] at hgood; exact hgood
    | done n t =>
      rw [ha] at hgood hframe
      obtain ⟨more, hmore⟩ := hframe
      simp only [Run.state_done] at hmore
      refine ih _ hgood.1 (fun e h' => ?_) (fun m hm => ?_)
      · rw [show t.cfg = s.cfg by rw [hmore]]
        exact he e (List.mem_cons_of_mem _ h')
      · rcases List.mem_append.mp hm with hm | hm
        · exact hq.append hgood.2.2.2.2 m hm
        · simp only [List.mem_singleton] at hm
          subst hm
          exact hgood.2.1

theorem pqMin_mem (s : State) (n : NodeId) (q : List NodeId) : pqMin s n q ∈ n :: q := by
  induction q generalizing n with
  | nil => simp [pqMin]
  | cons m q ih =>
    unfold pqMin
    split
    · exact List.mem_cons_of_mem _ (ih m)
    · rcases List.mem_cons.mp (ih n) with h | h
      · simp [h]
      · exact List.mem_cons_of_mem _ (List.mem_cons_of_mem _ h)

/-- What is popped, and what is left, was in the queue. -/
theorem pqPopMin_mem {s : State} {q rest : List NodeId} {a : NodeId} (h : pqPopMin s q = some (a, rest)) :
    a ∈ q ∧ ∀ b ∈ rest, b ∈ q := by
  cases q with
  | nil => simp [pqPopMin] at h
  | cons n q =>
    simp only [pqPopMin, Option.some.injEq, Prod.mk.injEq] at h
    obtain ⟨rfl, rfl⟩ := h
    exact ⟨pqMin_mem s n q, fun b hb => List.mem_of_mem_erase hb⟩

theorem tbMerge_good {s : State} (h : s.Inv) {a b : NodeId} (ha : (s.node? a).isSome = true)
    (hb : (s.node? b).isSome = true) :
    (tbMerge a b s).Good fun n t => (t.node? n).isSome = true ∧ ∃ more, t.nodes = s.nodes ++ more := by
  unfold tbMerge
  dsimp only
  split
  · exact h.shut
  · refine (allocNode_good h ?_).mono fun n t ht => ⟨ht.1, _, ht.2.2.2⟩
    simp [Node.okAt, childBelow_of_node (.inr ha), childBelow_of_node (.inr hb)]

theorem tbLoop_good (fuel : Nat) (q : List NodeId) {s : State} (h : s.Inv) (hq : QueueOk s q) :
    (tbLoop fuel q s).Good fun n t => n = nilId ∨ (t.node? n).isSome = true := by
  induction fuel generalizing q s with
  | zero => exact ⟨h, .inl rfl⟩
  | succ n ih =>
    unfold tbLoop
    split
    · exact ⟨h, .inl rfl⟩
    · next a q1 hpop1 =>
      have h1 := pqPopMin_mem hpop1
      split
      · exact ⟨h, .inr (hq a h1.1)⟩
      · next b q2 hpop2 =>
        have h2 := pqPopMin_mem hpop2
        refine (tbMerge_good h (hq a h1.1) (hq b (h1.2 b h2.1))).andThen fun m t ht hm => ih _ ht fun x hx => ?_
        obtain ⟨hm, more, hmore⟩ := hm
        rcases List.mem_append.mp hx with hx | hx
        · exact hq.append hmore x (h1.2 x (h2.2 x hx))
        · simp only [List.mem_singleton] at hx
          subst hx
          exact hm

theorem tbBuild_good {s : State} (h : s.Inv) :
    (tbBuild s).Good fun n t => n = nilId ∨ (t.node? n).isSome = true :=
  (tbLeaves_good s.ft [] h h.ftSymbols (by simp [QueueOk])).andThen fun q _ ht hq => tbLoop_good _ q ht hq

/-! ### The codebook -/

/-- Every leaf of the tree an id names carries a symbol below `NSYM`. -/
theorem unfoldTree_leaves_lt {s : State} (h : s.Inv) (fuel : Nat) (n : NodeId) :
    ∀ sym ∈ (unfoldTree s.nodes fuel n).leaves, sym.toNat < s.cfg.nsym := by
  induction fuel generalizing n with
  | zero => simp [unfoldTree, Tree.leaves]
  | succ fuel ih =>
    unfold unfoldTree
    split
    · simp [Tree.leaves]
    · next sym w hn => simpa [Tree.leaves, Node.okAt] using h.node_ok (n := n) hn
    · next l r w hn =>
      intro sym hsym
      rcases List.mem_append.mp hsym with hs | hs
      · exact ih l sym hs
      · exact ih r sym hs

/-- The walk keeps a codebook sorted and in range, if it starts with a codeword that is not empty or at an internal
node (R33, R186). -/
theorem Tree.walk_keeps (t : Tree) (nsym : Nat) : ∀ (acc : Bits) (cb : List (Nat × Bits)),
    (acc ≠ [] ∨ ∀ sym w, t ≠ .leaf sym w) → (∀ sym ∈ t.leaves, sym.toNat < nsym) → Memory.rising 0 cb = true →
    (∀ e ∈ cb, e.1 < nsym ∧ e.2 ≠ []) →
    Memory.rising 0 (t.walk acc cb) = true ∧ ∀ e ∈ t.walk acc cb, e.1 < nsym ∧ e.2 ≠ [] := by
  induction t with
  | empty => intro acc cb _ _ hr he; exact ⟨hr, he⟩
  | leaf sym w =>
    intro acc cb hacc hlt hr he
    refine ⟨Memory.rising_insert hr (Nat.zero_le _), fun e h => ?_⟩
    rcases Memory.mem_insert h with rfl | h
    · exact ⟨hlt sym (by simp [Tree.leaves]), hacc.resolve_right fun hne => hne sym w rfl⟩
    · exact he e h
  | inner l r w ihl ihr =>
    intro acc cb _ hlt hr he
    have h1 := ihl (acc ++ [false]) cb (.inl (by simp)) (fun s hs => hlt s (List.mem_append_left _ hs)) hr he
    exact ihr (acc ++ [true]) _ (.inl (by simp)) (fun s hs => hlt s (List.mem_append_right _ hs)) h1.1 h1.2

theorem Tree.codebook_ok (t : Tree) (nsym : Nat) (h : ∀ sym ∈ t.leaves, sym.toNat < nsym) :
    Memory.rising 0 t.codebook = true ∧ ∀ e ∈ t.codebook, e.1 < nsym ∧ e.2 ≠ [] := by
  cases t with
  | empty => exact ⟨rfl, by simp [Tree.codebook]⟩
  | leaf sym w => exact Tree.walk_keeps _ nsym _ _ (.inl (by simp)) h rfl (by simp)
  | inner l r w => exact Tree.walk_keeps _ nsym _ _ (.inr (by simp)) h rfl (by simp)

theorem cbDerive_good {s : State} (h : s.Inv) (root : NodeId) :
    (cbDerive root s).Good fun _ t => t = { s with cb := t.cb } := by
  have hcb := Tree.codebook_ok (s.tree root) s.cfg.nsym (unfoldTree_leaves_lt h _ _)
  exact ⟨{ h with cbCanonical := hcb.1, cbEntries := hcb.2 }, rfl⟩

/-! ### A fresh session -/

theorem State.resetOf_inv {c : Config} (h : c.wf = true) {t : State} (hsrc : SymSpaceOk c t.src)
    (hcmp : ByteSpaceOk t.cmp) (hout : SymSpaceOk c t.out)
    (ht : t = { State.resetOf c with arg0 := t.arg0, arg1 := t.arg1, arg2 := t.arg2, src := t.src, cmp := t.cmp,
                                     out := t.out, env := t.env, host := t.host }) : t.Inv := by
  rw [ht]
  exact {
    cfgWf := h, srcOk := hsrc, cmpOk := hcmp, outOk := hout, ftCanonical := rfl, ftSymbols := by simp,
    cbCanonical := rfl, cbEntries := by simp, nodesFit := by simp, nodesOk := by simp, decRootOk := .inl rfl,
    decCurOk := .inl rfl, oneOpen := .inl rfl, faultedShut := by simp, openNotValid := by simp,
    bufClear := by simp, brNbufRange := by simp }

theorem State.Inv.clearSession {s : State} (h : s.Inv) : s.clearSession.Inv :=
  State.resetOf_inv h.cfgWf h.srcOk h.cmpOk h.outOk rfl

theorem State.Inv.freshSession {s : State} (h : s.Inv) : s.freshSession.Inv := h.clearSession.setRes s.res

theorem State.Inv.applyReset {s : State} (h : s.Inv) : s.applyReset.Inv :=
  State.resetOf_inv h.cfgWf h.srcOk h.cmpOk h.outOk rfl

theorem sysClear_good {s : State} (h : s.Inv) : (sysClear s).Good fun _ _ => True := by
  unfold sysClear
  split
  · exact ⟨(bwCloseQuiet_inv h).clearSession, trivial⟩
  · exact ⟨h.clearSession, trivial⟩

/-! ### `SES.RUN` -/

/-- The stages up to the codebook: nothing opened, no kind recorded, and the root is `NIL` or a valid id. -/
theorem sesStages_good {s : State} (h : s.Inv) :
    (sesStages s).Good fun root t =>
      (root = nilId ∨ (t.node? root).isSome = true) ∧ t.err = none ∧ t.bwOpen = false ∧ t.brOpen = false := by
  have hf := fcCount_frame s.freshSession
  have hg := fcCount_good h.freshSession
  unfold sesStages
  cases hfc : fcCount s.freshSession with
  | raised k t => rw [hfc] at hg; exact hg
  | done v s1 =>
    rw [hfc] at hf hg
    simp only [Run.state_done] at hf
    have hgb := tbBuild_good hg.1
    have hfb := tbBuild_frame s1
    simp only [Run.andThen_done]
    cases hb : tbBuild s1 with
    | raised k t => rw [hb] at hgb; exact hgb
    | done root s2 =>
      rw [hb] at hgb hfb
      obtain ⟨more, hmore⟩ := hfb
      simp only [Run.state_done] at hmore
      simp only [Run.andThen_done]
      refine (cbDerive_good hgb.1 root).andThen fun _ s3 h3 hs3 => ⟨h3, ?_⟩
      refine ⟨?_, ?_, ?_, ?_⟩
      · rw [hs3]; exact hgb.2
      all_goals rw [hs3, hmore, hf]; rfl

theorem sesRun_good {s : State} (h : s.Inv) : (sesRun s).Good fun _ _ => True := by
  refine (sesStages_good h).andThen fun root s3 h3 hs3 => ?_
  obtain ⟨hroot, herr, hbw, hbr⟩ := hs3
  have hf := encRun_frame s3
  have hg := encRun_good h3 herr hbr
  cases he : encRun s3 with
  | raised k t => rw [he] at hg; exact hg
  | done v s4 =>
    rw [he] at hf hg
    simp only [Run.state_done] at hf
    have hnode : s4.node? root = s3.node? root := by rw [State.node?, hf]; rfl
    simp only [Run.andThen_done]
    refine (decRun_good hg.1 ((congrArg State.err hf).trans herr) hg.2 ?_).andThen fun _ t ht _ => ⟨ht, trivial⟩
    rw [hnode]; exact hroot

end Sys2Proof.Machine
end

