-- ==== Sys2Proof/Laws/PerInstr.lean ====
section
/-! SUPPORT. Statements for all commands, made per command: the command word has no bit above its opcode field (R90). -/

namespace Sys2Proof.Laws.EncodesInLowByte

/-- `CMD[31:8]` of a command's word is 0 (R90). -/
def Statement (i : Instr) : Prop := upperField (encode i) = 0#24

theorem sysClear : Statement .sysClear := by
  unfold Statement; decide

theorem sesRun : Statement .sesRun := by
  unfold Statement; decide

theorem fcCount : Statement .fcCount := by
  unfold Statement; decide

theorem treeLeaf : Statement .treeLeaf := by
  unfold Statement; decide

theorem treeNode : Statement .treeNode := by
  unfold Statement; decide

theorem treeIsLeaf : Statement .treeIsLeaf := by
  unfold Statement; decide

theorem treeSym : Statement .treeSym := by
  unfold Statement; decide

theorem treeLeft : Statement .treeLeft := by
  unfold Statement; decide

theorem treeRight : Statement .treeRight := by
  unfold Statement; decide

theorem treeWeight : Statement .treeWeight := by
  unfold Statement; decide

theorem treeSize : Statement .treeSize := by
  unfold Statement; decide

theorem treeEq : Statement .treeEq := by
  unfold Statement; decide

theorem tbBuild : Statement .tbBuild := by
  unfold Statement; decide

theorem cbDerive : Statement .cbDerive := by
  unfold Statement; decide

theorem bwOpen : Statement .bwOpen := by
  unfold Statement; decide

theorem bwClose : Statement .bwClose := by
  unfold Statement; decide

theorem bwWrite (b : Bool) : Statement (.bwWrite b) := by
  cases b <;> (unfold Statement; decide)

theorem brOpen : Statement .brOpen := by
  unfold Statement; decide

theorem brRead : Statement .brRead := by
  unfold Statement; decide

theorem brClose : Statement .brClose := by
  unfold Statement; decide

theorem encRun : Statement .encRun := by
  unfold Statement; decide

theorem decRun : Statement .decRun := by
  unfold Statement; decide

end Sys2Proof.Laws.EncodesInLowByte
end

