-- ==== Sys2Proof/Laws/Reset.lean ====
section
/-! SUPPORT. A reset while a command runs (R310): what it leaves of a memory, by what the command may have done to it, and
that the invariant holds afterwards. -/

namespace Sys2Proof.Machine

/-! ### Parts of a canonical list -/

theorem Memory.rising_filter {α : Type} {lo : Nat} {m : List (Nat × α)} (h : Memory.rising lo m = true)
    (p : Nat × α → Bool) : Memory.rising lo (m.filter p) = true := by
  induction m generalizing lo with
  | nil => rfl
  | cons e m ih =>
    simp only [Memory.rising_cons] at h
    rw [List.filter_cons]
    split
    · exact (Memory.rising_cons ..).mpr ⟨h.1, ih h.2⟩
    · exact Memory.rising_mono (ih h.2) (by omega)

theorem Memory.rising_append {α : Type} {lo hi : Nat} {m n : List (Nat × α)} (hm : Memory.rising lo m = true)
    (hlt : ∀ e ∈ m, e.1 < hi) (hle : lo ≤ hi) (hn : Memory.rising hi n = true) :
    Memory.rising lo (m ++ n) = true := by
  induction m generalizing lo with
  | nil => exact Memory.rising_mono hn hle
  | cons e m ih =>
    simp only [Memory.rising_cons] at hm
    refine (Memory.rising_cons ..).mpr ⟨hm.1, ih hm.2 (fun x hx => hlt x (List.mem_cons_of_mem _ hx)) ?_⟩
    exact hlt e (List.mem_cons_self ..)

/-- Entries at or above `hi` rise from `hi`. -/
theorem Memory.rising_of_le {α : Type} {lo hi : Nat} {m : List (Nat × α)} (hm : Memory.rising lo m = true)
    (hle : ∀ e ∈ m, hi ≤ e.1) : Memory.rising hi m = true := by
  cases m with
  | nil => rfl
  | cons e m =>
    simp only [Memory.rising_cons] at hm ⊢
    exact ⟨hle e (List.mem_cons_self ..), hm.2⟩

theorem Memory.get?_append {α : Type} (m n : List (Nat × α)) (a : Nat) :
    Memory.get? (m ++ n) a = (Memory.get? m a).or (Memory.get? n a) := by
  induction m with
  | nil => rfl
  | cons e m ih =>
    simp only [List.cons_append, Memory.get?_cons, ih]
    split <;> rfl

theorem Memory.get?_filter {α : Type} (p : Nat → Bool) (m : List (Nat × α)) (a : Nat) :
    Memory.get? (m.filter fun e => p e.1) a = if p a then Memory.get? m a else none := by
  induction m with
  | nil => simp
  | cons e m ih =>
    rw [List.filter_cons, Memory.get?_cons]
    by_cases he : e.1 = a
    · subst he
      by_cases hp : p e.1 = true
      · simp [hp, Memory.get?_cons]
      · simp [hp, ih]
    · by_cases hp : p e.1 = true <;> simp [hp, he, Memory.get?_cons, ih]

/-! ### A memory a command has left -/

section

variable {α : Type} [DecidableEq α] {d : α} {sp : Space α} {left : List (Word × α)} {len : Word}

@[simp] theorem Space.abandoned_kept : sp.abandoned d left len .kept = sp := rfl

@[simp] theorem Space.abandoned_opened_cells : (sp.abandoned d left len .opened).cells = sp.cells := rfl

/-- The cells below the first one the command might have written are kept; from it on they are what the host finds. -/
theorem Space.read_abandoned (first : Word) (a : Nat) :
    (sp.abandoned d left len (.written first)).read d a =
      if a < first.toNat then sp.read d a else Memory.get d (Memory.ofWrites d left) a := by
  simp only [Space.read, Memory.get, Space.abandoned, Memory.get?_append,
    Memory.get?_filter (fun k => decide (k < first.toNat)), Memory.get?_filter (fun k => decide (first.toNat ≤ k))]
  by_cases h : a < first.toNat
  · simp [h, Nat.not_le.mpr h]
  · simp [h, Nat.not_lt.mp h]

theorem Space.abandoned_wf (h : Memory.wf d sp.cells = true) (t : Touch) :
    Memory.wf d (sp.abandoned d left len t).cells = true := by
  cases t with
  | kept => exact h
  | opened => exact h
  | written first =>
    have hleft := Memory.wf_ofWrites d left
    rw [Memory.wf_iff] at h hleft ⊢
    refine ⟨Memory.rising_append (hi := first.toNat) (Memory.rising_filter h.1 _) ?_ (Nat.zero_le _) ?_, ?_⟩
    · intro e he; simpa using (List.mem_filter.mp he).2
    · exact Memory.rising_of_le (Memory.rising_filter hleft.1 _) fun e he => by simpa using (List.mem_filter.mp he).2
    · intro e he
      rcases List.mem_append.mp he with he | he
      · exact h.2 e (List.mem_filter.mp he).1
      · exact hleft.2 e (List.mem_filter.mp he).1

/-- An entry of what is left was there before or is one of the writes given. -/
theorem Space.mem_abandoned {t : Touch} {e : Nat × α} (h : e ∈ (sp.abandoned d left len t).cells) :
    e ∈ sp.cells ∨ e ∈ Memory.ofWrites d left := by
  cases t with
  | kept => exact .inl h
  | opened => exact .inl h
  | written first =>
    rcases List.mem_append.mp h with h | h
    · exact .inl (List.mem_filter.mp h).1
    · exact .inr (List.mem_filter.mp h).1

end

theorem ByteSpaceOk.abandoned {sp : Space Byte} (h : ByteSpaceOk sp) (left : List (Word × Byte)) (len : Word)
    (t : Touch) : ByteSpaceOk (sp.abandoned 0#8 left len t) where
  canonical := Space.abandoned_wf h.canonical t
  addresses e he := (Space.mem_abandoned he).elim (h.addresses e) fun he => (Memory.mem_ofWrites he).1

theorem SymSpaceOk.abandoned {c : Config} {sp : Space Symbol} (h : SymSpaceOk c sp) (left : List (Word × Symbol))
    (len : Word) (t : Touch) :
    SymSpaceOk c (sp.abandoned 0#16 (left.map fun e => (e.1, symCell c e.2)) len t) where
  canonical := Space.abandoned_wf h.canonical t
  addresses e he := (Space.mem_abandoned he).elim (h.addresses e) fun he => (Memory.mem_ofWrites he).1
  symbols e he := by
    rcases Space.mem_abandoned he with he | he
    · exact h.symbols e he
    · obtain ⟨-, w, hw, hv⟩ := Memory.mem_ofWrites he
      obtain ⟨x, -, rfl⟩ := List.mem_map.mp hw
      rw [← hv]
      exact symCell_lt c x.2

/-! ### What a command touches -/

theorem quietTouch_noWriter {s : State} (h : s.bwOpen = false) : quietTouch s = .kept := by simp [quietTouch, h]

@[simp] theorem Touch.both_kept_left (t : Touch) : Touch.both .kept t = t := by cases t <;> rfl

@[simp] theorem Touch.both_kept_right (t : Touch) : t.both .kept = t := by cases t <;> rfl

/-- A run that leaves the writer closed touches nothing by its raise. -/
theorem raiseTouch_noWriter {α : Type} {r : Run α} (h : r.state.bwOpen = false) : raiseTouch r = .kept := by
  cases r with
  | done a s => rfl
  | raised k s => exact quietTouch_noWriter h

/-- With no writer open only an accepted `BW.OPEN`, `ENC.RUN` or `SES.RUN` touches `CMP`. -/
theorem touchesCmp_noWriter {s : State} {w : Word} (h : s.bwOpen = false)
    (hw : ∀ i ∈ [Instr.bwOpen, .encRun, .sesRun], decode w = .instr i → acceptable i s = false) :
    touchesCmp w s = .kept := by
  have hq := quietTouch_noWriter h
  have hfc : (fcCount s).state.bwOpen = false := by rw [fcCount_frame s]; exact h
  have htb : (tbBuild s).state.bwOpen = false := by obtain ⟨more, he⟩ := tbBuild_frame s; rw [he]; exact h
  have hsz : (sizeRun s.arg0 s).state.bwOpen = false := by rw [sizeRun_state]; exact h
  have hbr : (brReadBit s).state.bwOpen = false := by rw [brReadBit_frame s]; exact h
  unfold touchesCmp
  cases hd : decode w with
  | reject r => simp [hq]
  | instr i =>
    dsimp only
    split
    · rfl
    · split
      · next hacc =>
        have hwriter : ∀ b, i ≠ .bwWrite b ∧ i ≠ .bwClose := fun b => by
          constructor <;> rintro rfl <;> simp [acceptable, precondition, h] at hacc
        have hopen : i ∉ [Instr.bwOpen, .encRun, .sesRun] := fun hi => by simp [hw i hi hd] at hacc
        cases i <;> simp [commandTouchesCmp, hq, raiseTouch_noWriter, hfc, htb, hsz, hbr] at hwriter hopen ⊢
      · exact hq

/-- A word ignored in `FAULTED` touches nothing (R282). -/
theorem touches_faulted {s : State} {w : Word} (h : s.err ≠ none) :
    touchesOut w s = .kept ∧ (decode w ≠ .instr .sysClear → touchesCmp w s = .kept) := by
  obtain ⟨k, hk⟩ := Option.ne_none_iff_exists'.mp h
  unfold touchesOut touchesCmp
  cases decode w with
  | reject r => simp [hk]
  | instr i => simp [hk]; exact fun hi hne => absurd hne hi

theorem State.Inv.resetDuring {s : State} (h : s.Inv) (w : Word) (n : Nat) (cl : List (Word × Byte)) (cn : Word)
    (ol : List (Word × Symbol)) (on : Word) : (resetDuring w n cl cn ol on s).Inv :=
  State.resetOf_inv h.cfgWf h.srcOk (h.cmpOk.abandoned cl cn _) (h.outOk.abandoned ol on _) rfl

end Sys2Proof.Machine
end

