-- ==== Sys2Proof/Laws/Tree.lean ====
section
/-! SUPPORT. Unfolding a tree: any number of levels above the id gives the tree it names. -/

namespace Sys2Proof.Machine

/-- A child of a record of an acyclic store is `NIL` or smaller (R29). -/
theorem childBelow_iff {i : Nat} {n : NodeId} : childBelow i n = true ↔ n = nilId ∨ n.toNat < i := by
  simp [childBelow]

@[simp] theorem unfoldTree_nilId (nodes : List Node) (fuel : Nat) : unfoldTree nodes fuel nilId = .empty := by
  cases fuel <;> simp [unfoldTree]

/-- Any number of levels above the id gives the same tree, in an acyclic store (R29). -/
theorem unfoldTree_levels {c : Config} {nodes : List Node}
    (hok : ∀ i (h : i < nodes.length), Node.okAt c i nodes[i] = true) :
    ∀ (k f g : Nat) (n : NodeId), n.toNat < k → n.toNat < f → n.toNat < g →
      unfoldTree nodes f n = unfoldTree nodes g n := by
  intro k
  induction k with
  | zero => intro f g n hk; omega
  | succ k ih =>
    intro f g n hk hf hg
    obtain ⟨f, rfl⟩ : ∃ x, f = x + 1 := ⟨f - 1, by omega⟩
    obtain ⟨g, rfl⟩ : ∃ x, g = x + 1 := ⟨g - 1, by omega⟩
    unfold unfoldTree
    split
    · rfl
    · rfl
    · next l r w hn =>
      obtain ⟨-, hget⟩ := nodeIn_eq_some.mp hn
      obtain ⟨hlt, hrec⟩ := List.getElem?_eq_some_iff.mp hget
      have hchildren := hok n.toNat hlt
      rw [hrec] at hchildren
      simp only [Node.okAt, Bool.and_eq_true, childBelow_iff] at hchildren
      have hchild : ∀ m : NodeId, (m = nilId ∨ m.toNat < n.toNat) → unfoldTree nodes f m = unfoldTree nodes g m := by
        intro m hm
        rcases hm with rfl | hm
        · simp
        · exact ih f g m (by omega) (by omega) (by omega)
      rw [hchild l hchildren.1, hchild r hchildren.2]

/-- The tree an id names may be unfolded with any number of levels above the id. -/
theorem State.Inv.tree_levels {s : State} (h : s.Inv) {n : NodeId} {f : Nat} (hf : n.toNat < f) :
    unfoldTree s.nodes f n = s.tree n :=
  unfoldTree_levels h.nodesOk (n.toNat + 1) f (n.toNat + 1) n (by omega) hf (by omega)

/-- A tree that is not empty has leaves when it is well-formed. -/
theorem Tree.leaves_ne_nil {t : Tree} (h : t.wf = true) : t.leaves ≠ [] := by
  induction t with
  | empty => simp [Tree.wf] at h
  | leaf sym w => simp [Tree.leaves]
  | inner l r w ihl ihr =>
    simp only [Tree.wf, Bool.and_eq_true] at h
    simp [Tree.leaves, ihl h.1]

end Sys2Proof.Machine
end

