-- ==== Sys2Proof/Tests/Slice0.lean ====
section
/-! SUPPORT. Tests: the checks of WellFormed.lean on ill-formed terms, the decoder on words written out from
spec/30_encoding.md R93, one step of each command against the vectors of spec/95_test_vectors.md, and for every
statement with hypotheses a concrete state that meets them. -/

open Sys2Proof Sys2Proof.Machine

namespace Sys2Proof.Tests

/-! ### Helpers -/

/-- The reset state, `SYM_W = 8`. -/
def base : State := State.reset

/-- A memory holding `vs` from address 0. -/
def space {α : Type} [DecidableEq α] (d : α) (vs : List α) : Space α :=
  { cells := Memory.ofWrites d ((vs.mapIdx fun i v => (BitVec.ofNat 32 i, v)).reverse), len := BitVec.ofNat 32 vs.length }

def bytes (vs : List Byte) : Space Byte := space 0#8 vs

def syms (vs : List Symbol) : Space Symbol := space 0#16 vs

/-- The state a step or a command leaves, if it leaves one. -/
def nextOf : Host.Outcome State Fault Refusal → Option State
  | .next t => some t
  | .fault _ => none
  | .refused _ => none

/-- What a command leaves satisfies `p`. -/
def leads (i : Instr) (s : State) (p : State → Bool) : Bool :=
  match nextOf (exec i s) with
  | some t => p t
  | none => false

/-- `RES` and `STATUS` as the host reads them after a command. -/
def shows (i : Instr) (s : State) (res status : Word) : Bool :=
  leads i s fun t => decide (t.res = res) && decide (t.status = status)

/-- An access that fails and leaves `0xEE` in a written cell. -/
def io : Answer := .ioerr 0xEE#16

/-! ### A decidable form of the invariant -/

def symsCheck (c : Config) (sp : Space Symbol) : Bool :=
  Memory.wf 0#16 sp.cells && sp.cells.all fun e => decide (e.1 < 2 ^ 32) && decide (e.2.toNat < c.nsym)

def bytesCheck (sp : Space Byte) : Bool :=
  Memory.wf 0#8 sp.cells && sp.cells.all fun e => decide (e.1 < 2 ^ 32)

def idCheck (s : State) (n : NodeId) : Bool := decide (n = nilId) || (s.node? n).isSome

def nodesCheck (c : Config) : Nat → List Node → Bool
  | _, [] => true
  | i, nd :: nds => nd.okAt c i && nodesCheck c (i + 1) nds

def invCheck (s : State) : Bool :=
  s.cfg.wf && symsCheck s.cfg s.src && bytesCheck s.cmp && symsCheck s.cfg s.out &&
  Memory.wf 0#32 s.ft && s.ft.all (fun e => decide (e.1 < s.cfg.nsym)) &&
  Memory.rising 0 s.cb && s.cb.all (fun e => decide (e.1 < s.cfg.nsym) && decide (e.2 ≠ [])) &&
  decide (s.nodes.length ≤ s.cfg.nodesMax.toNat) && nodesCheck s.cfg 0 s.nodes &&
  idCheck s s.decRoot && idCheck s s.decCur && (!s.bwOpen || !s.brOpen) &&
  (s.err.isNone || (!s.bwOpen && !s.brOpen)) && (!s.bwOpen || !s.cmpValid) &&
  (!s.bwOpen || decide (s.bwBuf.toNat % 2 ^ (8 - s.bwNbuf.toNat) = 0)) && decide (s.brNbuf.toNat ≤ 8)

theorem nodesCheck_sound {c : Config} {nds : List Node} {k : Nat} (h : nodesCheck c k nds = true) :
    ∀ i (hi : i < nds.length), Node.okAt c (k + i) nds[i] = true := by
  induction nds generalizing k with
  | nil => intro i hi; simp at hi
  | cons nd nds ih =>
    simp only [nodesCheck, Bool.and_eq_true] at h
    intro i hi
    cases i with
    | zero => exact h.1
    | succ i =>
      have := ih h.2 i (by simpa using hi)
      simpa [Nat.add_assoc, Nat.add_comm 1 i] using this

theorem inv_of_check {s : State} (h : invCheck s = true) : s.Inv := by
  simp only [invCheck, symsCheck, bytesCheck, idCheck, Bool.and_eq_true, Bool.or_eq_true, List.all_eq_true,
    decide_eq_true_eq, Bool.not_eq_eq_eq_not, Bool.not_true, Option.isNone_iff_eq_none] at h
  obtain ⟨⟨⟨⟨⟨⟨⟨⟨⟨⟨⟨⟨⟨⟨⟨⟨h1, h2⟩, h3⟩, h4⟩, h5⟩, h6⟩, h7⟩, h8⟩, h9⟩, h10⟩, h11⟩, h12⟩, h13⟩, h14⟩, h15⟩, h16⟩, h17⟩ := h
  exact {
    cfgWf := h1
    srcOk := ⟨h2.1, fun e he => (h2.2 e he).1, fun e he => (h2.2 e he).2⟩
    cmpOk := ⟨h3.1, h3.2⟩
    outOk := ⟨h4.1, fun e he => (h4.2 e he).1, fun e he => (h4.2 e he).2⟩
    ftCanonical := h5, ftSymbols := h6, cbCanonical := h7, cbEntries := h8, nodesFit := h9
    nodesOk := fun i hi => by simpa using nodesCheck_sound h10 i hi
    decRootOk := h11, decCurOk := h12, oneOpen := h13
    faultedShut := fun he => h14.resolve_left he
    openNotValid := fun ho => h15.resolve_left (by simp [ho])
    bufClear := fun ho => h16.resolve_left (by simp [ho])
    brNbufRange := h17 }

/-! ### WellFormed: an ill-formed term for each check -/

/-- R8: `NODES_MAX ≥ 2·NSYM − 1`, at the boundary for `SYM_W = 8` and `SYM_W = 16`. -/
theorem test_config_wf :
    Config.wf { symW := .w8, nodesMax := 511#32 } = true ∧ Config.wf { symW := .w8, nodesMax := 510#32 } = false ∧
    Config.wf { symW := .w16, nodesMax := 131071#32 } = true ∧
    Config.wf { symW := .w16, nodesMax := 131070#32 } = false := by
  decide

/-- R91, R105, R106: wrong operand counts and an empty bit string are refused. -/
theorem test_asmLine_wf :
    AsmLine.wf (.command .treeNode [0#32, 1#32, 2#32]) = true ∧ AsmLine.wf (.command .treeNode [0#32, 1#32]) = false ∧
    AsmLine.wf (.command .sesRun [0#32]) = false ∧ AsmLine.wf (.command (.bwWrite true) []) = true ∧
    AsmLine.wf (.bits [true]) = true ∧ AsmLine.wf (.bits []) = false := by
  decide

/-! ### Decoding: every row of R93, written out bit by bit -/

theorem test_decode_system_and_tables :
    decode 0b00000000000000000000000000000001#32 = .instr .sysClear ∧
    decode 0b00000000000000000000000000000010#32 = .instr .sesRun ∧
    decode 0b00000000000000000000000000010000#32 = .instr .fcCount ∧
    decode 0b00000000000000000000000000100000#32 = .instr .treeLeaf ∧
    decode 0b00000000000000000000000000100001#32 = .instr .treeNode ∧
    decode 0b00000000000000000000000000100010#32 = .instr .treeIsLeaf ∧
    decode 0b00000000000000000000000000100011#32 = .instr .treeSym ∧
    decode 0b00000000000000000000000000100100#32 = .instr .treeLeft ∧
    decode 0b00000000000000000000000000100101#32 = .instr .treeRight ∧
    decode 0b00000000000000000000000000100110#32 = .instr .treeWeight ∧
    decode 0b00000000000000000000000000100111#32 = .instr .treeSize ∧
    decode 0b00000000000000000000000000101000#32 = .instr .treeEq ∧
    decode 0b00000000000000000000000000110000#32 = .instr .tbBuild ∧
    decode 0b00000000000000000000000000110001#32 = .instr .cbDerive := by
  decide

theorem test_decode_bit_io_and_coders :
    decode 0b00000000000000000000000001000000#32 = .instr .bwOpen ∧
    decode 0b00000000000000000000000001000001#32 = .instr .bwClose ∧
    decode 0b00000000000000000000000001000010#32 = .instr (.bwWrite false) ∧
    decode 0b00000000000000000000000001000011#32 = .instr (.bwWrite true) ∧
    decode 0b00000000000000000000000001000100#32 = .instr .brOpen ∧
    decode 0b00000000000000000000000001000101#32 = .instr .brRead ∧
    decode 0b00000000000000000000000001000110#32 = .instr .brClose ∧
    decode 0b00000000000000000000000001010000#32 = .instr .encRun ∧
    decode 0b00000000000000000000000001100000#32 = .instr .decRun ∧
    decodeTableWord 32 0x43 = some (.bwWrite true) ∧ decodeTableWord 32 0x60 = some .decRun := by
  decide

/-- R94: reserved opcodes and set upper bits. -/
theorem test_decode_rejects :
    decode 0x00000000#32 = .reject .reservedOpcode ∧ decode 0x00000003#32 = .reject .reservedOpcode ∧
    decode 0x00000029#32 = .reject .reservedOpcode ∧ decode 0x00000047#32 = .reject .reservedOpcode ∧
    decode 0x000000FF#32 = .reject .reservedOpcode ∧ decode 0x00000140#32 = .reject .upperBitsNonZero ∧
    decode 0x80000001#32 = .reject .upperBitsNonZero ∧ decodeTableWord 32 0x140 = none := by
  decide

/-- The opcode table of R93 lists no opcode twice. -/
theorem test_opcodes_distinct : (opcodes.map fun e => e.1).Nodup := by decide

/-! ### One step of each command (spec/95_test_vectors.md) -/

/-- A writer that holds `101` (V-B3). -/
def writing : State :=
  { base with cmp := bytes [0, 0, 0, 0], bwOpen := true, bwBuf := 0xA0#8, bwNbuf := 3#3, bwTotal := 3#32, res := 7#32 }

/-- V-B3: `SYS.CLEAR` with an open writer. -/
theorem test_sysClear : leads .sysClear { writing with arg0 := 5#32 } (fun t =>
    decide (t.cmp = bytes [0, 0, 0, 3, 0xA0]) && decide (t.status = 0#32) && decide (t.res = 0#32) &&
      decide (t.arg0 = 5#32)) = true := by
  decide +kernel

/-- V-S3: `SYS.CLEAR` is the way out of `FAULTED`. -/
theorem test_sysClear_faulted :
    leads .sysClear { base with err := some .streamUnexpectedBit, cmpValid := true, nodes := [.leaf 97 1] }
      (fun t => decide (t = base)) = true := by
  decide +kernel

/-- V-S1: `SES.RUN` on "ab". -/
theorem test_sesRun : leads .sesRun { base with src := syms [0x61, 0x62] } (fun t =>
    decide (t.res = 2#32) && decide (t.status = 0x300#32) && decide (t.cmp = bytes [0, 0, 0, 2, 0x40]) &&
      decide (t.out = syms [0x61, 0x62]) &&
      decide (t.nodes = [.leaf 0x61 1, .leaf 0x62 1, .inner 0#32 1#32 2#32])) = true := by
  decide +kernel

/-- V-S2: `MemRead(SRC, 1)` fails in `SES.RUN`; R238: `RES` is not written. -/
theorem test_sesRun_failed_read :
    leads .sesRun { base with src := syms [0x61, 0x62], env := [.ok, .ok, io], res := 7#32 } (fun t =>
      decide (t.status = 0x13#32) && decide (t.ft = [(0x61, 1#32)]) && decide (t.nodes = []) &&
        decide (t.res = 7#32)) = true := by
  decide +kernel

/-- V-F3: `MemRead(SRC, 2)` fails. -/
theorem test_fcCount_failed_read :
    leads .fcCount { base with src := syms [0x61, 0x62, 0x63, 0x64], env := [.ok, .ok, .ok, io], res := 9#32 } (fun t =>
      decide (t.status = 0x13#32) && decide (t.ft = [(0x61, 1#32), (0x62, 1#32)]) && decide (t.res = 9#32)) = true := by
  decide +kernel

/-- V-F1, its second count: the table is cleared first. -/
theorem test_fcCount_clears : leads .fcCount { base with src := syms [0x7A, 0x7A], ft := [(0x61, 5#32)] } (fun t =>
    decide (t.res = 2#32) && decide (t.ft = [(0x7A, 2#32)])) = true := by
  decide +kernel

/-- V-T2: a symbol of nine bits at `SYM_W = 8` and at `SYM_W = 16`. -/
theorem test_treeLeaf_range :
    shows .treeLeaf { base with arg0 := 0x100#32, arg1 := 1#32 } 0#32 0x18#32 = true ∧
    leads .treeLeaf { base with cfg := { symW := .w16, nodesMax := 131071#32 }, arg0 := 0x100#32, arg1 := 1#32 } (fun t =>
      decide (t.nodes = [.leaf 0x100 1]) && decide (t.status = 0#32)) = true := by
  decide +kernel

/-- V-T1's records: a leaf, a leaf, their parent, the leaf of the first symbol again, the mirror, the first shape with
weight 0. -/
def records : List Node :=
  [.leaf 0x61 1, .leaf 0x62 1, .inner 0#32 1#32 2#32, .leaf 0x61 9, .inner 1#32 0#32 7#32, .inner 0#32 1#32 0#32]

def store : State := { base with nodes := records, res := 7#32 }

/-- V-T1: a node with a shared child. -/
theorem test_treeNode : leads .treeNode { store with arg0 := 2#32, arg1 := 2#32, arg2 := 4#32 } (fun t =>
    decide (t.nodes = records ++ [.inner 2#32 2#32 4#32]) && decide (t.res = 6#32)) = true := by
  decide +kernel

/-- V-T3: a full store; the check of operands comes first. -/
theorem test_treeNode_full :
    shows .treeNode { store with cfg := { symW := .w8, nodesMax := 6#32 }, arg0 := nilId, arg1 := 5#32 } 7#32 0x19#32 = true ∧
    shows .treeNode { store with cfg := { symW := .w8, nodesMax := 6#32 }, arg0 := 6#32 } 7#32 0x18#32 = true := by
  decide +kernel

/-- V-T1, V-T2. -/
theorem test_treeIsLeaf : shows .treeIsLeaf { store with arg0 := 3#32 } 1#32 0#32 = true ∧
    shows .treeIsLeaf { store with arg0 := 4#32 } 0#32 0#32 = true ∧
    shows .treeIsLeaf { store with arg0 := nilId } 7#32 0x18#32 = true := by
  decide +kernel

/-- V-T1: a leaf's symbol; an internal node is no operand of `TREE.SYM`. -/
theorem test_treeSym : shows .treeSym { store with arg0 := 1#32 } 0x62#32 0#32 = true ∧
    shows .treeSym { store with arg0 := 2#32 } 7#32 0x18#32 = true := by
  decide +kernel

theorem test_treeLeft : shows .treeLeft { store with arg0 := 4#32 } 1#32 0#32 = true ∧
    shows .treeLeft { store with arg0 := 0#32 } nilId 0#32 = true := by
  decide +kernel

theorem test_treeRight : shows .treeRight { store with arg0 := 4#32 } 0#32 0#32 = true ∧
    shows .treeRight { store with arg0 := 0#32 } nilId 0#32 = true := by
  decide +kernel

theorem test_treeWeight : shows .treeWeight { store with arg0 := 4#32 } 7#32 0#32 = true ∧
    shows .treeWeight { store with arg0 := 3#32 } 9#32 0#32 = true := by
  decide +kernel

/-- V-T3's chain: node `k` has the two children `k − 1`. -/
def chain : List Node :=
  (List.range 33).map fun k => if k = 0 then .leaf 0x61 1 else .inner (BitVec.ofNat 32 (k - 1)) (BitVec.ofNat 32 (k - 1)) 0

/-- V-T3: the largest size that fits, and the next. -/
theorem test_treeSize : shows .treeSize { base with nodes := chain, arg0 := 31#32 } 0xFFFFFFFF#32 0#32 = true ∧
    shows .treeSize { base with nodes := chain, arg0 := 32#32 } 0#32 0x19#32 = true ∧
    shows .treeSize { store with arg0 := nilId } 0#32 0#32 = true := by
  decide +kernel

/-- V-T1: left and right count, weights do not. -/
theorem test_treeEq : shows .treeEq { store with arg0 := 2#32, arg1 := 4#32 } 0#32 0#32 = true ∧
    shows .treeEq { store with arg0 := 2#32, arg1 := 5#32 } 1#32 0#32 = true ∧
    shows .treeEq { store with arg0 := 2#32, arg1 := nilId } 0#32 0#32 = true := by
  decide +kernel

/-- V-E5: "mississippi", with a tie on the weight decided by the smallest symbol. -/
theorem test_tbBuild : leads .tbBuild { base with ft := [(0x69, 4#32), (0x6D, 1#32), (0x70, 2#32), (0x73, 4#32)] } (fun t =>
    decide (t.res = 6#32) && decide (t.nodes =
      [.leaf 0x69 4, .leaf 0x6D 1, .leaf 0x70 2, .leaf 0x73 4, .inner 1#32 2#32 3#32, .inner 4#32 0#32 7#32,
       .inner 3#32 5#32 11#32])) = true := by
  decide +kernel

/-- V-E10: two free records; the leaves fit, the merge does not. -/
theorem test_tbBuild_full :
    leads .tbBuild { store with cfg := { symW := .w8, nodesMax := 8#32 }, ft := [(0x61, 1#32), (0x62, 1#32)] } (fun t =>
      decide (t.status = 0x19#32) && decide (t.res = 7#32) &&
        decide (t.nodes = records ++ [.leaf 0x61 1, .leaf 0x62 1])) = true := by
  decide +kernel

/-- V-C8 and V-C9: a repeated symbol keeps its last path; a missing child is skipped. -/
theorem test_cbDerive_malformed :
    leads .cbDerive { base with nodes := [.leaf 0x61 1, .leaf 0x61 1, .inner 0#32 1#32 2#32], arg0 := 2#32 } (fun t =>
      decide (t.res = 1#32) && decide (t.cb = [(0x61, [true])])) = true ∧
    leads .cbDerive { base with nodes := [.leaf 0x61 1, .inner nilId 0#32 1#32], arg0 := 1#32 } (fun t =>
      decide (t.res = 1#32) && decide (t.cb = [(0x61, [true])])) = true := by
  decide +kernel

/-- V-C2, on V-E3's tree. -/
theorem test_cbDerive : leads .cbDerive { base with
      nodes := [.leaf 0x61 1, .leaf 0x62 1, .leaf 0x63 1, .inner 0#32 1#32 2#32, .inner 2#32 3#32 3#32], arg0 := 4#32 }
    (fun t => decide (t.res = 3#32) &&
      decide (t.cb = [(0x61, [true, false]), (0x62, [true, true]), (0x63, [false])])) = true := by
  decide +kernel

/-- V-B4: the third placeholder byte fails; what the cell holds is the answer's. -/
theorem test_bwOpen_failed_write : leads .bwOpen { base with env := [.ok, .ok, .ok, io] } (fun t =>
    decide (t.status = 0x14#32) && decide (t.cmp.len = 2#32) && decide (t.cmp.read 0#8 2 = 0xEE#8)) = true := by
  decide +kernel

/-- V-B1: the eighth bit of `10101010` appends its byte. -/
theorem test_bwWrite : leads (.bwWrite false) { writing with bwBuf := 0xAA#8, bwNbuf := 7#3, bwTotal := 7#32 } (fun t =>
    decide (t.cmp = bytes [0, 0, 0, 0, 0xAA]) && decide (t.bwBuf = 0#8) && decide (t.bwNbuf = 0#3) &&
      decide (t.bwTotal = 8#32) && decide (t.res = 0#32)) = true := by
  decide +kernel

/-- V-B4: every write of cell 4 fails; the quiet close retries it and then writes the count. -/
theorem test_bwWrite_failed_write : leads (.bwWrite true)
    { writing with bwBuf := 0xFE#8, bwNbuf := 7#3, bwTotal := 7#32, env := [io, io] } (fun t =>
      decide (t.status = 0x14#32) && decide (t.cmp.contents 0#8 = [0, 0, 0, 8]) && decide (t.bwTotal = 8#32)) = true := by
  decide +kernel

/-- R61, R9: the append at the largest `CMP_LEN` stores its byte, then its increment raises; R133: the quiet close writes
the count. -/
theorem test_bwWrite_largest_length : leads (.bwWrite false)
    { writing with bwBuf := 0xAA#8, bwNbuf := 7#3, bwTotal := 7#32, cmp := { cells := [], len := wordMax } } (fun t =>
      decide (t.status = 0x19#32) && decide (t.cmp = { cells := [(3, 8#8), (4294967295, 0xAA#8)], len := wordMax })) =
      true := by
  decide +kernel

/-- V-B1: `10110`. -/
theorem test_bwClose : leads .bwClose { writing with bwBuf := 0xB0#8, bwNbuf := 5#3, bwTotal := 5#32 } (fun t =>
    decide (t.cmp = bytes [0, 0, 0, 5, 0xB0]) && decide (t.res = 5#32) && decide (t.status = 0x100#32)) = true := by
  decide +kernel

/-- V-B2: the largest announced count, and a `CMP` of three bytes. -/
theorem test_brOpen : shows .brOpen { base with cmp := bytes [0xFF, 0xFF, 0xFF, 0xFF, 0x80] } 0xFFFFFFFF#32 0x40#32 = true ∧
    shows .brOpen { base with cmp := bytes [0, 0, 0] } 0#32 0xC0#32 = true := by
  decide +kernel

/-- A reader at the start of the payload `A5`, three bits announced (V-B2). -/
def reading : State :=
  { base with cmp := bytes [0, 0, 0, 3, 0xA5], brOpen := true, brRem := 3#32, brPtr := 4#32 }

/-- V-B2: the first bit, bit 7 of the byte; the end of a short stream. -/
theorem test_brRead : leads .brRead reading (fun t =>
      decide (t.res = 1#32) && decide (t.brPtr = 5#32) && decide (t.brNbuf = 7#4) && decide (t.brRem = 2#32)) = true ∧
    shows .brRead { reading with brPtr := 5#32 } eosWord 0xC0#32 = true := by
  decide +kernel

/-- V-B3: `BR.CLOSE` with nothing open; and of an open reader. -/
theorem test_brClose : shows .brClose { base with res := 7#32 } 7#32 0x18#32 = true ∧
    leads .brClose reading (fun t => decide (t = { reading with brOpen := false })) = true := by
  decide +kernel

/-- V-N10: `MemRead(SRC, 2)` fails: the codewords before it are finalized, not valid. -/
theorem test_encRun_failed_read : leads .encRun
    { base with cb := [(0x61, [true]), (0x62, [false])], src := syms [0x61, 0x61, 0x62],
                env := List.replicate 8 .ok ++ [io] } (fun t =>
      decide (t.status = 0x13#32) && decide (t.cmp = bytes [0, 0, 0, 2, 0xC0])) = true := by
  decide +kernel

/-- V-N2. -/
theorem test_encRun : leads .encRun
    { base with cb := [(0x61, [true]), (0x62, [false])], src := syms [0x61, 0x61, 0x62] } (fun t =>
      decide (t.res = 3#32) && decide (t.status = 0x100#32) && decide (t.cmp = bytes [0, 0, 0, 3, 0xC0])) = true := by
  decide +kernel

/-- Tree X of section 2.7. -/
def treeX : State := { base with nodes := [.leaf 0x62 1, .leaf 0x61 2, .inner 0#32 1#32 3#32], arg0 := 2#32 }

/-- V-D1. -/
def decoding : State := { treeX with cmp := bytes [0, 0, 0, 3, 0xC0] }

/-- V-D2: padding that is not 0, and an excess byte. -/
theorem test_decRun : leads .decRun { treeX with cmp := bytes [0, 0, 0, 3, 0xDF, 0xEE] } (fun t =>
    decide (t.res = 3#32) && decide (t.status = 0x200#32) && decide (t.out = syms [0x61, 0x61, 0x62])) = true := by
  decide +kernel

/-- V-D10: the stream ends inside a codeword. -/
theorem test_decRun_truncated : leads .decRun { base with
      nodes := [.leaf 0x61 1, .leaf 0x62 1, .leaf 0x63 1, .inner 0#32 1#32 2#32, .inner 2#32 3#32 3#32], arg0 := 4#32,
      cmp := bytes [0, 0, 0, 3, 0xA0] } (fun t =>
    decide (t.status = 0x15#32) && decide (t.decCur = 3#32) && decide (t.out = syms [0x61])) = true := by
  decide +kernel

/-! ### Steps -/

/-- R20, R239: an operand write, an ignored write, a read; R290: nothing pending. -/
theorem test_step_port :
    nextOf (step { base with host := [.writeReg .arg1 5#32] }) = some { base with arg1 := 5#32 } ∧
    nextOf (step { base with host := [.writeReg .status 0x1F#32] }) = some base ∧
    nextOf (step { base with host := [.readReg .res] }) = some base ∧ nextOf (step base) = some base ∧
    nextOf (step { reading with host := [.readMem (.cmp 4#32)] }) = some reading ∧
    reading.readMem (.cmp 4#32) = 0xA5#32 ∧ reading.readMem .cmpLen = 5#32 := by
  decide +kernel

/-- The word of `BW.OPEN` runs as the first command after reset. -/
theorem test_step_withFetchWord : (nextOf (step (State.reset.withFetchWord 32 0x40))).map (fun t => t.status) =
    some 0x20#32 := by
  decide +kernel

/-- V-B3: an illegal word closes an open writer quietly; V-S3: in `FAULTED` a word is ignored. -/
theorem test_step_illegal_word :
    (nextOf (step { writing with host := [.writeReg .cmd 0#32] })).map (fun t => (t.cmp, t.status, t.res)) =
      some (bytes [0, 0, 0, 3, 0xA0], 0x18#32, 7#32) ∧
    nextOf (step { base with err := some .streamTruncated, host := [.writeReg .cmd 0x30#32] }) =
      some { base with err := some .streamTruncated } := by
  decide +kernel

/-- R310: a reset between commands leaves the memories; one that abandons a `BW.WRITE` with room in the buffer leaves
`CMP` too, and one that abandons the eighth `BW.WRITE` leaves the cells below `CMP_LEN`. -/
theorem test_step_reset :
    nextOf (step { writing with host := [.reset] }) = some { base with cmp := writing.cmp } ∧
    nextOf (step { writing with host := [.resetDuring 0x42#32 0 [(0#32, 9#8)] 1#32 [] 0#32] }) =
      some { base with cmp := writing.cmp } ∧
    nextOf (step { writing with
        bwNbuf := 7#3, host := [.resetDuring 0x42#32 0 [(0#32, 9#8), (4#32, 9#8)] 5#32 [] 0#32] }) =
      some { base with cmp := bytes [0, 0, 0, 0, 9] } := by
  decide +kernel

/-- R310: an abandoned `BW.OPEN` leaves any `CMP` and at most the five answers it uses are gone; an abandoned `DEC.RUN`
leaves any `OUT`, and one with no symbol to emit its cells. -/
theorem test_step_reset_open :
    nextOf (step { base with
        env := [.ok, .ok, .ok, .ok, .ok, io], host := [.resetDuring 0x40#32 9 [(0#32, 9#8)] 1#32 [] 0#32] }) =
      some { base with cmp := bytes [9], env := [io] } ∧
    (nextOf (step { decoding with host := [.resetDuring 0x60#32 0 [] 0#32 [(0#32, 7#16)] 1#32] })).map (fun t => t.out) =
      some (syms [7]) ∧
    (nextOf (step { decoding with
        cmp := bytes [0, 0, 0, 0], out := syms [5], host := [.resetDuring 0x60#32 0 [] 0#32 [(0#32, 7#16)] 0#32] })).map
      (fun t => t.out) = some { syms [5] with len := 0#32 } := by
  decide +kernel

/-- R105: `TREE.NODE 0, 1, 2` as register writes; R106: `BW.BITS "10"`. -/
theorem test_assemble :
    assemble (.command .treeNode [0#32, 1#32, 2#32]) =
      [.writeReg .arg0 0#32, .writeReg .arg1 1#32, .writeReg .arg2 2#32, .writeReg .cmd 0x21#32] ∧
    assemble (.bits [true, false]) = [.writeReg .cmd 0x43#32, .writeReg .cmd 0x42#32] := by
  decide

/-! ### Witnesses: for every statement with hypotheses, and for each of its clauses, a state that meets them -/

theorem witness_EncodedCommandsDecodeBack : Instr.wf (.bwWrite true) = true ∧ Instr.wf .decRun = true := by decide

theorem witness_DecodedWordsAreTheTable : decode 0x42#32 = .instr (.bwWrite false) := by decide

/-- The ends of every reserved range of R94, and words with upper bits set. -/
def reservedEnds : List Word :=
  [0x00#32, 0x03#32, 0x0F#32, 0x11#32, 0x1F#32, 0x29#32, 0x2F#32, 0x32#32, 0x3F#32, 0x47#32, 0x4F#32, 0x51#32,
   0x5F#32, 0x61#32, 0xFF#32, 0x100#32, 0x80000001#32]

/-- The words of `ReservedWordsRaiseIllegalCommand`. -/
abbrev ReservedWord (w : Word) : Prop :=
  w.toNat = 0 ∨ (0x03 ≤ w.toNat ∧ w.toNat ≤ 0x0F) ∨ (0x11 ≤ w.toNat ∧ w.toNat ≤ 0x1F) ∨
    (0x29 ≤ w.toNat ∧ w.toNat ≤ 0x2F) ∨ (0x32 ≤ w.toNat ∧ w.toNat ≤ 0x3F) ∨ (0x47 ≤ w.toNat ∧ w.toNat ≤ 0x4F) ∨
    (0x51 ≤ w.toNat ∧ w.toNat ≤ 0x5F) ∨ (0x61 ≤ w.toNat ∧ w.toNat ≤ 0xFF) ∨ upperField w ≠ 0#24

theorem reservedEnds_all : (reservedEnds.all fun w => decide (ReservedWord w)) = true := by decide

theorem witness_ReservedWordsRaiseIllegalCommand (w : Word) (hw : w ∈ reservedEnds) :
    ({ base with host := [.writeReg .cmd w] } : State).err = none ∧
    ({ base with host := [.writeReg .cmd w] } : State).host = .writeReg .cmd w :: [] ∧ ReservedWord w :=
  ⟨rfl, rfl, of_decide_eq_true (List.all_eq_true.mp reservedEnds_all w hw)⟩

theorem witness_StepRunsTheDecodedCommand :
    ({ base with host := [.writeReg .cmd 0x43#32] } : State).host = .writeReg .cmd 0x43#32 :: [] ∧
    decode 0x43#32 = .instr (.bwWrite true) ∧ decode (BitVec.ofNat 32 0x60) = .instr .decRun ∧ base.host = [] := by
  decide

theorem witness_PortAccessesFollowTheRegisterMap :
    ({ base with host := [.readReg .cmd] } : State).host = .readReg .cmd :: [] ∧
    ({ base with host := [.writeReg .arg0 wordMax] } : State).host = .writeReg .arg0 wordMax :: [] ∧
    ({ base with host := [.writeReg .arg1 0#32] } : State).host = .writeReg .arg1 0#32 :: [] ∧
    ({ base with host := [.writeReg .arg2 1#32] } : State).host = .writeReg .arg2 1#32 :: [] ∧
    ({ base with host := [.writeReg .res 1#32] } : State).host = .writeReg .res 1#32 :: [] ∧
    ({ base with host := [.writeReg .status 1#32] } : State).host = .writeReg .status 1#32 :: [] := by
  decide

/-- A read and every kind of memory write by the host, at the last address and with a value wider than a cell. -/
theorem witness_HostMemoryAccessesReachTheirCell :
    ∀ op ∈ [HostOp.readMem (.cmp wordMax), .writeCmp wordMax 0xFF#8, .writeSrc wordMax 0xFFFF#16, .writeOut wordMax 0xFFFF#16,
        .writeSrcLen wordMax, .writeCmpLen wordMax, .writeOutLen wordMax],
      State.Inv { base with host := [op] } ∧ ({ base with host := [op] } : State).host = op :: [] :=
  fun op _ => ⟨(inv_of_check (s := base) (by decide)).setHost [op], rfl⟩

theorem witness_StatusShowsTheFlagsAndTheFaultCode :
    ({ base with host := [.readReg .status] } : State).host = .readReg .status :: [] ∧ base.err = none ∧
    ({ base with err := some .capacityExceeded } : State).err = some .capacityExceeded := by
  decide

theorem witness_RaiseKeepsTheFirstKindAndReleases :
    base.bwOpen = false ∧ writing.bwOpen = true ∧
    complete (.raised .sinkCorrupt writing) = complete (.raised .sinkCorrupt writing) := by
  decide

theorem writing_inv : writing.Inv := inv_of_check (by decide)

/-- A writer at the largest `CMP_LEN`, seven bits in the buffer. -/
def brimming : State :=
  { writing with bwBuf := 0xFE#8, bwNbuf := 7#3, bwTotal := 7#32, cmp := { cells := [], len := wordMax } }

theorem brimming_inv : brimming.Inv := inv_of_check (by decide)

/-- Below four bytes, at four, and at the largest length, with bits in the buffer and with none. -/
theorem witness_QuietCloseFinalizesTheStream :
    (bytes [0, 0, 0]).len.toNat < 4 ∧ brimming.Inv ∧ brimming.FaultFree ∧ brimming.cmp.len = wordMax ∧
    4 ≤ brimming.cmp.len.toNat ∧ brimming.bwNbuf ≠ 0#3 ∧ brimming.err = none ∧ brimming.bwOpen = true ∧
    brimming.bwTotal ≠ wordMax ∧ brimming.bwNbuf = 7#3 ∧
    writing.Inv ∧ writing.FaultFree ∧ 4 ≤ writing.cmp.len.toNat ∧ writing.bwNbuf ≠ 0#3 ∧
    State.Inv { brimming with bwBuf := 0#8, bwNbuf := 0#3 } :=
  ⟨by decide, brimming_inv, rfl, rfl, by decide, by decide, rfl, rfl, by decide, rfl, writing_inv, rfl, by decide,
    by decide, inv_of_check (by decide)⟩

theorem witness_FaultedBlockIgnoresCommands :
    ({ base with err := some .sinkCorrupt, host := [.writeReg .cmd 0x27#32] } : State).err = some .sinkCorrupt ∧
    ({ base with err := some .sinkCorrupt, host := [.writeReg .cmd 0x27#32] } : State).host =
      .writeReg .cmd 0x27#32 :: [] ∧ 0x27#32 ≠ 0x00000001#32 ∧
    nextOf (step { base with err := some .sinkCorrupt, host := [.reset] }) = some base ∧
    nextOf (step { base with err := some .sinkCorrupt, host := [.writeReg .cmd 1#32] }) = some base ∧
    base.err ≠ some .sinkCorrupt := by
  decide

theorem witness_UnacceptableCommandsRaiseIllegalCommand :
    writing.err = none ∧ writing.bwOpen = true ∧ reading.err = none ∧ reading.brOpen = true ∧
    reading.bwOpen = false ∧ writing.brOpen = false ∧ store.err = none ∧ store.node? 6#32 = none ∧
    store.node? nilId = none ∧ store.node? 2#32 = some (.inner 0#32 1#32 2#32) ∧ (6#32 : Word) ≠ nilId ∧
    ({ store with arg0 := 256#32 } : State).cfg.nsym ≤ ({ store with arg0 := 256#32 } : State).arg0.toNat := by
  decide

theorem witness_FailedAccessesRaiseByRole :
    State.Inv { writing with env := [io] } ∧ ({ writing with env := [io] } : State).env = io :: [] :=
  ⟨inv_of_check (by decide), rfl⟩

theorem base_idle : base.Idle := ⟨rfl, rfl, rfl⟩

theorem base_inv : base.Inv := inv_of_check (by decide)

theorem witness_FirstFailingAccessDecidesTheKind :
    State.Idle { store with env := [io, .ok] } ∧ ({ store with env := [io, .ok] } : State).env = io :: [.ok] ∧
    ({ store with arg0 := nilId } : State).arg0 = nilId ∧ (store.node? 5#32).isSome = true :=
  ⟨⟨rfl, rfl, rfl⟩, rfl, rfl, by decide⟩

/-- An action for each clause: while idle; ignored; no writer open; a reader open; a bit to the buffer; a command that
leaves the writer open; the eighth bit; no `DEC.RUN`; a `DEC.RUN` refused for its operand. -/
theorem witness_ResetGivesTheEmptySession :
    ({ writing with host := [.reset] } : State).host = .reset :: [] ∧
    (∀ w, ({ base with host := [.resetDuring w 1 [] 0#32 [] 0#32] } : State).host =
      .resetDuring w 1 [] 0#32 [] 0#32 :: []) ∧
    (({ base with err := some .sinkCorrupt } : State).err ≠ none ∧ (0x40#32 : Word) ≠ 0x00000001#32) ∧
    (base.bwOpen = false ∧ 0x60#32 ∉ [0x00000002#32, 0x00000040#32, 0x00000050#32]) ∧
    (reading.bwOpen = false ∧ reading.brOpen = true) ∧
    (writing.bwTotal ≠ wordMax ∧ writing.bwNbuf ≠ 7#3 ∧ writing.bwOpen = true) ∧
    0x43#32 ∈ [0x00000042#32, 0x00000043#32] ∧
    (decode 0x22#32 = .instr .treeIsLeaf ∧ leads .treeIsLeaf { writing with nodes := records } (·.bwOpen) = true) ∧
    (writing.FaultFree ∧ writing.cmp.len ≠ wordMax) ∧
    0x40#32 ∉ [0x00000002#32, 0x00000060#32] ∧ (6#32 : Word) ≠ nilId ∧ store.node? 6#32 = none ∧
    Config.wf { symW := .w8, nodesMax := 511#32 } = true ∧ Config.wf { symW := .w16, nodesMax := 131071#32 } = true :=
  ⟨rfl, fun _ => rfl, by decide, by decide, by decide, by decide, by decide, by decide +kernel,
    ⟨rfl, by decide⟩, by decide, by decide, by decide, by decide, by decide⟩

theorem witness_SysClearStartsAFreshSession : writing.bwOpen = true ∧ reading.bwOpen = false := by decide

theorem witness_StepKeepsTheInvariant :
    State.Inv { writing with host := [.writeReg .cmd 0x41#32] } ∧
    ∃ t, step { writing with host := [.writeReg .cmd 0x41#32] } = .next t :=
  ⟨writing_inv.setHost _, _, rfl⟩

theorem witness_CommandsKeepOperandsSourceAndParameters : ∃ t, exec .encRun base = .next t := ⟨_, rfl⟩

/-- One command outside each list of writers, with the flags the clauses ask for. -/
theorem witness_EachTableHasItsWriters :
    (∃ t, exec .brRead reading = .next t ∧ t.brOpen = true) ∧ (∃ t, exec (.bwWrite true) writing = .next t ∧ t.bwOpen = true) ∧
    (∃ t, exec .tbBuild { base with cmpValid := true, outValid := true } = .next t ∧ t.cmpValid = true ∧ t.outValid = true) ∧
    (∃ t, exec .sysClear base = .next t) ∧ base.bwOpen = false ∧
    (writing.bwOpen = true ∧ (∃ t, exec .fcCount writing = .next t ∧ t.bwOpen = true) ∧
      ∃ t, exec .fcCount { writing with env := [io] } = .next t ∧ t.bwOpen = false) :=
  ⟨⟨_, rfl, by decide⟩, ⟨_, rfl, by decide⟩, ⟨_, rfl, by decide, by decide⟩, ⟨_, rfl⟩, rfl, rfl, ⟨_, rfl, by decide⟩,
    _, rfl, by decide⟩

theorem store_inv : store.Inv := inv_of_check (by decide)

theorem witness_RecordsAreNeverRewritten :
    store.Inv ∧ (∃ t, exec .treeLeaf { store with arg0 := 0x7A#32 } = .next t) ∧ Instr.treeLeaf ≠ .sysClear ∧
    Instr.treeLeaf ≠ .sesRun ∧ store.node? 0#32 = some (.leaf 0x61 1) ∧ (store.node? 5#32).isSome = true :=
  ⟨store_inv, ⟨_, rfl⟩, by decide, by decide, by decide, by decide⟩

/-- The largest symbol and the first that is none; a full store and one with a single free record. -/
theorem witness_TreeLeafAllocatesALeaf :
    store.err = none ∧ store.cfg.nsym ≤ (256#32 : Word).toNat ∧ (255#32 : Word).toNat < store.cfg.nsym ∧
    ({ store with cfg := { symW := .w8, nodesMax := 6#32 } } : State).nodes.length =
      ({ store with cfg := { symW := .w8, nodesMax := 6#32 } } : State).cfg.nodesMax.toNat ∧
    ({ store with cfg := { symW := .w8, nodesMax := 7#32 } } : State).nodes.length <
      ({ store with cfg := { symW := .w8, nodesMax := 7#32 } } : State).cfg.nodesMax.toNat := by
  decide

theorem witness_TreeNodeAllocatesAnInternalNode :
    store.err = none ∧ (6#32 : Word) ≠ nilId ∧ store.node? 6#32 = none ∧ (store.node? 5#32).isSome = true ∧
    ({ store with arg0 := nilId, arg1 := 5#32 } : State).arg0 = nilId ∧
    ({ store with cfg := { symW := .w8, nodesMax := 6#32 } } : State).nodes.length =
      ({ store with cfg := { symW := .w8, nodesMax := 6#32 } } : State).cfg.nodesMax.toNat ∧
    store.nodes.length < store.cfg.nodesMax.toNat := by
  decide

theorem witness_TreeInspectionsReadTheRecord :
    store.err = none ∧ ({ store with arg0 := 3#32 } : State).node? 3#32 = some (.leaf 0x61 9) ∧
    ({ store with arg0 := 4#32 } : State).node? 4#32 = some (.inner 1#32 0#32 7#32) ∧
    ({ store with arg0 := nilId } : State).node? nilId = none ∧ ({ store with arg0 := 6#32 } : State).node? 6#32 = none := by
  decide

theorem witness_TreeSymReadsALeaf :
    store.err = none ∧ store.node? 1#32 = some (.leaf 0x62 1) ∧ store.node? 6#32 = none ∧
    store.node? 2#32 = some (.inner 0#32 1#32 2#32) := by
  decide

theorem witness_TreesFollowTheRecords :
    store.Inv ∧ store.node? 0#32 = some (.leaf 0x61 1) ∧ store.node? 5#32 = some (.inner 0#32 1#32 0#32) :=
  ⟨store_inv, by decide, by decide⟩

/-- Node `k` of V-T3's chain unfolds to a tree of size `2^(k+1) − 1`. -/
theorem chain_size : ∀ (k : Nat), k < 33 → ∀ (fuel : Nat), k < fuel →
    (unfoldTree chain fuel (BitVec.ofNat 32 k)).size + 1 = 2 ^ (k + 1)
  | 0, _, fuel, hf => by
    obtain ⟨f, rfl⟩ : ∃ f, fuel = f + 1 := ⟨fuel - 1, by omega⟩
    have hn : nodeIn chain (BitVec.ofNat 32 0) = some (.leaf 0x61 1) := by decide +kernel
    rw [unfoldTree, hn]
    rfl
  | k + 1, hk, fuel, hf => by
    obtain ⟨f, rfl⟩ : ∃ f, fuel = f + 1 := ⟨fuel - 1, by omega⟩
    have hn : nodeIn chain (BitVec.ofNat 32 (k + 1)) = some (.inner (BitVec.ofNat 32 k) (BitVec.ofNat 32 k) 0) := by
      refine nodeIn_eq_some.mpr ⟨fun h => ?_, ?_⟩
      · have := congrArg BitVec.toNat h
        simp only [BitVec.toNat_ofNat, nilId] at this
        omega
      · have hmod : (BitVec.ofNat 32 (k + 1)).toNat = k + 1 := by simp only [BitVec.toNat_ofNat]; omega
        rw [hmod]
        simp [chain, hk]
    have ih := chain_size k (by omega) f (by omega)
    rw [unfoldTree, hn]
    simp only [Tree.size]
    rw [Nat.pow_succ, ← ih]
    omega

/-- V-T3's chain, its record `k` the operand. -/
def chainAt (k : Nat) : State := { base with nodes := chain, arg0 := BitVec.ofNat 32 k }

theorem chainAt_size {k : Nat} (hk : k < 33) : ((chainAt k).tree (chainAt k).arg0).size + 1 = 2 ^ (k + 1) := by
  have hmod : (BitVec.ofNat 32 k).toNat = k := by simp only [BitVec.toNat_ofNat]; omega
  have h := chain_size k hk (k + 1) (by omega)
  unfold State.tree chainAt
  dsimp only
  rw [hmod]
  exact h

theorem chainAt_31 : ((chainAt 31).tree (chainAt 31).arg0).size ≤ 2 ^ 32 - 1 := by
  have h := chainAt_size (k := 31) (by decide)
  generalize ((chainAt 31).tree (chainAt 31).arg0).size = n at h ⊢
  omega

theorem chainAt_32 : 2 ^ 32 - 1 < ((chainAt 32).tree (chainAt 32).arg0).size := by
  have h := chainAt_size (k := 32) (by decide)
  generalize ((chainAt 32).tree (chainAt 32).arg0).size = n at h ⊢
  omega

/-- The two sides of the largest size, on V-T3's chain; an id that names no record; a well-formed tree. -/
theorem witness_TreeSizeCountsTheUnfoldedTree :
    (chainAt 31).Inv ∧ (chainAt 32).Inv ∧ (chainAt 31).err = none ∧
    ((chainAt 31).tree (chainAt 31).arg0).size ≤ 2 ^ 32 - 1 ∧
    2 ^ 32 - 1 < ((chainAt 32).tree (chainAt 32).arg0).size ∧
    ((chainAt 32).node? (chainAt 32).arg0).isSome = true ∧
    (chainAt 33).arg0 ≠ nilId ∧ (chainAt 33).node? (chainAt 33).arg0 = none ∧
    (Tree.inner (.leaf 0x61 1) (.leaf 0x62 1) 2).wf = true :=
  ⟨inv_of_check (by decide +kernel), inv_of_check (by decide +kernel), rfl, chainAt_31, chainAt_32,
    by decide +kernel, by decide, by decide +kernel, by decide⟩

theorem witness_TreeEqComparesShapeAndSymbols :
    store.err = none ∧ (store.node? 2#32).isSome = true ∧ (store.node? 5#32).isSome = true ∧ store.node? 6#32 = none ∧
    ({ store with arg0 := nilId } : State).arg0 = nilId := by
  decide

/-- The source "aba". -/
def counting : State := { base with src := syms [0x61, 0x62, 0x61] }

theorem witness_FcCountCountsOccurrences :
    counting.err = none ∧ counting.FaultFree ∧ ∃ t, exec .fcCount counting = .next t ∧ t.err = none :=
  ⟨rfl, rfl, _, rfl, by decide +kernel⟩

/-- A failed open; the first and the last read failing. -/
theorem witness_FcCountStopsAtAFailedAccess :
    State.Idle { counting with env := [io] } ∧ 0 < counting.src.len.toNat ∧ 2 < counting.src.len.toNat ∧
    ({ counting with env := [.ok, io] } : State).env = List.replicate (0 + 1) .ok ++ io :: [] ∧
    ({ counting with env := [.ok, .ok, .ok, io] } : State).env = List.replicate (2 + 1) .ok ++ io :: [] :=
  ⟨⟨rfl, rfl, rfl⟩, by decide, by decide, rfl, rfl⟩

theorem witness_TbBuildOfEmptyAndSingleTables :
    base.err = none ∧ base.ft = [] ∧ ({ base with ft := [(0xFF, wordMax)] } : State).ft = [(0xFF, wordMax)] ∧
    base.nodes.length < base.cfg.nodesMax.toNat := by
  decide

/-- Ids 0 and 1 of `records` tie on the weight. -/
theorem witness_QueuePopsTheSmallestKey : pqPopMin store [3#32, 1#32, 0#32] = some (0#32, [3#32, 1#32]) := by
  decide +kernel

theorem witness_MergePutsTheLightestLeft :
    pqPopMin store [3#32, 1#32, 0#32] = some (0#32, [3#32, 1#32]) ∧
    pqPopMin store [3#32, 1#32] = some (1#32, [3#32]) ∧ store.nodes.length < store.cfg.nodesMax.toNat ∧
    (store.tree 0#32).weight.toNat + (store.tree 1#32).weight.toNat < 2 ^ 32 := by
  decide +kernel

/-- Two entries whose counts sum to the largest weight, and just enough room. -/
def building : State :=
  { base with cfg := { symW := .w8, nodesMax := 511#32 }, ft := [(0x61, 0xFFFFFFFE#32), (0x62, 1#32)] }

/-- The same with `n` of the 511 records in use. -/
def crowded (n : Nat) : State := { building with nodes := List.replicate n (.leaf 0x63 1) }

theorem crowded_check : ∀ n ∈ [509, 510, 511], invCheck (crowded n) = true := by decide +kernel

/-- Room for the two leaves and not the merge, for one leaf, for none; a sum one above the largest weight. -/
theorem witness_TbBuildMakesAHuffmanTree :
    (∀ n ∈ [509, 510, 511], (crowded n).Inv ∧ (crowded n).err = none ∧ (crowded n).ft ≠ [] ∧
      (crowded n).cfg.nodesMax.toNat < (crowded n).nodes.length + (2 * (crowded n).ft.length - 1)) ∧
    State.Inv { building with ft := [(0x61, 0xFFFFFFFF#32), (0x62, 1#32)] } ∧
    2 ^ 32 ≤ ([(0x61, 0xFFFFFFFF#32), (0x62, 1#32)].map fun e : Nat × Word => e.2.toNat).sum ∧
    building.Inv ∧ building.err = none ∧ building.ft ≠ [] ∧
    building.nodes.length + (2 * building.ft.length - 1) ≤ building.cfg.nodesMax.toNat ∧
    (building.ft.map fun e => e.2.toNat).sum < 2 ^ 32 :=
  ⟨fun n hn => ⟨inv_of_check (crowded_check n hn), rfl, by simp [crowded, building],
      by simp only [List.mem_cons, List.not_mem_nil, or_false] at hn; simp [crowded, building]; omega⟩,
    inv_of_check (by decide), by decide, inv_of_check (by decide), rfl, by decide, by decide, by decide⟩

theorem witness_CbDeriveOfEmptyTreeAndSingleLeaf :
    store.err = none ∧ ({ store with arg0 := nilId } : State).arg0 = nilId ∧ store.node? 3#32 = some (.leaf 0x61 9) := by
  decide

theorem treeX_tree : treeX.tree treeX.arg0 = .inner (.leaf 0x62 1) (.leaf 0x61 2) 3#32 := by decide +kernel

theorem witness_CbDeriveKeepsTheLastPath :
    treeX.err = none ∧ treeX.tree treeX.arg0 = .inner (.leaf 0x62 1) (.leaf 0x61 2) 3#32 :=
  ⟨rfl, treeX_tree⟩

theorem treeX_isHuffman : (treeX.tree treeX.arg0).IsHuffman := ⟨by decide +kernel, by decide +kernel⟩

/-- A tree of two leaves and a single leaf. -/
theorem witness_CbDeriveOfAHuffmanTreeIsItsPaths :
    treeX.err = none ∧ (treeX.tree treeX.arg0).IsHuffman ∧
    (State.tree { treeX with arg0 := 0#32 } 0#32).IsHuffman ∧
    State.tree { treeX with arg0 := 0#32 } 0#32 = .leaf 0x62 1 ∧
    (∀ sym w, treeX.tree treeX.arg0 ≠ .leaf sym w) :=
  ⟨rfl, treeX_isHuffman, ⟨by decide +kernel, by decide +kernel⟩, by decide +kernel, by simp [treeX_tree]⟩

theorem witness_CodewordsArePrefixFree :
    treeX.err = none ∧ (treeX.tree treeX.arg0).IsHuffman ∧ ∃ t, exec .cbDerive treeX = .next t ∧
      t.codeword 0x61 = some [true] ∧ t.codeword 0x62 = some [false] ∧ (0x61 : Nat) ≠ 0x62 :=
  ⟨rfl, treeX_isHuffman, _, rfl, by decide +kernel, by decide +kernel, by decide⟩

/-- Something open; nothing open; each placeholder byte failing. -/
theorem witness_BwOpenWritesThePlaceholders :
    writing.Inv ∧ writing.err = none ∧ writing.bwOpen = true ∧ reading.Inv ∧ reading.brOpen = true ∧ base.Inv ∧
    base.Idle ∧ base.FaultFree ∧ ({ base with env := [io] } : State).env = io :: [] ∧
    ∀ n, n < 4 → ({ base with env := List.replicate (n + 1) .ok ++ [io] } : State).env =
      List.replicate (n + 1) .ok ++ io :: [] :=
  ⟨writing_inv, rfl, rfl, inv_of_check (by decide), rfl, base_inv, base_idle, rfl, rfl, fun _ _ => rfl⟩

/-- A writer about to take its eighth bit. -/
def eighth : State := { writing with bwBuf := 0xFE#8, bwNbuf := 7#3, bwTotal := 7#32 }

theorem eighth_inv : eighth.Inv := inv_of_check (by decide)

theorem witness_BwWriteBuffersAndFlushes :
    base.Inv ∧ base.bwOpen = false ∧ State.Inv { eighth with bwTotal := wordMax } ∧ eighth.Inv ∧ eighth.err = none ∧
    eighth.bwOpen = true ∧ eighth.bwTotal ≠ wordMax ∧ eighth.bwNbuf = 7#3 ∧ eighth.cmp.len ≠ wordMax ∧
    eighth.FaultFree ∧ writing.Inv ∧ writing.bwNbuf ≠ 7#3 ∧ writing.bwTotal ≠ wordMax ∧
    State.Inv { eighth with env := [io] } ∧ ({ eighth with env := [io] } : State).env = io :: [] :=
  ⟨base_inv, rfl, inv_of_check (by decide), eighth_inv, rfl, rfl, by decide, rfl, by decide, rfl, writing_inv,
    by decide, by decide, inv_of_check (by decide), rfl⟩

/-- Closed; a partial byte; whole bytes with `CMP_LEN` cut to 0 and at its largest; each write failing. -/
theorem witness_BwCloseFinalizesTheStream :
    base.Inv ∧ base.bwOpen = false ∧ writing.Inv ∧ writing.err = none ∧ writing.bwOpen = true ∧ writing.FaultFree ∧
    writing.cmp.len ≠ wordMax ∧ writing.bwNbuf ≠ 0#3 ∧
    State.Inv { writing with bwBuf := 0#8, bwNbuf := 0#3, cmp := Space.blank Byte } ∧
    State.Inv { writing with bwBuf := 0#8, bwNbuf := 0#3, cmp := { cells := [], len := wordMax } } ∧
    (0 < (if writing.bwNbuf = 0#3 then 4 else 5) ∧ 4 < (if writing.bwNbuf = 0#3 then 4 else 5)) ∧
    ∀ n, ({ writing with env := List.replicate n .ok ++ [io] } : State).env = List.replicate n .ok ++ io :: [] :=
  ⟨base_inv, rfl, writing_inv, rfl, rfl, rfl, by decide, by decide, inv_of_check (by decide),
    inv_of_check (by decide), by decide, fun _ => rfl⟩

theorem witness_BrOpenReadsThePrefix :
    reading.err = none ∧ reading.brOpen = true ∧ writing.bwOpen = true ∧ base.Idle ∧ base.FaultFree ∧
    base.cmp.len.toNat < 4 ∧ State.Idle { base with cmp := bytes [0xFF, 0xFF, 0xFF, 0xFF] } ∧
    4 ≤ (bytes [0xFF, 0xFF, 0xFF, 0xFF]).len.toNat ∧ ({ base with env := [io] } : State).env = io :: [] ∧
    ∀ n, n < 4 → ({ base with env := List.replicate (n + 1) .ok ++ [io] } : State).env =
      List.replicate (n + 1) .ok ++ io :: [] :=
  ⟨rfl, rfl, rfl, base_idle, rfl, by decide, ⟨rfl, rfl, rfl⟩, by decide, rfl, fun _ _ => rfl⟩

/-- Closed; the end of the count; the end of a short `CMP`; a bit from the buffer; a bit from the next byte. -/
theorem witness_BrReadDeliversTheNextBit :
    reading.err = none ∧ base.brOpen = false ∧ reading.brOpen = true ∧
    ({ reading with brRem := 0#32 } : State).brRem = 0#32 ∧ reading.brRem ≠ 0#32 ∧ reading.brNbuf = 0#4 ∧
    ({ reading with brPtr := 5#32 } : State).cmp.len.toNat ≤ ({ reading with brPtr := 5#32 } : State).brPtr.toNat ∧
    ({ reading with brNbuf := 8#4 } : State).brNbuf ≠ 0#4 ∧ reading.brPtr.toNat < reading.cmp.len.toNat ∧
    ({ reading with env := [io] } : State).env = io :: [] ∧ reading.env = [] := by
  decide +kernel

theorem witness_BrCloseReleasesTheReader :
    base.err = none ∧ base.brOpen = false ∧ reading.err = none ∧ reading.brOpen = true := by decide

theorem witness_ClosedWriterLeavesTheStream :
    base.Inv ∧ base.Idle ∧ base.FaultFree ∧ ([true, false, true] : Bits).length < 2 ^ 32 ∧ ([] : Bits).length < 2 ^ 32 :=
  ⟨base_inv, base_idle, rfl, by decide, by decide⟩

theorem witness_BitsReadBackInOrder :
    base.Inv ∧ base.Idle ∧ base.FaultFree ∧ (List.replicate 9 true).length < 2 ^ 32 :=
  ⟨base_inv, base_idle, rfl, by decide⟩

/-- A stream that announces more than is there. -/
theorem witness_ReaderDeliversAnyStream :
    State.Idle { base with cmp := bytes [0, 0, 0, 9, 0x5A] } ∧ State.FaultFree { base with cmp := bytes [0, 0, 0, 9, 0x5A] } ∧
    (bytes [0, 0, 0, 9, 0x5A]).short = true :=
  ⟨⟨rfl, rfl, rfl⟩, rfl, by decide +kernel⟩

/-- V-N2's codebook and source. -/
def encoding : State :=
  { base with cb := [(0x61, [true]), (0x62, [false])], src := syms [0x61, 0x61, 0x62] }

theorem witness_EncRunWritesThePayload :
    encoding.Inv ∧ encoding.Idle ∧ encoding.FaultFree ∧
    (∀ sym ∈ encoding.source, (encoding.codeword sym.toNat).isSome = true) ∧
    (encoding.payload encoding.source).length < 2 ^ 32 :=
  ⟨inv_of_check (by decide +kernel), ⟨rfl, rfl, rfl⟩, rfl,
    List.all_eq_true.mp (by decide +kernel : (encoding.source.all fun x => (encoding.codeword x.toNat).isSome) = true),
    by decide +kernel⟩

theorem witness_EncRunOfEmptyInput :
    base.Inv ∧ base.Idle ∧ base.FaultFree ∧ base.src.len = 0#32 :=
  ⟨base_inv, base_idle, rfl, rfl⟩

/-- "abz": the third symbol has no codeword. -/
theorem witness_EncRunStopsAtAnUnencodableSymbol :
    State.Inv { encoding with src := syms [0x61, 0x62, 0x7A] } ∧
    State.Idle { encoding with src := syms [0x61, 0x62, 0x7A] } ∧
    State.FaultFree { encoding with src := syms [0x61, 0x62, 0x7A] } ∧
    State.source { encoding with src := syms [0x61, 0x62, 0x7A] } = [0x61, 0x62] ++ 0x7A#16 :: [] ∧
    (∀ x ∈ [0x61#16, 0x62#16], (encoding.codeword x.toNat).isSome = true) ∧ encoding.codeword 0x7A = none ∧
    (encoding.payload [0x61#16, 0x62#16]).length < 2 ^ 32 :=
  ⟨inv_of_check (by decide +kernel), ⟨rfl, rfl, rfl⟩, rfl, by decide +kernel,
    List.all_eq_true.mp
      (by decide : ([0x61#16, 0x62#16].all fun x => (encoding.codeword x.toNat).isSome) = true),
    by decide +kernel, by decide +kernel⟩

theorem decoding_inv : decoding.Inv := inv_of_check (by decide +kernel)

/-- An emission; a `DEC.RUN` without fault; a short stream; a cursor off the root. -/
theorem witness_DecoderCursorReturnsToTheRoot :
    (∃ t, decStep true { decoding with decRoot := 2#32, decCur := 2#32 } = .done () t ∧ t.out ≠ decoding.out) ∧
    State.isLeaf { decoding with decRoot := 2#32 } 2#32 = false ∧ decoding.err = none ∧
    (∃ t, exec .decRun decoding = .next t ∧ t.err = none) ∧ ({ decoding with brShort := true } : State).brShort = true ∧
    ({ decoding with decRoot := 2#32, decCur := 0#32 } : State).decCur ≠
      ({ decoding with decRoot := 2#32, decCur := 0#32 } : State).decRoot :=
  ⟨⟨_, rfl, by decide +kernel⟩, by decide +kernel, rfl, ⟨_, rfl, by decide +kernel⟩, rfl, by decide⟩

theorem witness_DecRunOfASingleLeaf :
    State.Inv { decoding with arg0 := 1#32 } ∧ State.Idle { decoding with arg0 := 1#32 } ∧
    State.FaultFree { decoding with arg0 := 1#32 } ∧ decoding.node? 1#32 = some (.leaf 0x61 2) ∧
    decoding.cmp.short = false :=
  ⟨inv_of_check (by decide +kernel), ⟨rfl, rfl, rfl⟩, rfl, by decide +kernel, by decide +kernel⟩

/-- No bit at all; a short stream that delivers none (V-D8), in its two forms; one bit. -/
theorem witness_DecRunOfTheEmptyTree :
    State.Idle { base with arg0 := nilId, cmp := bytes [0, 0, 0, 0] } ∧
    State.FaultFree { base with arg0 := nilId, cmp := bytes [0, 0, 0, 0] } ∧ (bytes [0, 0, 0, 0]).delivered = [] ∧
    (bytes [0, 0, 0, 0]).short = false ∧
    ((bytes [0, 0, 0]).delivered = [] ∧ (bytes [0, 0, 0]).short = true) ∧
    ((bytes [0, 0, 0, 1]).delivered = [] ∧ (bytes [0, 0, 0, 1]).short = true) ∧
    (bytes [0, 0, 0, 1, 0]).delivered ≠ [] :=
  ⟨⟨rfl, rfl, rfl⟩, rfl, by decide +kernel, by decide +kernel, by decide +kernel, by decide +kernel,
    by decide +kernel⟩

/-- Program P4's tree, an internal node with one missing child, on the bits `01`. -/
def gapped : State :=
  { base with nodes := [.leaf 0x61 1, .inner 0#32 nilId 1#32], arg0 := 1#32, cmp := bytes [0, 0, 0, 2, 0x40] }

theorem gapped_inv : gapped.Inv := inv_of_check (by decide +kernel)

/-- P4's tree: a leaf, then a missing child. -/
theorem test_decRun_missing_child : leads .decRun gapped (fun t =>
    decide (t.status = 0x16#32) && decide (t.out = syms [0x61]) && decide (t.decCur = 1#32)) = true := by
  decide +kernel

/-- A stream of three codewords; a codeword and then a missing child. -/
theorem witness_DecRunDecodesPaths :
    (gapped.Inv ∧ gapped.Idle ∧ gapped.FaultFree ∧ gapped.tree gapped.arg0 = .inner (.leaf 0x61 1) .empty 1#32 ∧
      (∀ y ∈ [(0x61#16, [false])], y ∈ (gapped.tree gapped.arg0).paths) ∧ [true] ∈ (gapped.tree gapped.arg0).gaps ∧
      gapped.cmp.delivered = [(0x61#16, [false])].flatMap (fun y => y.2) ++ [true] ++ []) ∧
    decoding.Inv ∧ decoding.Idle ∧ decoding.FaultFree ∧
    decoding.tree decoding.arg0 = .inner (.leaf 0x62 1) (.leaf 0x61 2) 3#32 ∧
    (∀ y ∈ [(0x61#16, [true]), (0x61#16, [true]), (0x62#16, [false])], y ∈ (decoding.tree decoding.arg0).paths) ∧
    decoding.cmp.delivered = [(0x61#16, [true]), (0x61#16, [true]), (0x62#16, [false])].flatMap (fun y => y.2) ∧
    decoding.cmp.short = false ∧ ∃ t, exec .decRun decoding = .next t ∧ t.err = none :=
  ⟨⟨gapped_inv, ⟨rfl, rfl, rfl⟩, rfl, by decide +kernel, by decide +kernel, by decide +kernel, by decide +kernel⟩,
    decoding_inv, ⟨rfl, rfl, rfl⟩, rfl, by decide +kernel, by decide +kernel, by decide +kernel, by decide +kernel,
    _, rfl, by decide +kernel⟩

/-- V-D10's state: the stream `101` ends inside a codeword. -/
def cutOff : State :=
  { base with nodes := [.leaf 0x61 1, .leaf 0x62 1, .leaf 0x63 1, .inner 0#32 1#32 2#32, .inner 2#32 3#32 3#32],
              arg0 := 4#32, cmp := bytes [0, 0, 0, 3, 0xA0] }

theorem cutOff_tree : cutOff.tree cutOff.arg0 = .inner (.leaf 0x63 1) (.inner (.leaf 0x61 1) (.leaf 0x62 1) 2) 3 := by
  decide +kernel

theorem cutOff_inside (ys : List (Symbol × Bits)) (hys : ∀ y ∈ ys, y ∈ (cutOff.tree cutOff.arg0).paths) :
    cutOff.cmp.delivered ≠ ys.flatMap fun y => y.2 := by
  have hd : cutOff.cmp.delivered = [true, false, true] := by decide +kernel
  rw [hd]
  rw [cutOff_tree] at hys
  have hp : ∀ y ∈ ys, y.2 = [false] ∨ y.2 = [true, false] ∨ y.2 = [true, true] := fun y hy => by
    have := hys y hy
    simp only [Tree.paths, List.map_cons, List.map_nil, List.cons_append, List.nil_append, List.mem_cons,
      List.not_mem_nil, or_false] at this
    rcases this with rfl | rfl | rfl <;> simp
  match ys, hp with
  | [], _ => simp
  | [a], hp => rcases hp a (by simp) with h | h | h <;> simp [h]
  | a :: b :: ys, hp =>
    rcases hp a (by simp) with h | h | h <;> rcases hp b (by simp) with h' | h' | h' <;> simp [h, h']

/-- S6: "ab" and "aaaa", one byte short. -/
theorem witness_DecRunReportsTruncation :
    State.Inv { treeX with cmp := bytes [0, 0, 0, 2] } ∧ State.Idle { treeX with cmp := bytes [0, 0, 0, 2] } ∧
    State.FaultFree { treeX with cmp := bytes [0, 0, 0, 2] } ∧
    (State.tree { treeX with cmp := bytes [0, 0, 0, 2] } 2#32).wf = true ∧
    (State.tree { treeX with cmp := bytes [0, 0, 0, 4] } 1#32).wf = true ∧ (bytes [0, 0, 0, 2]).short = true ∧
    (bytes [0, 0, 0, 4]).short = true ∧
    (cutOff.Inv ∧ cutOff.Idle ∧ cutOff.FaultFree ∧ (cutOff.tree cutOff.arg0).wf = true ∧ cutOff.cmp.short = false ∧
      ¬ ∃ ys : List (Symbol × Bits), (∀ y ∈ ys, y ∈ (cutOff.tree cutOff.arg0).paths) ∧
        cutOff.cmp.delivered = ys.flatMap fun y => y.2) :=
  ⟨inv_of_check (by decide +kernel), ⟨rfl, rfl, rfl⟩, rfl, by decide +kernel, by decide +kernel, by decide +kernel,
    by decide +kernel, inv_of_check (by decide +kernel), ⟨rfl, rfl, rfl⟩, rfl, by decide +kernel, by decide +kernel,
    fun ⟨ys, hys, hd⟩ => cutOff_inside ys hys hd⟩

theorem witness_SesRunIsTheStageSequence : counting.Idle := ⟨rfl, rfl, rfl⟩

theorem witness_SessionRoundTrip :
    counting.Inv ∧ counting.Idle ∧ counting.FaultFree ∧ counting.src.len.toNat * counting.cfg.nsym < 2 ^ 32 ∧
    ∃ t, exec .sesRun counting = .next t ∧ t.err ≠ some .capacityExceeded :=
  ⟨inv_of_check (by decide +kernel), ⟨rfl, rfl, rfl⟩, rfl, by decide, _, rfl, by decide +kernel⟩

/-- The tree of a table is built without fault and its codebook derived, and `p` holds of the end. -/
def builds (p : State → Bool) (ft : List (Nat × Word)) : Bool :=
  invCheck { base with ft := ft } &&
    leads .tbBuild { base with ft := ft } fun t => t.err.isNone && leads .cbDerive t.passResult p

/-- A table of two entries, one of a single entry, and the empty one. -/
theorem witness_CodebookCoversTheTable :
    builds (fun _ => true) [(0x61, 2#32), (0x62, 1#32)] = true ∧ builds (fun _ => true) [(0x61, 4#32)] = true ∧
    builds (fun _ => true) [] = true := by
  decide +kernel

/-- Two entries and one. -/
theorem witness_CodewordLengthsSumToTheInnerWeights :
    builds (fun u => decide (2 ≤ u.ft.length)) [(0x61, 2#32), (0x62, 1#32)] = true ∧
    builds (fun u => decide (u.ft.length = 1)) [(0x61, 4#32)] = true := by
  decide +kernel

end Sys2Proof.Tests
end

section
/-! PROOFS. Every accepted command's body is a good run from a state that meets the invariant, and every action of the
host keeps it: O19. -/

namespace Sys2Proof.Machine

/-! ### What acceptance gives (R92, R235) -/

theorem legal_tree_iff {s : State} {v : Word} :
    OperandType.tree.legal s v = true ↔ v = nilId ∨ (s.node? v).isSome = true := by
  simp [OperandType.legal]

theorem acceptable_iff {i : Instr} {s : State} :
    acceptable i s = true ↔ operandsLegal i s = true ∧ precondition s i = true := by
  simp [acceptable]

/-- The commands that open a stream, or several, need both units closed (R235). -/
theorem nothingOpen_of_acceptable {i : Instr} {s : State} (hacc : acceptable i s = true)
    (hi : i ∈ [Instr.bwOpen, .brOpen, .encRun, .decRun, .sesRun]) : s.bwOpen = false ∧ s.brOpen = false := by
  have hpre := (acceptable_iff.mp hacc).2
  have hnone : noneOpen s = true := by
    simp only [List.mem_cons, List.not_mem_nil, or_false] at hi
    rcases hi with rfl | rfl | rfl | rfl | rfl <;> exact hpre
  simpa [noneOpen] using hnone

theorem symbol_of_acceptable_treeLeaf {s : State} (hacc : acceptable .treeLeaf s = true) :
    s.arg0.toNat < s.cfg.nsym := by
  have hlegal := (acceptable_iff.mp hacc).1
  simpa [operandsLegal, operandTypes, legalAll, OperandType.legal] using hlegal

theorem children_of_acceptable_treeNode {s : State} (hacc : acceptable .treeNode s = true) :
    (s.arg0 = nilId ∨ (s.node? s.arg0).isSome = true) ∧ (s.arg1 = nilId ∨ (s.node? s.arg1).isSome = true) := by
  have hlegal := (acceptable_iff.mp hacc).1
  simp only [operandsLegal, operandTypes, legalAll, Bool.and_eq_true, legal_tree_iff] at hlegal
  exact ⟨hlegal.1, hlegal.2.1⟩

theorem root_of_acceptable_decRun {s : State} (hacc : acceptable .decRun s = true) :
    s.arg0 = nilId ∨ (s.node? s.arg0).isSome = true := by
  have hlegal := (acceptable_iff.mp hacc).1
  simpa [operandsLegal, operandTypes, legalAll, legal_tree_iff] using hlegal

/-! ### The bodies of the commands -/

theorem Run.Good.weaken {α : Type} {P : α → State → Prop} {r : Run α} (h : r.Good P) : r.Good fun _ _ => True :=
  h.mono fun _ _ _ => trivial

/-- A run that leaves the state alone is good. -/
theorem Run.good_of_state_eq {α : Type} {s : State} {r : Run α} (hs : r.state = s) (h : s.Inv) :
    r.Good fun _ _ => True := by
  subst hs
  cases r with
  | done a t => exact ⟨h, trivial⟩
  | raised k t => exact h.shut

theorem treeLeaf_good {s : State} (h : s.Inv) (hacc : acceptable .treeLeaf s = true) :
    (allocNode (.leaf (s.arg0.setWidth 16) s.arg1) s).Good fun _ _ => True := by
  refine (allocNode_good h ?_).weaken
  have hsym := symbol_of_acceptable_treeLeaf hacc
  have hle : s.arg0.toNat % 2 ^ 16 ≤ s.arg0.toNat := Nat.mod_le _ _
  simp only [Node.okAt, BitVec.toNat_setWidth, decide_eq_true_eq]
  omega

theorem treeNode_good {s : State} (h : s.Inv) (hacc : acceptable .treeNode s = true) :
    (allocNode (.inner s.arg0 s.arg1 s.arg2) s).Good fun _ _ => True := by
  obtain ⟨hleft, hright⟩ := children_of_acceptable_treeNode hacc
  refine (allocNode_good h ?_).weaken
  simp [Node.okAt, childBelow_of_node hleft, childBelow_of_node hright]

/-- The body of an accepted command is a good run (R235, step 5). -/
theorem body_good {i : Instr} {s : State} (h : s.Inv) (herr : s.err = none ∨ i = .sysClear)
    (hacc : acceptable i s = true) : (body i s).Good fun _ _ => True := by
  have hopen := nothingOpen_of_acceptable hacc
  cases i with
  | sysClear => exact sysClear_good h
  | sesRun => exact sesRun_good h
  | fcCount => exact fcCount_good h
  | treeLeaf => exact treeLeaf_good h hacc
  | treeNode => exact treeNode_good h hacc
  | treeIsLeaf => exact Run.good_of_state_eq (fieldOfArg0_state _ s) h
  | treeSym => exact Run.good_of_state_eq (fieldOfArg0_state _ s) h
  | treeLeft => exact Run.good_of_state_eq (fieldOfArg0_state _ s) h
  | treeRight => exact Run.good_of_state_eq (fieldOfArg0_state _ s) h
  | treeWeight => exact Run.good_of_state_eq (fieldOfArg0_state _ s) h
  | treeSize => exact Run.good_of_state_eq (sizeRun_state _ s) h
  | treeEq => exact Run.good_of_state_eq rfl h
  | tbBuild => exact (tbBuild_good h).weaken
  | cbDerive => exact (cbDerive_good h s.arg0).weaken
  | bwOpen =>
    exact (bwOpenRun_good h (by simpa using herr) (hopen (by simp)).2).andThen fun _ _ ht _ => ⟨ht, trivial⟩
  | bwClose => exact (bwCloseRun_good h).weaken
  | bwWrite b => exact (bwWriteBit_good h b).andThen fun _ _ ht _ => ⟨ht, trivial⟩
  | brOpen => exact brOpenRun_good h (by simpa using herr) (hopen (by simp)).1
  | brRead => exact (brReadBit_good h).andThen fun _ _ ht _ => ⟨ht, trivial⟩
  | brClose =>
    exact ⟨{ h with oneOpen := .inr rfl, faultedShut := fun he => ⟨(h.faultedShut he).1, rfl⟩ }, trivial⟩
  | encRun => exact (encRun_good h (by simpa using herr) (hopen (by simp)).2).weaken
  | decRun => exact decRun_good h (by simpa using herr) (hopen (by simp)).1 (root_of_acceptable_decRun hacc)

/-! ### Commands and host actions -/

theorem runCommand_inv (i : Instr) {s : State} (h : s.Inv) : (runCommand i (body i) s).Inv := by
  rcases runCommand_cases i (body i) s with ⟨-, he⟩ | ⟨-, -, he⟩ | ⟨herr, hacc, he⟩ <;> rw [he]
  · exact h
  · exact State.raiseFault_inv _ h.shut
  · exact complete_inv (body_good h herr hacc)

theorem rejectWord_inv {s : State} (h : s.Inv) : (rejectWord s).Inv := by
  unfold rejectWord
  split
  · exact h
  · exact State.raiseFault_inv _ h.shut

/-- A word written to `CMD` runs the command it names, or is rejected (R90, R94). -/
theorem issueCommand_eq (w : Word) (s : State) :
    (∃ i, decode w = .instr i ∧ issueCommand w s = .next (runCommand i (body i) s)) ∨
    ∃ r, decode w = .reject r ∧ issueCommand w s = .next (rejectWord s) := by
  unfold issueCommand
  cases decode w with
  | instr i => exact .inl ⟨i, rfl, exec_eq_runCommand i s⟩
  | reject r => exact .inr ⟨r, rfl, rfl⟩

theorem writePort_inv {r : PortReg} {v : Word} {s t : State} (h : s.Inv) (ht : writePort r v s = .next t) :
    t.Inv := by
  cases r with
  | cmd =>
    change issueCommand v s = .next t at ht
    rcases issueCommand_eq v s with ⟨i, -, he⟩ | ⟨r, -, he⟩ <;> rw [he] at ht <;> cases ht
    · exact runCommand_inv i h
    · exact rejectWord_inv h
  | arg0 => cases ht; exact { h with }
  | arg1 => cases ht; exact { h with }
  | arg2 => cases ht; exact { h with }
  | res => cases ht; exact h
  | status => cases ht; exact h

theorem perform_inv {op : HostOp} {s t : State} (h : s.Inv) (ht : perform op s = .next t) : t.Inv := by
  cases op with
  | writeReg r v => exact writePort_inv h ht
  | readReg r => cases ht; exact h
  | readMem m => cases ht; exact h
  | writeSrc a v => cases ht; exact { h with srcOk := h.srcOk.store a.isLt (symCell_lt s.cfg v) }
  | writeSrcLen n => cases ht; exact { h with srcOk := h.srcOk.setLen n }
  | writeCmp a v => cases ht; exact { h with cmpOk := h.cmpOk.store a.isLt v }
  | writeCmpLen n => cases ht; exact { h with cmpOk := h.cmpOk.setLen n }
  | writeOut a v => cases ht; exact { h with outOk := h.outOk.store a.isLt (symCell_lt s.cfg v) }
  | writeOutLen n => cases ht; exact { h with outOk := h.outOk.setLen n }
  | reset => cases ht; exact h.applyReset
  | resetDuring w used cl cn ol on => cases ht; exact h.resetDuring w used cl cn ol on

/-- A step with an action pending performs it; with none pending it changes nothing (R290, R311). -/
theorem step_cons {s : State} {op : HostOp} {rest : List HostOp} (h : s.host = op :: rest) :
    step s = perform op { s with host := rest } := by
  unfold step
  rw [h]

theorem step_nil {s : State} (h : s.host = []) : step s = .next s := by
  unfold step
  rw [h]

/-- Settles O19: an idle step changes nothing, and every action of the host keeps the invariant. -/
theorem stepKeepsTheInvariant : Obligations.StepKeepsTheInvariant := by
  unfold Obligations.StepKeepsTheInvariant
  intro s t h ht
  cases hhost : s.host with
  | nil => rw [step_nil hhost] at ht; cases ht; exact h
  | cons op rest => rw [step_cons hhost] at ht; exact perform_inv (h.setHost rest) ht

end Sys2Proof.Machine
end

section
/-! PROOFS. What the host sees between commands (`STATUS`, the external memories), and the tree an id names: O7, O8,
O27. -/

namespace Sys2Proof.Machine

/-! ### `STATUS` (R22, R270) -/

theorem FaultKind.code_ne_zero (k : FaultKind) : k.code ≠ 0#4 := by
  cases k <;> decide

theorem State.errCode_of_none {s : State} (h : s.err = none) : s.errCode = 0#4 := by
  simp [State.errCode, h]

theorem State.errCode_of_some {s : State} {k : FaultKind} (h : s.err = some k) : s.errCode = k.code := by
  simp [State.errCode, h]

theorem State.faulted_eq (s : State) : s.faulted = decide (s.errCode ≠ 0#4) := by
  cases h : s.err with
  | none => simp [State.faulted, State.errCode_of_none h, h]
  | some k => simp [State.faulted, State.errCode_of_some h, h, k.code_ne_zero]

theorem State.status_errField (s : State) : s.status.extractLsb' 0 4 = s.errCode :=
  BitVec.extractLsb'_append_eq_right

theorem State.status_flags (s : State) :
    s.status.getLsbD 4 = s.faulted ∧ s.status.getLsbD 5 = s.bwOpen ∧ s.status.getLsbD 6 = s.brOpen ∧
      s.status.getLsbD 7 = s.brShort ∧ s.status.getLsbD 8 = s.cmpValid ∧ s.status.getLsbD 9 = s.outValid := by
  unfold State.status
  simp only [BitVec.getLsbD_append]
  simp

theorem State.status_reserved (s : State) {j : Nat} (hj : 10 ≤ j) : s.status.getLsbD j = false := by
  obtain ⟨k, rfl⟩ := Nat.exists_eq_add_of_le' hj
  unfold State.status
  simp only [BitVec.getLsbD_append]
  simp

/-- Settles O8, from the bits of the concatenation that `STATUS` is and the code of each kind. -/
theorem statusShowsTheFlagsAndTheFaultCode : Obligations.StatusShowsTheFlagsAndTheFaultCode := by
  unfold Obligations.StatusShowsTheFlagsAndTheFaultCode
  refine ⟨fun s => ?_, fun s rest hhost => ⟨rfl, step_cons hhost⟩, fun _ => State.errCode_of_none,
    fun _ _ => State.errCode_of_some, rfl, rfl, rfl, rfl, rfl, rfl, rfl, rfl, rfl⟩
  obtain ⟨hfaulted, hflags⟩ := s.status_flags
  obtain ⟨hbw, hbr, hshort, hcmp, hout⟩ := hflags
  exact ⟨s.status_errField, hfaulted.trans s.faulted_eq, hbw, hbr, hshort, hcmp, hout, fun _ => s.status_reserved⟩

/-! ### Host accesses to the external memories (R77) -/

theorem Space.read_store_self {α : Type} [DecidableEq α] {d : α} {sp : Space α} (h : Memory.wf d sp.cells = true)
    (a : Nat) (v : α) : (sp.store d a v).read d a = v := by
  rw [Space.read_store h, if_pos rfl]

theorem Space.read_store_other {α : Type} [DecidableEq α] {d : α} {sp : Space α} (h : Memory.wf d sp.cells = true)
    {a b : Nat} (hb : b ≠ a) (v : α) : (sp.store d a v).read d b = sp.read d b := by
  rw [Space.read_store h, if_neg hb.symm]

/-- A host write of a symbol: its cell reads as the low `SYM_W` bits, every other one as before (log entry 7). -/
theorem SymSpaceOk.read_store_symCell {c : Config} {sp : Space Symbol} (h : SymSpaceOk c sp) (a : Nat) (v : Symbol) :
    ((sp.store 0#16 a (symCell c v)).read 0#16 a).toNat = v.toNat % c.nsym ∧
      ∀ b, b ≠ a → (sp.store 0#16 a (symCell c v)).read 0#16 b = sp.read 0#16 b := by
  refine ⟨?_, fun b hb => Space.read_store_other h.canonical hb _⟩
  rw [Space.read_store_self h.canonical, symCell_toNat]

/-- What the host reads is the cell zero-extended, or the length (R77). -/
theorem State.readMem_toNat (s : State) (a : Word) :
    (s.readMem (.src a)).toNat = (s.src.read 0#16 a.toNat).toNat ∧
      (s.readMem (.cmp a)).toNat = (s.cmp.read 0#8 a.toNat).toNat ∧
      (s.readMem (.out a)).toNat = (s.out.read 0#16 a.toNat).toNat :=
  ⟨BitVec.toNat_setWidth_of_le (by decide), BitVec.toNat_setWidth_of_le (by decide),
    BitVec.toNat_setWidth_of_le (by decide)⟩

/-- Settles O7: each access is one action of `perform`, and a store in a canonical memory reads back. -/
theorem hostMemoryAccessesReachTheirCell : Obligations.HostMemoryAccessesReachTheirCell := by
  unfold Obligations.HostMemoryAccessesReachTheirCell
  intro s a n rest h
  obtain ⟨hsrc, hcmp, hout⟩ := s.readMem_toNat a
  refine ⟨fun m hhost => step_cons hhost, ⟨hsrc, hcmp, hout, rfl, rfl, rfl⟩, fun v hhost => ?_, fun v hhost => ?_,
    fun v hhost => ?_, fun hhost => step_cons hhost, fun hhost => step_cons hhost, fun hhost => step_cons hhost⟩
  · exact ⟨_, step_cons hhost, rfl, rfl, Space.read_store_self h.cmpOk.canonical _ v,
      fun b hb => Space.read_store_other h.cmpOk.canonical hb v⟩
  · exact ⟨_, step_cons hhost, rfl, rfl, h.srcOk.read_store_symCell _ v⟩
  · exact ⟨_, step_cons hhost, rfl, rfl, h.outOk.read_store_symCell _ v⟩

/-! ### The tree an id names (R29, R46) -/

theorem State.tree_of_leaf {s : State} {n : NodeId} {sym : Symbol} {w : Word} (hn : s.node? n = some (.leaf sym w)) :
    s.tree n = .leaf sym w := by
  unfold State.tree unfoldTree
  rw [show nodeIn s.nodes n = _ from hn]

/-- A child's tree may be unfolded with as many levels as its parent's id counts, being `NIL` or smaller. -/
theorem State.Inv.tree_child {s : State} (h : s.Inv) {n m : NodeId} (hm : m = nilId ∨ m.toNat < n.toNat) :
    unfoldTree s.nodes n.toNat m = s.tree m := by
  rcases hm with rfl | hm
  · simp [State.tree]
  · exact h.tree_levels hm

theorem State.Inv.tree_of_inner {s : State} (h : s.Inv) {n l r : NodeId} {w : Word}
    (hn : s.node? n = some (.inner l r w)) : s.tree n = .inner (s.tree l) (s.tree r) w := by
  have hok := h.node_ok hn
  simp only [Node.okAt, Bool.and_eq_true, childBelow_iff] at hok
  rw [State.tree, unfoldTree, show nodeIn s.nodes n = _ from hn]
  simp only [h.tree_child hok.1, h.tree_child hok.2]

/-- Settles O27: one level of unfolding, the children's trees needing fewer levels (R29). -/
theorem treesFollowTheRecords : Obligations.TreesFollowTheRecords := by
  unfold Obligations.TreesFollowTheRecords
  exact fun s h => ⟨unfoldTree_nilId _ _, fun n => ⟨fun _ _ => State.tree_of_leaf, fun _ _ _ => h.tree_of_inner⟩⟩

end Sys2Proof.Machine
end

section
/-! PROOFS. Which part of the state each command may write, and what none writes: O20. -/

namespace Sys2Proof.Machine

/-! ### Parts of the state and their writers -/

/-- A part of the state that one command or another may write. -/
inductive Part where
  | operands
  | result
  | fault
  | table
  | codebook
  | records
  | decoder
  | output
  | readerRegs
  | readerOpen
  | bitTotal
  | writerOpen
  | stream
  | cmpValid
  | answers

/-- `t` holds in a part what `s` holds there. -/
def Part.same (s t : State) : Part → Prop
  | .operands => t.arg0 = s.arg0 ∧ t.arg1 = s.arg1 ∧ t.arg2 = s.arg2 ∧ t.src = s.src ∧ t.cfg = s.cfg ∧ t.host = s.host
  | .result => t.res = s.res
  | .fault => t.err = s.err
  | .table => t.ft = s.ft
  | .codebook => t.cb = s.cb
  | .records => t.nodes = s.nodes
  | .decoder => t.decRoot = s.decRoot ∧ t.decCur = s.decCur ∧ t.outValid = s.outValid
  | .output => t.out = s.out
  | .readerRegs =>
    t.brRem = s.brRem ∧ t.brPtr = s.brPtr ∧ t.brBuf = s.brBuf ∧ t.brNbuf = s.brNbuf ∧ t.brShort = s.brShort
  | .readerOpen => t.brOpen = s.brOpen
  | .bitTotal => t.bwTotal = s.bwTotal
  | .writerOpen => t.bwOpen = s.bwOpen
  | .stream => t.cmp = s.cmp ∧ t.bwBuf = s.bwBuf ∧ t.bwNbuf = s.bwNbuf
  | .cmpValid => t.cmpValid = s.cmpValid
  | .answers => t.env = s.env

/-- The commands whose pseudocode may write a part (R25, R31 to R34, R39, R40, R60). -/
def Part.writers : Part → List Instr
  | .operands => []
  | .result => [.sysClear]
  | .fault => [.sysClear, .sesRun]
  | .table => [.fcCount, .sysClear, .sesRun]
  | .codebook => [.cbDerive, .sysClear, .sesRun]
  | .records => [.treeLeaf, .treeNode, .tbBuild, .sysClear, .sesRun]
  | .decoder => [.decRun, .sysClear, .sesRun]
  | .output => [.decRun, .sesRun]
  | .readerRegs => [.brOpen, .brRead, .decRun, .sysClear, .sesRun]
  | .readerOpen => [.brOpen, .brClose, .decRun, .sysClear, .sesRun]
  | .bitTotal => [.bwOpen, .bwWrite false, .bwWrite true, .encRun, .sysClear, .sesRun]
  | .writerOpen => [.bwOpen, .bwClose, .encRun, .sysClear, .sesRun]
  | .stream => [.bwOpen, .bwClose, .bwWrite false, .bwWrite true, .encRun, .sysClear, .sesRun]
  | .cmpValid => [.bwOpen, .bwClose, .encRun, .sysClear, .sesRun]
  | .answers => [.fcCount, .bwOpen, .bwClose, .bwWrite false, .bwWrite true, .encRun, .brOpen, .brRead, .decRun,
      .sysClear, .sesRun]

/-- The parts the completion of a command may write beside its pseudocode: `RES`, or what a raise writes (R238,
R280). -/
def completionParts : List Part := [.result, .fault, .readerOpen, .writerOpen, .stream, .answers]

theorem Part.same_refl (p : Part) (s : State) : p.same s s := by
  cases p <;> simp [Part.same]

theorem Part.same_trans (p : Part) {s t u : State} (h : p.same s t) (g : p.same t u) : p.same s u := by
  cases p <;> simp_all [Part.same]

theorem Run.andThen_same {α β : Type} (p : Part) {s : State} {r : Run α} {f : α → State → Run β}
    (hr : p.same s r.state) (hf : ∀ a t, p.same t (f a t).state) : p.same s (r.andThen f).state :=
  Run.andThen_frame (fun s t => p.same s t) p.same_trans hr hf

/-! ### The frames of the micro-operations, by parts -/

section

variable {s t : State} {p : Part}

theorem TableOnly.same (h : TableOnly s t) (hp : p ∉ [Part.table, .answers]) : p.same s t := by
  rw [h]
  cases p <;> simp [Part.same] at hp ⊢

theorem NodesOnly.same (h : NodesOnly s t) (hp : p ∉ [Part.records]) : p.same s t := by
  obtain ⟨more, rfl⟩ := h
  cases p <;> simp [Part.same] at hp ⊢

theorem WriterOnly.same (h : WriterOnly s t)
    (hp : p ∉ [Part.bitTotal, .writerOpen, .stream, .cmpValid, .answers]) : p.same s t := by
  rw [h]
  cases p <;> simp [Part.same] at hp ⊢

theorem ReaderOnly.same (h : ReaderOnly s t) (hp : p ∉ [Part.readerRegs, .readerOpen, .answers]) : p.same s t := by
  rw [h]
  cases p <;> simp [Part.same] at hp ⊢

theorem DecoderOnly.same (h : DecoderOnly s t)
    (hp : p ∉ [Part.decoder, .output, .readerRegs, .readerOpen, .answers]) : p.same s t := by
  rw [h]
  cases p <;> simp [Part.same] at hp ⊢

theorem Part.same_of_eq (h : t = s) : p.same s t := h ▸ p.same_refl s

theorem writeCmp_same (hp : p ∉ [Part.stream, .answers]) (a : Nat) (v : Byte) (s : State) :
    p.same s (writeCmp a v s).state := by
  rw [writeCmp_frame]
  cases p <;> simp [Part.same] at hp ⊢

theorem writeCmpBytes_same (hp : p ∉ [Part.stream, .answers]) (a : Nat) (vs : List Byte) (s : State) :
    p.same s (writeCmpBytes a vs s).state := by
  rw [writeCmpBytes_frame]
  cases p <;> simp [Part.same] at hp ⊢

/-- A new bit goes to the buffer and the total, and on to `CMP` when the buffer is full (R122). -/
theorem bwWriteBit_same (hp : p ∉ [Part.bitTotal, .stream, .answers]) (b : Bool) (s : State) :
    p.same s (bwWriteBit b s).state := by
  have hbuffer : ∀ (t : State) (v : Byte) (n : BitVec 3) (c : Word),
      p.same t { t with bwBuf := v, bwNbuf := n, bwTotal := c } := by
    intro t v n c
    cases p <;> simp [Part.same] at hp ⊢
  unfold bwWriteBit
  split
  · exact p.same_refl s
  · dsimp only
    split
    · refine Run.andThen_same p ?_ fun _ t => hbuffer t _ _ t.bwTotal
      exact p.same_trans (hbuffer s _ s.bwNbuf _) (writeCmp_same (by simp_all) _ _ _)
    · exact hbuffer s _ _ _

theorem bwFlush_same (hp : p ∉ [Part.stream, .answers]) (s : State) : p.same s (bwFlush s).state := by
  unfold bwFlush
  split
  · exact p.same_refl s
  · refine Run.andThen_same p (writeCmp_same hp _ _ s) fun _ t => ?_
    cases p <;> simp [Part.same] at hp ⊢

/-- A close does not touch the total it writes (R124). -/
theorem bwCloseRun_same (hp : p ∉ [Part.writerOpen, .stream, .cmpValid, .answers]) (s : State) :
    p.same s (bwCloseRun s).state := by
  have hp' : p ∉ [Part.stream, .answers] := by simp_all
  refine Run.andThen_same p (bwFlush_same hp' s) fun _ t =>
    Run.andThen_same p (writeCmpBytes_same hp' _ _ t) fun _ u => ?_
  cases p <;> simp [Part.same] at hp ⊢

/-- A read of a bit leaves the reader open or closed as it was (R128). -/
theorem brReadBit_readerOpen (s : State) : (brReadBit s).state.brOpen = s.brOpen := by
  unfold brReadBit
  split
  · rfl
  · split
    · split
      · rfl
      · rcases readCmp_cases s.brPtr.toNat s with ⟨-, h⟩ | ⟨_, -, h⟩ <;> rw [h] <;> rfl
    · rfl

theorem brReadBit_same (hp : p ∉ [Part.readerRegs, .answers]) (s : State) : p.same s (brReadBit s).state := by
  by_cases ho : p ∈ [Part.readerOpen]
  · obtain rfl := List.mem_singleton.mp ho
    exact brReadBit_readerOpen s
  · exact (brReadBit_frame s).same (by simp_all)

/-- `SYS.CLEAR` keeps the operands and `OUT` (R236). -/
theorem sysClear_same (hp : p ∈ [Part.operands, .output]) (s : State) : p.same s (sysClear s).state := by
  have hquiet : (WriterOnly s (if s.bwOpen then bwCloseQuiet s else s)) := by
    split
    · exact bwCloseQuiet_writerOnly s
    · exact .refl s
  simp only [List.mem_cons, List.not_mem_nil, or_false] at hp
  refine p.same_trans (hquiet.same (p := p) ?_) ?_ <;> rcases hp with rfl | rfl <;> simp [Part.same, sysClear]

theorem cbDerive_same (hp : p ∉ [Part.codebook]) (root : NodeId) (s : State) : p.same s (cbDerive root s).state := by
  cases p <;> simp [Part.same, cbDerive] at hp ⊢

/-- The stages of `SES.RUN` keep the operands, `RES` and the `ERR` of the fresh session (R237). -/
theorem sesRun_same (hp : p ∈ [Part.operands, .result, .fault]) (s : State) :
    p.same s.freshSession (sesRun s).state := by
  have hother : p ∉ [Part.table, .codebook, .records, .decoder, .output, .readerRegs, .readerOpen, .bitTotal,
      .writerOpen, .stream, .cmpValid, .answers] := by
    simp only [List.mem_cons, List.not_mem_nil, or_false] at hp
    rcases hp with rfl | rfl | rfl <;> simp
  have hstages : p.same s.freshSession (sesStages s).state :=
    Run.andThen_same p ((fcCount_frame _).same (by simp_all)) fun _ t =>
      Run.andThen_same p ((tbBuild_frame t).same (by simp_all)) fun root u =>
        Run.andThen_same p (cbDerive_same (by simp_all) root u) fun _ v => p.same_refl v
  exact Run.andThen_same p hstages fun root t =>
    Run.andThen_same p ((encRun_frame t).same (by simp_all)) fun _ u =>
      Run.andThen_same p ((decRun_frame root u).same (by simp_all)) fun _ v => p.same_refl v

end

/-! ### The bodies and the completion of the commands -/

/-- The parts the pseudocode of a command may write. -/
def writtenParts : Instr → List Part
  | .sysClear => [.result, .fault, .table, .codebook, .records, .decoder, .readerRegs, .readerOpen, .bitTotal,
      .writerOpen, .stream, .cmpValid, .answers]
  | .sesRun => [.fault, .table, .codebook, .records, .decoder, .output, .readerRegs, .readerOpen, .bitTotal,
      .writerOpen, .stream, .cmpValid, .answers]
  | .fcCount => [.table, .answers]
  | .treeLeaf | .treeNode | .tbBuild => [.records]
  | .treeIsLeaf | .treeSym | .treeLeft | .treeRight | .treeWeight | .treeSize | .treeEq => []
  | .cbDerive => [.codebook]
  | .bwOpen | .encRun => [.bitTotal, .writerOpen, .stream, .cmpValid, .answers]
  | .bwClose => [.writerOpen, .stream, .cmpValid, .answers]
  | .bwWrite _ => [.bitTotal, .stream, .answers]
  | .brOpen => [.readerRegs, .readerOpen, .answers]
  | .brRead => [.readerRegs, .answers]
  | .brClose => [.readerOpen]
  | .decRun => [.decoder, .output, .readerRegs, .readerOpen, .answers]

/-- The two tables agree. -/
theorem notMem_writtenParts {i : Instr} {p : Part} (h : i ∉ p.writers) : p ∉ writtenParts i := by
  cases i with
  | bwWrite b => cases b <;> cases p <;> simp [Part.writers, writtenParts] at h ⊢
  | _ => cases p <;> simp [Part.writers, writtenParts] at h ⊢

/-- The pseudocode of a command leaves every part that it is no writer of. -/
theorem body_keeps {i : Instr} {p : Part} (h : i ∉ p.writers) (s : State) : p.same s (body i s).state := by
  have hp := notMem_writtenParts h
  cases i with
  | sysClear => exact sysClear_same (by cases p <;> simp [writtenParts] at hp ⊢) s
  | sesRun =>
    have hfresh : p.same s s.freshSession := by cases p <;> simp [writtenParts, Part.same] at hp ⊢
    exact p.same_trans hfresh (sesRun_same (by cases p <;> simp [writtenParts] at hp ⊢) s)
  | fcCount => exact (fcCount_frame s).same hp
  | treeLeaf => exact (allocNode_frame _ s).same hp
  | treeNode => exact (allocNode_frame _ s).same hp
  | treeIsLeaf => exact Part.same_of_eq (fieldOfArg0_state _ s)
  | treeSym => exact Part.same_of_eq (fieldOfArg0_state _ s)
  | treeLeft => exact Part.same_of_eq (fieldOfArg0_state _ s)
  | treeRight => exact Part.same_of_eq (fieldOfArg0_state _ s)
  | treeWeight => exact Part.same_of_eq (fieldOfArg0_state _ s)
  | treeSize => exact Part.same_of_eq (sizeRun_state _ s)
  | treeEq => exact p.same_refl s
  | tbBuild => exact (tbBuild_frame s).same hp
  | cbDerive => exact cbDerive_same hp s.arg0 s
  | bwOpen => exact Run.andThen_same p ((bwOpenRun_frame s).same hp) fun _ t => p.same_refl t
  | bwClose => exact bwCloseRun_same hp s
  | bwWrite b => exact Run.andThen_same p (bwWriteBit_same hp b s) fun _ t => p.same_refl t
  | brOpen => exact (brOpenRun_frame s).same hp
  | brRead => exact Run.andThen_same p (brReadBit_same hp s) fun _ t => p.same_refl t
  | brClose => cases p <;> simp [writtenParts, Part.same, body] at hp ⊢
  | encRun => exact (encRun_frame s).same hp
  | decRun => exact (decRun_frame s.arg0 s).same hp

theorem raiseFault_same {p : Part} (hp : p ∉ completionParts) (k : FaultKind) (s : State) :
    p.same s (s.raiseFault k) := by
  rw [State.raiseFault_frame]
  cases p <;> simp [completionParts, Part.same] at hp ⊢

theorem complete_same {p : Part} (hp : p ∉ completionParts) (r : Run Word) : p.same r.state (complete r) := by
  cases r with
  | done v t => cases p <;> simp [completionParts, Part.same] at hp ⊢
  | raised k t => exact raiseFault_same hp k t

/-- A command is ignored, refused, or completes what its body does (R235, R238). -/
theorem exec_cases {i : Instr} {s t : State} (h : exec i s = .next t) :
    ((s.err ≠ none ∧ i ≠ .sysClear) ∧ t = s) ∨
    ((s.err = none ∨ i = .sysClear) ∧ acceptable i s = false ∧ t = s.raiseFault .illegalCommand) ∨
    ((s.err = none ∨ i = .sysClear) ∧ acceptable i s = true ∧ t = complete (body i s)) := by
  rw [exec_eq_runCommand] at h
  cases h
  exact runCommand_cases i (body i) s

/-- A command leaves every part that neither its pseudocode nor its completion writes. -/
theorem exec_keeps {i : Instr} {p : Part} {s t : State} (hi : i ∉ p.writers) (hp : p ∉ completionParts)
    (h : exec i s = .next t) : p.same s t := by
  rcases exec_cases h with ⟨-, rfl⟩ | ⟨-, -, rfl⟩ | ⟨-, -, rfl⟩
  · exact p.same_refl _
  · exact raiseFault_same hp _ s
  · exact p.same_trans (body_keeps hi s) (complete_same hp _)

/-- Settles O20: no command is a writer of the operands. -/
theorem commandsKeepOperandsSourceAndParameters : Obligations.CommandsKeepOperandsSourceAndParameters := by
  unfold Obligations.CommandsKeepOperandsSourceAndParameters
  exact fun i s t h => exec_keeps (p := .operands) List.not_mem_nil (by simp [completionParts]) h

end Sys2Proof.Machine
end

section
/-! PROOFS. How commands end, what opens and closes a stream, and the frame of every command: O12, O21. -/

namespace Sys2Proof.Machine

/-! ### How a command ends (R238) -/

@[simp] theorem State.raiseFault_err (k : FaultKind) (s : State) : (s.raiseFault k).err = some (s.err.getD k) := by
  rw [State.raiseFault_frame]

@[simp] theorem State.raiseFault_bwOpen (k : FaultKind) (s : State) : (s.raiseFault k).bwOpen = false := by
  rw [State.raiseFault_frame]

@[simp] theorem State.raiseFault_brOpen (k : FaultKind) (s : State) : (s.raiseFault k).brOpen = false := by
  rw [State.raiseFault_frame]

@[simp] theorem State.raiseFault_res (k : FaultKind) (s : State) : (s.raiseFault k).res = s.res := by
  rw [State.raiseFault_frame]

theorem acceptable_sysClear (s : State) : acceptable .sysClear s = true := rfl

/-- `SYS.CLEAR` completes in every state (R236). -/
theorem exec_sysClear_eq {s t : State} (h : exec .sysClear s = .next t) :
    t = (if s.bwOpen then bwCloseQuiet s else s).clearSession := by
  rcases exec_cases h with ⟨⟨-, hne⟩, -⟩ | ⟨-, hacc, -⟩ | ⟨-, -, he⟩
  · exact absurd rfl hne
  · simp [acceptable_sysClear] at hacc
  · exact he

/-- The pseudocode of an accepted command records no kind itself; only the raise that ends it does (R280). -/
theorem body_err {i : Instr} {s : State} (h : s.err = none ∨ i = .sysClear) : (body i s).state.err = none := by
  by_cases hclear : i = .sysClear
  · subst hclear; rfl
  by_cases hses : i = .sesRun
  · subst hses; exact sesRun_same (p := .fault) (by simp) s
  have hkept : (body i s).state.err = s.err :=
    body_keeps (p := .fault) (by simp [Part.writers, hclear, hses]) s
  rw [hkept]
  exact h.resolve_right hclear

/-- Settles O12: `exec_cases`, and of an accepted command whether its pseudocode returns or raises. -/
theorem commandsEndInOneOfThreeWays : Obligations.CommandsEndInOneOfThreeWays := by
  unfold Obligations.CommandsEndInOneOfThreeWays
  intro i s
  refine ⟨_, exec_eq_runCommand i s, ?_⟩
  rcases exec_cases (exec_eq_runCommand i s) with ⟨⟨herr, hi⟩, he⟩ | ⟨herr, hacc, he⟩ | ⟨herr, -, he⟩ <;> rw [he]
  · exact .inl ⟨herr, hi, rfl⟩
  · have hi : i ≠ .sysClear := by rintro rfl; simp [acceptable_sysClear] at hacc
    exact .inr (.inr ⟨herr.resolve_right hi, by simp⟩)
  · have hnone := body_err herr
    cases hb : body i s with
    | done v u => rw [hb] at hnone; exact .inr (.inl ⟨herr, hnone⟩)
    | raised k u =>
      have hi : i ≠ .sysClear := by rintro rfl; cases hb
      have hres : (body i s).state.res = s.res := body_keeps (p := .result) (by simpa [Part.writers] using hi) s
      rw [hb] at hres
      exact .inr (.inr ⟨herr.resolve_right hi, by simpa using hres⟩)

/-! ### What opens a stream, and what closes one -/

theorem complete_brOpen {r : Run Word} (h : (complete r).brOpen = true) : r.state.brOpen = true := by
  cases r with
  | done v u => exact h
  | raised k u => simp at h

theorem complete_bwOpen {r : Run Word} (h : (complete r).bwOpen = true) : r.state.bwOpen = true := by
  cases r with
  | done v u => exact h
  | raised k u => simp at h

/-- Only the opening commands open a reader (R60). -/
theorem brOpen_before_of_exec {i : Instr} {s t : State} (hi : i ∉ [Instr.brOpen, .decRun, .sesRun])
    (h : exec i s = .next t) (ho : t.brOpen = true) : s.brOpen = true := by
  rcases exec_cases h with ⟨-, rfl⟩ | ⟨-, -, rfl⟩ | ⟨-, -, rfl⟩
  · exact ho
  · simp at ho
  · have hbody := complete_brOpen ho
    by_cases hclose : i ∈ [Instr.brClose, .sysClear]
    · simp only [List.mem_cons, List.not_mem_nil, or_false] at hclose
      rcases hclose with rfl | rfl <;> cases hbody
    · exact (body_keeps (p := .readerOpen) (by simp_all [Part.writers]) s).symm.trans hbody

theorem writerOpen_of_acceptable {i : Instr} {s : State} (hacc : acceptable i s = true)
    (hi : i ∈ [Instr.bwClose, .bwWrite false, .bwWrite true]) : s.bwOpen = true := by
  have hpre := (acceptable_iff.mp hacc).2
  simp only [List.mem_cons, List.not_mem_nil, or_false] at hi
  rcases hi with rfl | rfl | rfl <;> exact hpre

/-- Only the opening commands open a writer (R60). -/
theorem bwOpen_before_of_exec {i : Instr} {s t : State} (hi : i ∉ [Instr.bwOpen, .encRun, .sesRun])
    (h : exec i s = .next t) (ho : t.bwOpen = true) : s.bwOpen = true := by
  rcases exec_cases h with ⟨-, rfl⟩ | ⟨-, -, rfl⟩ | ⟨-, hacc, rfl⟩
  · exact ho
  · simp at ho
  · have hbody := complete_bwOpen ho
    by_cases hclose : i ∈ [Instr.bwClose, .sysClear]
    · simp only [List.mem_cons, List.not_mem_nil, or_false] at hclose
      rcases hclose with rfl | rfl
      · exact writerOpen_of_acceptable hacc (by simp)
      · cases hbody
    · exact (body_keeps (p := .writerOpen) (by simp_all [Part.writers]) s).symm.trans hbody

/-- With no writer open a raise leaves `CMP` and the bit buffer (R281). -/
theorem complete_stream_noWriter {r : Run Word} (h : r.state.bwOpen = false) :
    Part.stream.same r.state (complete r) := by
  cases r with
  | done v u => exact Part.same_refl .stream u
  | raised k u =>
    rw [complete_raised, State.raiseFault_noWriter k (s := u) h]
    exact Part.same_refl .stream u

/-- A command that opens no writer leaves `CMP` and the bit buffer when none is open; `SYS.CLEAR` clears the buffer. -/
theorem exec_stream_noWriter {i : Instr} {s t : State} (hi : i ∉ [Instr.bwOpen, .encRun, .sesRun])
    (h : exec i s = .next t) (hs : s.bwOpen = false) :
    t.cmp = s.cmp ∧ t.bwBuf = (if i = .sysClear then 0#8 else s.bwBuf) ∧
      t.bwNbuf = (if i = .sysClear then 0#3 else s.bwNbuf) := by
  by_cases hclear : i = .sysClear
  · subst hclear
    rw [exec_sysClear_eq h]
    simp [hs]
  simp only [hclear, if_false]
  change Part.stream.same s t
  rcases exec_cases h with ⟨-, rfl⟩ | ⟨-, -, rfl⟩ | ⟨-, hacc, rfl⟩
  · exact Part.same_refl .stream _
  · exact complete_stream_noWriter (r := .raised .illegalCommand s) hs
  · have hwriting : i ∉ [Instr.bwClose, .bwWrite false, .bwWrite true] := fun hw => by
      simp [writerOpen_of_acceptable hacc hw] at hs
    have hopen : (body i s).state.bwOpen = s.bwOpen := body_keeps (p := .writerOpen) (by simp_all [Part.writers]) s
    exact Part.same_trans .stream (body_keeps (p := .stream) (by simp_all [Part.writers]) s)
      (complete_stream_noWriter (hopen.trans hs))

/-! ### Answers used up -/

theorem readSrc_env (a : Nat) (s : State) : (readSrc a s).state.env <:+ s.env := by
  rcases readSrc_cases a s with ⟨-, h⟩ | ⟨_, -, h⟩ <;> rw [h] <;> exact List.tail_suffix _

theorem Run.andThen_env {α β : Type} {s : State} {r : Run α} {f : α → State → Run β} (hr : r.state.env <:+ s.env)
    (hf : ∀ a t, (f a t).state.env <:+ t.env) : (r.andThen f).state.env <:+ s.env :=
  Run.andThen_frame (fun s t => t.env <:+ s.env) (fun h g => g.trans h) hr hf

theorem fcLoop_env (remaining i : Nat) (s : State) : (fcLoop remaining i s).state.env <:+ s.env := by
  induction remaining generalizing i s with
  | zero => exact List.suffix_rfl
  | succ n ih =>
    refine Run.andThen_env (readSrc_env i s) fun sym t => Run.andThen_env ?_ fun _ u => ih (i + 1) u
    unfold fcStep
    split <;> exact List.suffix_rfl

theorem fcCount_env (s : State) : (fcCount s).state.env <:+ s.env := by
  refine Run.andThen_env (s := s) ?_ fun _ t => Run.andThen_env (fcLoop_env _ _ t) fun _ _ => List.suffix_rfl
  rcases openRead_cases { s with ft := [] } with ⟨-, h⟩ | ⟨_, -, h⟩ <;> rw [h] <;> exact List.tail_suffix _

theorem brReadBit_env (s : State) : (brReadBit s).state.env <:+ s.env := by
  unfold brReadBit
  split
  · exact List.suffix_rfl
  · split
    · split
      · exact List.suffix_rfl
      · refine Run.andThen_env ?_ fun _ _ => List.suffix_rfl
        rcases readCmp_cases s.brPtr.toNat s with ⟨-, h⟩ | ⟨_, -, h⟩ <;> rw [h] <;> exact List.tail_suffix _
    · exact List.suffix_rfl

/-- A command that writes no stream and opens nothing uses up answers in their order. -/
theorem body_env {i : Instr}
    (hi : i ∉ [Instr.bwOpen, .bwClose, .bwWrite false, .bwWrite true, .encRun, .brOpen, .decRun, .sysClear, .sesRun])
    (s : State) : (body i s).state.env <:+ s.env := by
  by_cases hcount : i = .fcCount
  · subst hcount; exact fcCount_env s
  by_cases hread : i = .brRead
  · subst hread; exact Run.andThen_env (brReadBit_env s) fun _ _ => List.suffix_rfl
  have hkept : (body i s).state.env = s.env := body_keeps (p := .answers) (by simp_all [Part.writers]) s
  exact hkept ▸ List.suffix_rfl

/-! ### An open writer -/

/-- `t` holds of the writer what the quiet close (R133) makes of it in a state `u` with the writer of `s`, some answers
of the environment used up since. -/
def QuietlyClosed (s t : State) : Prop :=
  ∃ u : State, u.bwOpen = true ∧ u.cmp = s.cmp ∧ u.bwBuf = s.bwBuf ∧ u.bwNbuf = s.bwNbuf ∧ u.bwTotal = s.bwTotal ∧
    (∃ n, u.env = s.env.drop n) ∧ t.cmp = (bwCloseQuiet u).cmp ∧ t.bwBuf = (bwCloseQuiet u).bwBuf ∧
    t.bwNbuf = (bwCloseQuiet u).bwNbuf ∧ t.env = (bwCloseQuiet u).env

/-- What becomes of an open writer, by the state `u` a command reached with it: left as it was, or closed quietly. -/
theorem complete_openWriter {r : Run Word} {s : State} (hs : s.bwOpen = true)
    (hkept : ∀ p ∈ [Part.writerOpen, .stream, .bitTotal], p.same s r.state) (henv : r.state.env <:+ s.env) :
    ((complete r).bwOpen = true → Part.stream.same s (complete r)) ∧
    ((complete r).bwOpen = false →
      QuietlyClosed s (complete r)) := by
  have hopen : r.state.bwOpen = s.bwOpen := hkept .writerOpen (by simp)
  have htotal : r.state.bwTotal = s.bwTotal := hkept .bitTotal (by simp)
  have hstream : Part.stream.same s r.state := hkept .stream (by simp)
  cases r with
  | done v u =>
    refine ⟨fun _ => hstream, fun hshut => ?_⟩
    rw [hs] at hopen
    cases hopen.symm.trans hshut
  | raised k u =>
    refine ⟨fun ho => by simp at ho, fun _ => ?_⟩
    obtain ⟨hcmp, hbuf, hnbuf⟩ := hstream
    have hdrop := List.suffix_iff_eq_drop.mp henv
    have hraise : u.raiseFault k = { bwCloseQuiet { u with err := some (u.err.getD k) } with brOpen := false } := by
      simp [State.raiseFault, State.release, show u.bwOpen = true from hopen.trans hs]
    exact ⟨{ u with err := some (u.err.getD k) }, hopen.trans hs, hcmp, hbuf, hnbuf, htotal, ⟨_, hdrop⟩,
      by simp [hraise]⟩

/-! ### The valid flags -/

/-- Opening a writer claims no validity (R40, R120). -/
theorem cmpValid_before_of_bwOpenRun {s : State} (h : (bwOpenRun s).state.cmpValid = true) : s.cmpValid = true := by
  unfold bwOpenRun at h
  rcases openWriteCmp_cases s with ⟨-, he⟩ | ⟨_, -, he⟩ <;> rw [he] at h
  · rw [Run.andThen_done, writeCmpBytes_frame] at h
    cases h
  · exact h

@[simp] theorem Run.state_andThen_done {α β : Type} (r : Run α) (b : β) :
    (r.andThen fun _ t => .done b t).state = r.state := by
  cases r <;> rfl

/-- Only a close that completes claims that `CMP` is valid (R40, R124). -/
theorem cmpValid_before_of_exec {i : Instr} {s t : State} (hi : i ∉ [Instr.bwClose, .encRun, .sesRun])
    (h : exec i s = .next t) (ht : t.cmpValid = true) : s.cmpValid = true := by
  have hkept : ∀ r : Run Word, (complete r).cmpValid = r.state.cmpValid :=
    complete_same (p := .cmpValid) (by simp [completionParts])
  by_cases hclear : i = .sysClear
  · subst hclear; rw [exec_sysClear_eq h] at ht; cases ht
  by_cases hopen : i = .bwOpen
  · subst hopen
    rcases exec_cases h with ⟨-, rfl⟩ | ⟨-, -, rfl⟩ | ⟨-, -, rfl⟩
    · exact ht
    · exact (hkept (.raised .illegalCommand s)).symm.trans ht
    · exact cmpValid_before_of_bwOpenRun (by simpa [hkept, body] using ht)
  exact (exec_keeps (p := .cmpValid) (by simp_all [Part.writers]) (by simp [completionParts]) h).symm.trans ht

/-- Only a decoding that completes claims that `OUT` is valid (R40, R223). -/
theorem outValid_before_of_exec {i : Instr} {s t : State} (hi : i ∉ [Instr.decRun, .sesRun]) (h : exec i s = .next t)
    (ht : t.outValid = true) : s.outValid = true := by
  by_cases hclear : i = .sysClear
  · subst hclear; rw [exec_sysClear_eq h] at ht; cases ht
  obtain ⟨-, -, hvalid⟩ : Part.decoder.same s t :=
    exec_keeps (by simp_all [Part.writers]) (by simp [completionParts]) h
  exact hvalid.symm.trans ht

/-- A command outside the bit writer leaves an open writer as it was, or closes it quietly by a raise (R133, R281). -/
theorem exec_openWriter {i : Instr} {s t : State} (hi : i ∉ Part.stream.writers) (h : exec i s = .next t)
    (hs : s.bwOpen = true) :
    (t.bwOpen = true → Part.stream.same s t) ∧
    (t.bwOpen = false →
      QuietlyClosed s t) := by
  rcases exec_cases h with ⟨-, rfl⟩ | ⟨-, -, rfl⟩ | ⟨-, hacc, rfl⟩
  · exact ⟨fun _ => Part.same_refl .stream _, fun hshut => by simp [hs] at hshut⟩
  · exact complete_openWriter (r := .raised .illegalCommand s) hs (fun p _ => p.same_refl s) List.suffix_rfl
  · have hnotOpening : i ∉ [Instr.brOpen, .decRun] := fun ho => by
      have hnone := nothingOpen_of_acceptable hacc (by simp at ho; rcases ho with rfl | rfl <;> simp)
      simp [hs] at hnone
    refine complete_openWriter hs (fun p hp => body_keeps ?_ s) (body_env (by simp_all [Part.writers]) s)
    simp only [List.mem_cons, List.not_mem_nil, or_false] at hp
    rcases hp with rfl | rfl | rfl <;> simp_all [Part.writers]

/-- Settles O21, by the table `Part.writers` and the lemmas on open streams and valid flags. -/
theorem eachTableHasItsWriters : Obligations.EachTableHasItsWriters := by
  unfold Obligations.EachTableHasItsWriters
  intro i s t h
  have hkeeps : ∀ p : Part, p ∉ completionParts → i ∉ p.writers → p.same s t := fun p hp hi => exec_keeps hi hp h
  simp only [completionParts] at hkeeps
  exact ⟨hkeeps .table (by simp), hkeeps .codebook (by simp), hkeeps .records (by simp), hkeeps .decoder (by simp),
    hkeeps .output (by simp), hkeeps .readerRegs (by simp), fun hi => brOpen_before_of_exec hi h,
    hkeeps .bitTotal (by simp), fun hi => bwOpen_before_of_exec hi h, fun hi => exec_stream_noWriter hi h,
    fun hi => exec_openWriter hi h, hkeeps .cmpValid (by simp), fun hi => cmpValid_before_of_exec hi h,
    fun hi => outValid_before_of_exec hi h⟩

end Sys2Proof.Machine
end

section
/-! PROOFS. The host's pending actions have no part in what a command does: the pseudocode of the commands that write no
stream and open none runs the same whatever the host is about to do (R235, log entry 1). -/

namespace Sys2Proof.Machine

/-! ### Runs and the host's pending actions -/

/-- `s` with other actions of the host pending. -/
def State.setHost (ops : List HostOp) (s : State) : State := { s with host := ops }

/-- A run with other actions of the host pending. -/
def Run.setHost {α : Type} (ops : List HostOp) : Run α → Run α
  | .done a s => .done a (s.setHost ops)
  | .raised k s => .raised k (s.setHost ops)

/-- A piece of pseudocode to which the host's pending actions make no difference. -/
def HostFree {α : Type} (f : State → Run α) : Prop := ∀ ops s, f (s.setHost ops) = (f s).setHost ops

@[simp] theorem State.setHost_key (ops : List HostOp) (s : State) (n : NodeId) :
    (s.setHost ops).key n = s.key n := rfl

theorem HostFree.andThen {α β : Type} {f : State → Run α} {g : α → State → Run β} (hf : HostFree f)
    (hg : ∀ a, HostFree (g a)) : HostFree fun s => (f s).andThen g := by
  intro ops s
  simp only [hf ops s]
  cases f s with
  | done a t => exact hg a ops t
  | raised k t => rfl

theorem HostFree.ite {α : Type} {c : State → Prop} [∀ s, Decidable (c s)] {f g : State → Run α}
    (hc : ∀ ops s, c (s.setHost ops) ↔ c s) (hf : HostFree f) (hg : HostFree g) :
    HostFree fun s => if c s then f s else g s := by
  intro ops s
  by_cases h : c s
  · simpa only [hc ops s, h, if_true] using hf ops s
  · simpa only [hc ops s, h, if_false] using hg ops s

/-! ### Accesses and the frequency counter -/

theorem ask_setHost (ops : List HostOp) (s : State) : ask (s.setHost ops) = ((ask s).1, (ask s).2.setHost ops) := by
  rw [ask_eq, ask_eq]
  rfl

theorem openRead_hostFree : HostFree openRead := by
  intro ops s
  simp only [openRead, ask_setHost]
  rcases ask s with ⟨_ | _, t⟩ <;> rfl

theorem readSrc_hostFree (a : Nat) : HostFree (readSrc a) := by
  intro ops s
  simp only [readSrc, ask_setHost]
  rcases ask s with ⟨_ | _, t⟩ <;> rfl

theorem readCmp_hostFree (a : Nat) : HostFree (readCmp a) := by
  intro ops s
  simp only [readCmp, ask_setHost]
  rcases ask s with ⟨_ | _, t⟩ <;> rfl

theorem fcStep_hostFree (sym : Symbol) : HostFree (fcStep sym) :=
  HostFree.ite (c := fun s => s.count sym.toNat = wordMax) (fun _ _ => Iff.rfl) (fun _ _ => rfl) fun _ _ => rfl

theorem fcLoop_hostFree (remaining i : Nat) : HostFree (fcLoop remaining i) := by
  induction remaining generalizing i with
  | zero => exact fun _ _ => rfl
  | succ n ih =>
    exact (readSrc_hostFree i).andThen fun sym => (fcStep_hostFree sym).andThen fun _ => ih (i + 1)

theorem fcCount_hostFree : HostFree fcCount := by
  have hcount : HostFree fun s => (openRead s).andThen fun _ s1 =>
      (fcLoop s1.src.len.toNat 0 s1).andThen fun _ s2 => .done s2.src.len s2 :=
    openRead_hostFree.andThen fun _ ops s =>
      ((fcLoop_hostFree s.src.len.toNat 0).andThen (g := fun _ s2 => .done s2.src.len s2) fun _ _ _ => rfl) ops s
  exact fun ops s => hcount ops { s with ft := [] }

/-! ### The node store and the tree builder -/

theorem allocNode_hostFree (nd : Node) : HostFree (allocNode nd) :=
  HostFree.ite (c := fun s => s.cfg.nodesMax.toNat ≤ s.nodes.length) (fun _ _ => Iff.rfl) (fun _ _ => rfl)
    fun _ _ => rfl

theorem tbLeaves_hostFree (entries : List (Nat × Word)) (q : List NodeId) : HostFree (tbLeaves entries q) := by
  induction entries generalizing q with
  | nil => exact fun _ _ => rfl
  | cons e entries ih => exact (allocNode_hostFree _).andThen fun n => ih (pqInsert n q)

theorem pqMin_setHost (ops : List HostOp) (s : State) (n : NodeId) (q : List NodeId) :
    pqMin (s.setHost ops) n q = pqMin s n q := by
  induction q generalizing n with
  | nil => rfl
  | cons m q ih => simp only [pqMin, State.setHost_key, ih]

theorem pqPopMin_setHost (ops : List HostOp) (s : State) (q : List NodeId) :
    pqPopMin (s.setHost ops) q = pqPopMin s q := by
  cases q with
  | nil => rfl
  | cons n q => simp only [pqPopMin, pqMin_setHost]

theorem tbMerge_hostFree (a b : NodeId) : HostFree (tbMerge a b) :=
  HostFree.ite (c := fun s => wordMax.toNat < (s.tree a).weight.toNat + (s.tree b).weight.toNat) (fun _ _ => Iff.rfl)
    (fun _ _ => rfl) fun ops s => allocNode_hostFree _ ops s

theorem tbLoop_hostFree (fuel : Nat) (q : List NodeId) : HostFree (tbLoop fuel q) := by
  induction fuel generalizing q with
  | zero => exact fun _ _ => rfl
  | succ n ih =>
    intro ops s
    simp only [tbLoop, pqPopMin_setHost]
    split
    · rfl
    · next a q1 _ =>
      split
      · rfl
      · next b q2 _ => exact ((tbMerge_hostFree a b).andThen fun n => ih (pqInsert n q2)) ops s

theorem tbBuild_hostFree : HostFree tbBuild := fun ops s =>
  ((tbLeaves_hostFree s.ft []).andThen fun q => tbLoop_hostFree q.length q) ops s

theorem sizeRun_hostFree (n : NodeId) : HostFree (sizeRun n) :=
  HostFree.ite (c := fun s => s.sizeOf n ≤ wordMax.toNat) (fun _ _ => Iff.rfl) (fun _ _ => rfl) fun _ _ => rfl

/-! ### The reader -/

theorem brReadBit_hostFree : HostFree brReadBit :=
  HostFree.ite (c := fun s => s.brRem = 0#32) (fun _ _ => Iff.rfl) (fun _ _ => rfl) <|
    HostFree.ite (c := fun s => s.brNbuf = 0#4) (fun _ _ => Iff.rfl)
      (HostFree.ite (c := fun s => s.cmp.len.toNat ≤ s.brPtr.toNat) (fun _ _ => Iff.rfl) (fun _ _ => rfl)
        fun ops s => ((readCmp_hostFree s.brPtr.toNat).andThen
          (g := fun v s1 => brDeliver { s1 with brBuf := v, brPtr := s1.brPtr + 1#32, brNbuf := 8#4 })
          fun _ _ _ => rfl) ops s)
      fun _ _ => rfl

/-! ### What a command touches -/

theorem raiseTouch_setHost {α : Type} (ops : List HostOp) (r : Run α) : raiseTouch (r.setHost ops) = raiseTouch r := by
  cases r <;> rfl

/-- What a command that writes no stream touches of `CMP` does not depend on the host's pending actions. -/
theorem commandTouchesCmp_setHost {i : Instr}
    (hi : i ∉ [Instr.sesRun, .bwOpen, .encRun, .bwClose, .bwWrite false, .bwWrite true]) (ops : List HostOp)
    (s : State) : commandTouchesCmp i (s.setHost ops) = commandTouchesCmp i s := by
  cases i with
  | fcCount => simp only [commandTouchesCmp, fcCount_hostFree ops s, raiseTouch_setHost]
  | tbBuild => simp only [commandTouchesCmp, tbBuild_hostFree ops s, raiseTouch_setHost]
  | treeSize =>
    change raiseTouch (sizeRun s.arg0 (s.setHost ops)) = raiseTouch (sizeRun s.arg0 s)
    rw [sizeRun_hostFree, raiseTouch_setHost]
  | brRead => simp only [commandTouchesCmp, brReadBit_hostFree ops s, raiseTouch_setHost]
  | bwWrite b => cases b <;> simp at hi
  | sesRun | bwOpen | encRun | bwClose => simp at hi
  | _ => rfl

end Sys2Proof.Machine
end

section
/-! PROOFS. Reset, idle or during a command: O17. -/

namespace Sys2Proof.Machine

/-! ### Words and the commands they name (R90, R93) -/

theorem mem_of_lookupOpcode {rows : List (Byte × Instr)} {b : Byte} {i : Instr} (h : lookupOpcode rows b = some i) :
    (b, i) ∈ rows := by
  induction rows with
  | nil => simp [lookupOpcode] at h
  | cons row rows ih =>
    obtain ⟨o, j⟩ := row
    simp only [lookupOpcode] at h
    split at h
    · next ho => cases h; simp [ho]
    · exact List.mem_cons_of_mem _ (ih h)

theorem opcode_of_mem_opcodes : ∀ row ∈ opcodes, row.1 = row.2.opcode := by
  decide

/-- A word with no bit above the opcode field is that field zero-extended (R90). -/
theorem setWidth_opcodeField {w : Word} (h : upperField w = 0#24) : (opcodeField w).setWidth 32 = w := by
  have hupper : w.toNat / 2 ^ 8 % 2 ^ 24 = 0 := by
    simpa [upperField, BitVec.extractLsb'_toNat, Nat.shiftRight_eq_div_pow] using congrArg BitVec.toNat h
  have hlt := w.isLt
  refine BitVec.eq_of_toNat_eq ?_
  simp only [opcodeField, BitVec.toNat_setWidth, BitVec.extractLsb'_toNat, Nat.shiftRight_zero]
  omega

/-- A word that decodes to a command is that command's word (R90, R93). -/
theorem eq_encode_of_decode {w : Word} {i : Instr} (h : decode w = .instr i) : w = encode i := by
  unfold decode at h
  split at h
  · next hupper =>
    split at h
    · next j hj =>
      cases h
      have hop : opcodeField w = i.opcode := opcode_of_mem_opcodes _ (mem_of_lookupOpcode hj)
      rw [encode, ← hop, setWidth_opcodeField hupper]
    · cases h
  · cases h

/-! ### What the reset leaves of the block (R44, R310) -/

theorem State.resetOf_status (c : Config) : (State.resetOf c).status = 0#32 := by
  simp [State.status, State.faulted, State.errCode]

theorem State.resetColumn_of_eq {c : Config} {t : State}
    (h : t = { State.resetOf c with src := t.src, cmp := t.cmp, out := t.out, env := t.env, host := t.host }) :
    t.ResetColumn := by
  rw [h]
  exact ⟨rfl, rfl, rfl, rfl, rfl, rfl, rfl, rfl, rfl, rfl, rfl, rfl, rfl, rfl, rfl, rfl, rfl, rfl, rfl, rfl, rfl, rfl,
    State.resetOf_status c⟩

/-! ### What a command touches of `CMP` -/

section

variable {s : State} {w : Word} {i : Instr}

/-- In `FAULTED` only `SYS.CLEAR` touches anything (R282). -/
theorem touchesCmp_faulted (herr : s.err ≠ none) (hw : w ≠ 0x00000001#32) : touchesCmp w s = .kept :=
  (touches_faulted herr).2 fun hd => hw (eq_encode_of_decode hd)

theorem touchesCmp_notOpening (hs : s.bwOpen = false) (hw : w ∉ [0x00000002#32, 0x00000040#32, 0x00000050#32]) :
    touchesCmp w s = .kept := by
  refine touchesCmp_noWriter hs fun i hi hd => absurd ?_ hw
  rw [eq_encode_of_decode hd]
  simp only [List.mem_cons, List.not_mem_nil, or_false] at hi
  rcases hi with rfl | rfl | rfl <;> decide

theorem unacceptable_of_open (hs : s.bwOpen = true ∨ s.brOpen = true)
    (hi : i ∈ [Instr.bwOpen, .brOpen, .encRun, .decRun, .sesRun]) : acceptable i s = false := by
  refine Bool.eq_false_iff.mpr fun hacc => ?_
  have hnone := nothingOpen_of_acceptable hacc hi
  rcases hs with hs | hs <;> simp [hs] at hnone

theorem touchesCmp_readerOpen (hs : s.bwOpen = false) (hr : s.brOpen = true) : touchesCmp w s = .kept := by
  refine touchesCmp_noWriter hs fun i hi _ => unacceptable_of_open (.inr hr) ?_
  simp only [List.mem_cons, List.not_mem_nil, or_false] at hi
  rcases hi with rfl | rfl | rfl <;> simp

/-- With the writer open `BW.WRITE` touches what its bit does, unless it is ignored. -/
theorem touchesCmp_bit (hs : s.bwOpen = true) (hw : w ∈ [0x00000042#32, 0x00000043#32]) :
    touchesCmp w s = .kept ∨ ∃ b, touchesCmp w s = bitTouch b s := by
  obtain ⟨b, hd⟩ : ∃ b, decode w = .instr (.bwWrite b) := by
    simp only [List.mem_cons, List.not_mem_nil, or_false] at hw
    rcases hw with rfl | rfl
    · exact ⟨false, by decide⟩
    · exact ⟨true, by decide⟩
  have hacc : acceptable (.bwWrite b) s = true := by
    simp [acceptable, operandsLegal, operandTypes, legalAll, precondition, hs]
  cases herr : s.err with
  | none => exact .inr ⟨b, by simp [touchesCmp, hd, herr, hacc, commandTouchesCmp]⟩
  | some k => exact .inl (by simp [touchesCmp, hd, herr])

/-- A bit that goes to the buffer only touches no cell (R122). -/
theorem bitTouch_buffered (b : Bool) (htotal : s.bwTotal ≠ wordMax) (hbuf : s.bwNbuf ≠ 7#3) :
    bitTouch b s = .kept := by
  simp [bitTouch, bwWriteBit, raiseTouch, htotal, hbuf]

/-- In a fault-free environment, and away from the largest total and length, a bit is written without a raise. -/
theorem bwWriteBit_returns (b : Bool) (hfree : s.FaultFree) (hlen : s.cmp.len ≠ wordMax)
    (htotal : s.bwTotal ≠ wordMax) : ∃ t, bwWriteBit b s = .done () t := by
  unfold bwWriteBit
  rw [if_neg htotal]
  dsimp only
  split
  · rw [writeCmp_faultFree (s := { s with
      bwBuf := setBit s.bwBuf (7 - s.bwNbuf.toNat) b, bwTotal := s.bwTotal + 1#32 }) hfree _ fun h => hlen h.2]
    exact ⟨_, rfl⟩
  · exact ⟨_, rfl⟩

/-- A bit that does not raise touches no cell below `CMP_LEN`. -/
theorem bitTouch_appends (b : Bool) (hfree : s.FaultFree) (hlen : s.cmp.len ≠ wordMax) (htotal : s.bwTotal ≠ wordMax) :
    bitTouch b s = .kept ∨ bitTouch b s = .written s.cmp.len := by
  obtain ⟨t, ht⟩ := bwWriteBit_returns b hfree hlen htotal
  by_cases hbuf : s.bwNbuf = 7#3
  · exact .inr (by simp [bitTouch, ht, raiseTouch, hbuf, htotal])
  · exact .inl (bitTouch_buffered b htotal hbuf)

/-- A command outside the bit writer whose pseudocode returns with the writer open touches no cell of `CMP`. -/
theorem commandTouchesCmp_returned {v : Word} {u : State}
    (hi : i ∉ [Instr.sysClear, .sesRun, .bwOpen, .encRun, .bwClose, .bwWrite false, .bwWrite true])
    (h : body i s = .done v u) : commandTouchesCmp i s = .kept := by
  cases i with
  | fcCount => simp only [commandTouchesCmp, show fcCount s = _ from h, raiseTouch]
  | tbBuild => simp only [commandTouchesCmp, show tbBuild s = _ from h, raiseTouch]
  | treeSize => simp only [commandTouchesCmp, show sizeRun s.arg0 s = _ from h, raiseTouch]
  | brRead =>
    obtain ⟨b, u', hb, -⟩ := Run.andThen_eq_done.mp h
    simp only [commandTouchesCmp, hb, raiseTouch]
  | treeLeaf | treeNode =>
    have hroom : ¬ s.cfg.nodesMax.toNat ≤ s.nodes.length := fun hfull => by simp [body, allocNode, hfull] at h
    simp only [commandTouchesCmp, hroom, if_false]
  | bwWrite b => cases b <;> simp at hi
  | sysClear | sesRun | bwOpen | encRun | bwClose => simp at hi
  | _ => rfl

/-- A command outside the bit writer that leaves the writer open touches no cell of `CMP`, whatever the host does
next. -/
theorem touchesCmp_leftOpen {u : State} (hd : decode w = .instr i)
    (hi : i ∉ [Instr.bwClose, .bwWrite false, .bwWrite true]) (hs : s.bwOpen = true) (h : exec i s = .next u)
    (hu : u.bwOpen = true) (ops : List HostOp) : touchesCmp w (s.setHost ops) = .kept := by
  rcases exec_cases h with ⟨⟨herr, hclear⟩, -⟩ | ⟨-, -, rfl⟩ | ⟨-, hacc, rfl⟩
  · exact (touches_faulted (s := s.setHost ops) herr).2 (by simpa [hd] using hclear)
  · simp at hu
  · have hopening : i ∉ [Instr.bwOpen, .brOpen, .encRun, .decRun, .sesRun] := fun ho => by
      simp [unacceptable_of_open (.inl hs) ho] at hacc
    have hclear : i ≠ .sysClear := by rintro rfl; cases hu
    cases hb : body i s with
    | raised k u' => simp [hb] at hu
    | done v u' =>
      have hkept := commandTouchesCmp_returned (by simp_all) hb
      rw [← commandTouchesCmp_setHost (by simp_all) ops s] at hkept
      have hacc' : acceptable i (s.setHost ops) = true := by rw [← hacc]; cases i <;> rfl
      simp only [touchesCmp, hd, hacc', hkept, if_true, ite_self]

/-! ### What a command touches of `OUT` -/

/-- Only an accepted `DEC.RUN` or `SES.RUN` touches `OUT` (R39, R60). -/
theorem touchesOut_kept
    (h : ∀ i ∈ [Instr.decRun, .sesRun], decode w = .instr i → s.err ≠ none ∨ acceptable i s = false) :
    touchesOut w s = .kept := by
  unfold touchesOut
  cases hd : decode w with
  | reject r => rfl
  | instr i =>
    by_cases hi : i ∈ [Instr.decRun, .sesRun]
    · rcases h i hi hd with herr | hacc
      · obtain ⟨k, hk⟩ := Option.ne_none_iff_exists'.mp herr
        simp [hk]
      · simp [hacc]
    · have hkept : commandTouchesOut i s = .kept := by cases i <;> simp [commandTouchesOut] at hi ⊢
      simp [hkept]

theorem touchesOut_notDecoding
    (h : s.err ≠ none ∨ w ∉ [0x00000002#32, 0x00000060#32] ∨ s.bwOpen = true ∨ s.brOpen = true) :
    touchesOut w s = .kept := by
  refine touchesOut_kept fun i hi hd => ?_
  rcases h with herr | hw | hopen
  · exact .inl herr
  · rw [eq_encode_of_decode hd] at hw
    simp only [List.mem_cons, List.not_mem_nil, or_false] at hi
    rcases hi with rfl | rfl <;> exact absurd (by decide) hw
  · refine .inr (unacceptable_of_open hopen ?_)
    simp only [List.mem_cons, List.not_mem_nil, or_false] at hi
    rcases hi with rfl | rfl <;> simp

theorem touchesOut_invalidRoot (hw : w = 0x00000060#32) (hnil : s.arg0 ≠ nilId) (hnode : s.node? s.arg0 = none) :
    touchesOut w s = .kept := by
  refine touchesOut_kept fun i hi hd => .inr ?_
  obtain rfl : i = .decRun := by
    rw [hw, show decode 0x00000060#32 = .instr .decRun by decide] at hd
    cases hd
    rfl
  refine Bool.eq_false_iff.mpr fun hacc => ?_
  rcases root_of_acceptable_decRun hacc with h | h
  · exact hnil h
  · simp [hnode] at h

end

/-! ### What is left of a memory by its touch -/

theorem resetDuring_cmp_kept {w : Word} {s : State} (h : touchesCmp w s = .kept) (n : Nat) (cl : List (Word × Byte))
    (cn : Word) (ol : List (Word × Symbol)) (on : Word) : (resetDuring w n cl cn ol on s).cmp = s.cmp := by
  rw [resetDuring_cmp, h, Space.abandoned_kept]

theorem resetDuring_out_kept {w : Word} {s : State} (h : touchesOut w s = .kept) (n : Nat) (cl : List (Word × Byte))
    (cn : Word) (ol : List (Word × Symbol)) (on : Word) : (resetDuring w n cl cn ol on s).out = s.out := by
  rw [resetDuring_out, h, Space.abandoned_kept]

/-- Nothing below the length is lost when nothing below it is touched (R310). -/
theorem Space.abandoned_above {α : Type} [DecidableEq α] {d : α} {sp : Space α} {left : List (Word × α)} {len : Word}
    {t : Touch} (h : t = .kept ∨ t = .written sp.len) :
    sp.len.toNat ≤ (sp.abandoned d left len t).len.toNat ∧
      ∀ a, a < sp.len.toNat → (sp.abandoned d left len t).read d a = sp.read d a := by
  rcases h with rfl | rfl
  · exact ⟨Nat.le_refl _, fun _ _ => rfl⟩
  · refine ⟨?_, fun a ha => by rw [Space.read_abandoned, if_pos ha]⟩
    simp only [Space.abandoned]
    split
    · exact Nat.le_refl _
    · next hle => exact Nat.le_of_not_lt hle

/-- Settles O17: the block's registers are those of `State.resetOf`, and a memory is kept as far as its touch says. -/
theorem resetGivesTheEmptySession : Obligations.ResetGivesTheEmptySession := by
  unfold Obligations.ResetGivesTheEmptySession
  have hreset : ∀ c : Config, c.wf = true → (State.resetOf c).Inv := fun c hc =>
    State.resetOf_inv hc ⟨rfl, by simp, by simp⟩ ⟨rfl, by simp⟩ ⟨rfl, by simp, by simp⟩ rfl
  refine ⟨fun s rest hhost => ?_, fun s w used cl cn ol on rest hhost => ?_, hreset, hreset _ (by decide)⟩
  · exact ⟨_, step_cons hhost, State.resetColumn_of_eq rfl, rfl, rfl, rfl, rfl, rfl⟩
  · have hcmp := fun h => resetDuring_cmp_kept (w := w) (s := s.setHost rest) h used cl cn ol on
    have hout := fun h => resetDuring_out_kept (w := w) (s := s.setHost rest) h used cl cn ol on
    refine ⟨_, step_cons hhost, State.resetColumn_of_eq rfl, rfl, rfl, rfl, ⟨_, rfl⟩,
      fun herr hw => hcmp (touchesCmp_faulted herr hw), fun hs hw => hcmp (touchesCmp_notOpening hs hw),
      fun hs hr => hcmp (touchesCmp_readerOpen hs hr), fun htotal hbuf hs hw => hcmp ?_,
      fun i u hd hi hs h hu => hcmp (touchesCmp_leftOpen hd hi hs h hu rest), fun hfree hlen htotal hs hw => ?_,
      fun h => hout (touchesOut_notDecoding h), fun hw hnil hnode => hout (touchesOut_invalidRoot hw hnil hnode)⟩
    · rcases touchesCmp_bit (s := s.setHost rest) hs hw with h | ⟨b, h⟩
      · exact h
      · exact h.trans (bitTouch_buffered b htotal hbuf)
    · refine Space.abandoned_above (sp := s.cmp) ?_
      rcases touchesCmp_bit (s := s.setHost rest) hs hw with h | ⟨b, h⟩
      · exact .inl h
      · exact (bitTouch_appends (s := s.setHost rest) b hfree hlen htotal).imp h.trans h.trans

end Sys2Proof.Machine
end

section
/-! PROOFS. Failing accesses and the kinds they raise, and `BW.OPEN`: O14, O15, O40. -/

namespace Sys2Proof.Machine

/-! ### Accesses that the environment fails (R62, R63) -/

section

variable {s : State} {left : Symbol} {rest : List Answer} (h : s.env = .ioerr left :: rest)

include h

theorem ask_failed : ask s = (.ioerr left, { s with env := rest }) := by
  rw [ask_eq, h]
  rfl

theorem openRead_failed : openRead s = .raised .sourceUnavailable { s with env := rest } := by
  simp [openRead, ask_failed h]

theorem openWriteCmp_failed : openWriteCmp s = .raised .sinkUnavailable { s with env := rest } := by
  simp [openWriteCmp, ask_failed h]

theorem openWriteOut_failed : openWriteOut s = .raised .sinkUnavailable { s with env := rest } := by
  simp [openWriteOut, ask_failed h]

theorem readSrc_failed (a : Nat) : readSrc a s = .raised .sourceCorrupt { s with env := rest } := by
  simp [readSrc, ask_failed h]

theorem readCmp_failed (a : Nat) : readCmp a s = .raised .sourceCorrupt { s with env := rest } := by
  simp [readCmp, ask_failed h]

theorem writeCmp_failed (a : Nat) (v : Byte) :
    writeCmp a v s =
      .raised .sinkCorrupt { s with env := rest, cmp := s.cmp.store 0#8 a (left.setWidth 8) } := by
  simp [writeCmp, ask_failed h]

theorem writeOut_failed (a : Nat) (v : Symbol) :
    writeOut a v s =
      .raised .sinkCorrupt { s with env := rest, out := s.out.store 0#16 a (symCell s.cfg left) } := by
  simp [writeOut, ask_failed h]

end

/-- Settles O14: each access asks once, and a failed write is a `Space.store`, which keeps the length and the other
cells. -/
theorem failedAccessesRaiseByRole : Obligations.FailedAccessesRaiseByRole := by
  unfold Obligations.FailedAccessesRaiseByRole
  intro s left rest hinv h
  exact ⟨openRead_failed h, openWriteCmp_failed h, openWriteOut_failed h, readSrc_failed h, readCmp_failed h,
    fun a v => ⟨_, writeCmp_failed h a v, rfl, rfl, fun _ hb => Space.read_store_other hinv.cmpOk.canonical hb _⟩,
    fun a v => ⟨_, writeOut_failed h a v, rfl, rfl, fun _ hb => Space.read_store_other hinv.outOk.canonical hb _⟩⟩

/-! ### The first access of the opening commands (R284) -/

section

variable {s : State} {left : Symbol} {rest : List Answer} (h : s.env = .ioerr left :: rest)

include h

theorem bwOpenRun_failedOpen : bwOpenRun s = .raised .sinkUnavailable { s with env := rest } := by
  simp [bwOpenRun, openWriteCmp_failed h]

theorem brOpenRun_failedOpen : brOpenRun s = .raised .sourceUnavailable { s with env := rest } := by
  simp [brOpenRun, openRead_failed h]

/-- The encoder opens its sink before its source (R200). -/
theorem encRun_failedOpen : encRun s = .raised .sinkUnavailable { s with env := rest } := by
  simp [encRun, bwOpenRun_failedOpen h]

/-- The decoder opens its source before its sink (R223). -/
theorem decRun_failedOpen (root : NodeId) : decRun root s = .raised .sourceUnavailable { s with env := rest } := by
  simp [decRun, brOpenRun_failedOpen h]

/-- The table is cleared before the source is opened (R161). -/
theorem fcCount_failedOpen : fcCount s = .raised .sourceUnavailable { s with env := rest, ft := [] } := by
  simp [fcCount, openRead_failed (s := { s with ft := [] }) h]

/-- The session is fresh before `FC.COUNT`, its first stage, opens the source (R237). -/
theorem sesRun_failedOpen : sesRun s = .raised .sourceUnavailable { s.freshSession with env := rest } := by
  simp only [sesRun, sesStages, fcCount_failedOpen (s := s.freshSession) h, Run.andThen_raised]
  rfl

end

theorem noneOpen_of_idle {s : State} (h : s.Idle) : noneOpen s = true := by
  simp [noneOpen, h.noWriter, h.noReader]

/-- Idle, the commands without operands that need nothing open are accepted (R235). -/
theorem acceptable_of_idle {i : Instr} {s : State} (h : s.Idle)
    (hi : i ∈ [Instr.bwOpen, .brOpen, .fcCount, .encRun, .sesRun]) : acceptable i s = true := by
  have hnone := noneOpen_of_idle h
  simp only [List.mem_cons, List.not_mem_nil, or_false] at hi
  rcases hi with rfl | rfl | rfl | rfl | rfl
  · exact hnone
  · exact hnone
  · rfl
  · exact hnone
  · exact hnone

theorem acceptable_decRun_of_idle {s : State} (h : s.Idle) (hroot : s.arg0 = nilId ∨ (s.node? s.arg0).isSome = true) :
    acceptable .decRun s = true := by
  refine acceptable_iff.mpr ⟨?_, noneOpen_of_idle h⟩
  simpa [operandsLegal, operandTypes, legalAll, legal_tree_iff] using hroot

/-- An accepted command whose pseudocode raises ends in that raise (R238, R280). -/
theorem exec_raised {i : Instr} {s t : State} {k : FaultKind} (herr : s.err = none) (hacc : acceptable i s = true)
    (hbody : body i s = .raised k t) : exec i s = .next (t.raiseFault k) := by
  rw [exec_accepted herr hacc, hbody, complete_raised]

/-- An accepted command whose pseudocode returns a value writes it to `RES` (R21, R238). -/
theorem exec_done {i : Instr} {s t : State} {v : Word} (herr : s.err = none) (hacc : acceptable i s = true)
    (hbody : body i s = .done v t) : exec i s = .next { t with res := v } := by
  rw [exec_accepted herr hacc, hbody, complete_done]

theorem exec_bwOpen_raised {s t : State} {k : FaultKind} (h : s.Idle) (hrun : bwOpenRun s = .raised k t) :
    exec .bwOpen s = .next (t.raiseFault k) :=
  exec_raised h.noFault (acceptable_of_idle h (by simp)) (by simp [body, hrun])

theorem exec_bwOpen_done {s t : State} (h : s.Idle) (hrun : bwOpenRun s = .done () t) :
    exec .bwOpen s = .next { t with res := 0#32 } :=
  exec_done h.noFault (acceptable_of_idle h (by simp)) (by simp [body, hrun])

/-- Settles O15: every one of the six is accepted and runs no further than its first access. -/
theorem firstFailingAccessDecidesTheKind : Obligations.FirstFailingAccessDecidesTheKind := by
  unfold Obligations.FirstFailingAccessDecidesTheKind
  intro s left rest hidle h
  exact ⟨exec_raised hidle.noFault (acceptable_of_idle hidle (by simp)) (encRun_failedOpen h),
    exec_bwOpen_raised hidle (bwOpenRun_failedOpen h),
    exec_raised hidle.noFault (acceptable_of_idle hidle (by simp)) (brOpenRun_failedOpen h),
    exec_raised hidle.noFault (acceptable_of_idle hidle (by simp)) (fcCount_failedOpen h),
    fun hroot => exec_raised hidle.noFault (acceptable_decRun_of_idle hidle hroot) (decRun_failedOpen h s.arg0),
    exec_raised hidle.noFault (acceptable_of_idle hidle (by simp)) (sesRun_failedOpen h)⟩

/-! ### Appending values to a memory (R61) -/

/-- The memory after writes at its length, one for each value in order. -/
def Space.append {α : Type} [DecidableEq α] (d : α) : List α → Space α → Space α
  | [], sp => sp
  | v :: vs, sp => Space.append d vs (sp.put d sp.len.toNat v)

theorem Space.put_atLen {α : Type} [DecidableEq α] {d : α} {sp : Space α} (h : sp.len.toNat + 1 < 2 ^ 32) (v : α) :
    (sp.put d sp.len.toNat v).len.toNat = sp.len.toNat + 1 := by
  rw [Space.put_len, if_pos rfl]
  bv_omega

theorem Space.append_len {α : Type} [DecidableEq α] {d : α} (vs : List α) {sp : Space α}
    (h : sp.len.toNat + vs.length < 2 ^ 32) : (sp.append d vs).len.toNat = sp.len.toNat + vs.length := by
  induction vs generalizing sp with
  | nil => rfl
  | cons v vs ih =>
    rw [List.length_cons] at h ⊢
    have hput := Space.put_atLen (d := d) (sp := sp) (by omega) v
    rw [Space.append, ih (by omega), hput]
    omega

theorem Space.append_wf {α : Type} [DecidableEq α] {d : α} (vs : List α) {sp : Space α}
    (h : Memory.wf d sp.cells = true) : Memory.wf d (sp.append d vs).cells = true := by
  induction vs generalizing sp with
  | nil => exact h
  | cons v vs ih => exact ih (Memory.wf_set h _ v)

/-- The cells from the length on read as the values appended, every other cell as before. -/
theorem Space.read_append {α : Type} [DecidableEq α] {d : α} (vs : List α) {sp : Space α}
    (hwf : Memory.wf d sp.cells = true) (h : sp.len.toNat + vs.length < 2 ^ 32) (b : Nat) :
    (sp.append d vs).read d b =
      if sp.len.toNat ≤ b then vs[b - sp.len.toNat]?.getD (sp.read d b) else sp.read d b := by
  induction vs generalizing sp with
  | nil => simp [Space.append]
  | cons v vs ih =>
    rw [List.length_cons] at h
    have hput := Space.put_atLen (d := d) (sp := sp) (by omega) v
    rw [Space.append, ih (Memory.wf_set hwf _ v) (by omega), hput, Space.read_put hwf]
    rcases Nat.lt_trichotomy b sp.len.toNat with hlt | heq | hgt
    · rw [if_neg (by omega), if_neg (by omega), if_neg (by omega)]
    · rw [if_neg (by omega), if_pos heq.symm, if_pos (by omega), heq, Nat.sub_self]
      rfl
    · obtain ⟨j, rfl⟩ := Nat.exists_eq_add_of_lt hgt
      rw [if_pos (by omega), if_neg (by omega), if_pos (by omega),
        show sp.len.toNat + j + 1 - sp.len.toNat = j + 1 by omega,
        show sp.len.toNat + j + 1 - (sp.len.toNat + 1) = j by omega, List.getElem?_cons_succ]

/-! ### Environments whose next answers are `ok` -/

/-- None of the next `n` accesses fails. -/
def State.AnswersOk (n : Nat) (s : State) : Prop := ∀ x ∈ s.env.take n, x = Answer.ok

theorem State.FaultFree.answersOk {s : State} (h : s.FaultFree) (n : Nat) : s.AnswersOk n := by
  simp [State.AnswersOk, show s.env = [] from h]

theorem State.answersOk_of_replicate {s : State} {n : Nat} {rest : List Answer}
    (h : s.env = List.replicate n .ok ++ rest) : s.AnswersOk n := by
  intro x hx
  rw [h, List.take_left' List.length_replicate] at hx
  exact List.eq_of_mem_replicate hx

theorem State.answersOk_succ {s : State} {n : Nat} :
    s.AnswersOk (n + 1) ↔ s.env.headD .ok = .ok ∧ ∀ x ∈ s.env.tail.take n, x = Answer.ok := by
  unfold State.AnswersOk
  cases s.env <;> simp

theorem ask_ok {s : State} (h : s.env.headD .ok = .ok) : ask s = (.ok, { s with env := s.env.tail }) := by
  rw [ask_eq, h]

theorem openWriteCmp_ok {s : State} (h : s.env.headD .ok = .ok) :
    openWriteCmp s = .done () { s with env := s.env.tail, cmp := { s.cmp with len := 0#32 } } := by
  simp [openWriteCmp, ask_ok h]

theorem writeCmp_ok {s : State} (h : s.env.headD .ok = .ok) {a : Nat} (v : Byte)
    (hfits : ¬ (a = s.cmp.len.toNat ∧ s.cmp.len = wordMax)) :
    writeCmp a v s = .done () { s with env := s.env.tail, cmp := s.cmp.put 0#8 a v } := by
  simp [writeCmp, hfits, ask_ok h]

/-! ### Appending bytes to `CMP` -/

theorem writeCmpBytes_append (vs ws : List Byte) (a : Nat) (s : State) :
    writeCmpBytes a (vs ++ ws) s =
      (writeCmpBytes a vs s).andThen fun _ s1 => writeCmpBytes (a + vs.length) ws s1 := by
  induction vs generalizing a s with
  | nil => rfl
  | cons v vs ih =>
    simp only [List.cons_append, writeCmpBytes, List.length_cons, Nat.add_comm vs.length, ← Nat.add_assoc]
    cases writeCmp a v s with
    | done u t => exact ih (a + 1) t
    | raised k t => rfl

/-- Bytes written at the length, every access answered `ok`, are appended. -/
theorem writeCmpBytes_ok (vs : List Byte) {s : State} (hok : s.AnswersOk vs.length)
    (hfits : s.cmp.len.toNat + vs.length < 2 ^ 32) :
    writeCmpBytes s.cmp.len.toNat vs s =
      .done () { s with env := s.env.drop vs.length, cmp := s.cmp.append 0#8 vs } := by
  induction vs generalizing s with
  | nil => rfl
  | cons v vs ih =>
    rw [List.length_cons] at hok hfits
    obtain ⟨hhead, htail⟩ := State.answersOk_succ.mp hok
    have hroom : s.cmp.len ≠ wordMax := by intro hfull; rw [hfull, wordMax] at hfits; simp at hfits; omega
    have hput := Space.put_atLen (d := 0#8) (sp := s.cmp) (by omega) v
    have hrest := ih (s := { s with env := s.env.tail, cmp := s.cmp.put 0#8 s.cmp.len.toNat v }) htail
      (by rw [hput]; omega)
    rw [hput] at hrest
    rw [writeCmpBytes, writeCmp_ok hhead v fun hfull => hroom hfull.2, Run.andThen_done, hrest]
    simp [Space.append]

/-- Bytes written at the length are appended up to the one whose access fails (R63, R120). -/
theorem writeCmpBytes_failed (vs ws : List Byte) (v : Byte) {s : State} {left : Symbol} {rest : List Answer}
    (h : s.env = List.replicate vs.length .ok ++ .ioerr left :: rest) (hfits : s.cmp.len.toNat + vs.length < 2 ^ 32) :
    writeCmpBytes s.cmp.len.toNat (vs ++ v :: ws) s =
      .raised .sinkCorrupt { s with
        env := rest
        cmp := (s.cmp.append 0#8 vs).store 0#8 (s.cmp.len.toNat + vs.length) (left.setWidth 8) } := by
  have henv : s.env.drop vs.length = .ioerr left :: rest := by rw [h, List.drop_left' List.length_replicate]
  rw [writeCmpBytes_append, writeCmpBytes_ok vs (State.answersOk_of_replicate h) hfits, Run.andThen_done, writeCmpBytes,
    writeCmp_failed (left := left) (rest := rest) henv, Run.andThen_raised]

/-! ### `bw_open()` (R120) -/

/-- The writer as `bw_open()` opens it, its sink truncated, before the placeholder bytes. -/
def State.openWriter (s : State) : State :=
  { s with env := s.env.tail, cmp := { s.cmp with len := 0#32 }, cmpValid := false, bwBuf := 0#8, bwNbuf := 0#3,
           bwTotal := 0#32, bwOpen := true }

/-- `CMP` of the opened writer with `n` placeholder bytes appended. -/
def State.zeroedCmp (s : State) (n : Nat) : Space Byte := s.openWriter.cmp.append 0#8 (List.replicate n 0#8)

theorem bwOpenRun_opened {s : State} (h : s.env.headD .ok = .ok) :
    bwOpenRun s = writeCmpBytes 0 (List.replicate 4 0#8) s.openWriter := by
  rw [bwOpenRun, openWriteCmp_ok h]
  rfl

theorem bwOpenRun_ok {s : State} (hok : s.AnswersOk 5) :
    bwOpenRun s = .done () { s.openWriter with env := s.env.drop 5, cmp := s.zeroedCmp 4 } := by
  obtain ⟨hhead, htail⟩ := State.answersOk_succ.mp hok
  rw [bwOpenRun_opened hhead]
  refine (writeCmpBytes_ok (s := s.openWriter) (List.replicate 4 0#8) htail (by simp [State.openWriter])).trans ?_
  simp [State.openWriter, State.zeroedCmp]

/-- Placeholder `n` fails, those before it are written. -/
theorem bwOpenRun_failedPlaceholder {s : State} {n : Nat} {left : Symbol} {rest : List Answer} (hn : n < 4)
    (h : s.env = List.replicate (n + 1) .ok ++ .ioerr left :: rest) :
    bwOpenRun s = .raised .sinkCorrupt { s.openWriter with
      env := rest
      cmp := (s.zeroedCmp n).store 0#8 n (left.setWidth 8) } := by
  have hsplit : List.replicate 4 0#8 = List.replicate n 0#8 ++ 0#8 :: List.replicate (3 - n) 0#8 := by
    rw [← List.replicate_succ, List.replicate_append_replicate]
    congr 1
    omega
  have hwrites := writeCmpBytes_failed (s := s.openWriter) (left := left) (rest := rest) (List.replicate n 0#8)
    (List.replicate (3 - n) 0#8) 0#8 (by simp [State.openWriter, h, List.replicate_succ])
    (by simp [State.openWriter]; omega)
  rw [bwOpenRun_opened (by simp [h, List.replicate_succ]), hsplit]
  simpa [State.openWriter, State.zeroedCmp] using hwrites

/-! ### `CMP` after placeholders -/

section

variable {s : State} {n : Nat} (hn : n < 2 ^ 32)

theorem State.zeroedCmp_wf (h : ByteSpaceOk s.cmp) (n : Nat) : Memory.wf 0#8 (s.zeroedCmp n).cells = true :=
  Space.append_wf _ h.canonical

include hn

theorem State.zeroedCmp_len : (s.zeroedCmp n).len.toNat = n := by
  rw [State.zeroedCmp, Space.append_len]
  · simp [State.openWriter]
  · simpa [State.openWriter] using hn

/-- The cells above the placeholders read as before the open (log entry 6). -/
theorem State.read_zeroedCmp (h : ByteSpaceOk s.cmp) (a : Nat) :
    (s.zeroedCmp n).read 0#8 a = if a < n then 0#8 else s.cmp.read 0#8 a := by
  have hread := Space.read_append (d := 0#8) (sp := s.openWriter.cmp) (List.replicate n 0#8) h.canonical
    (by simpa [State.openWriter] using hn) a
  rw [State.zeroedCmp, hread]
  by_cases ha : a < n <;> simp [State.openWriter, ha]

/-- A failed placeholder leaves its own cell open, and those above as before the open (R63). -/
theorem State.read_zeroedCmp_store (h : ByteSpaceOk s.cmp) {a : Nat} (ha : a ≠ n) (v : Byte) :
    ((s.zeroedCmp n).store 0#8 n v).read 0#8 a = if a < n then 0#8 else s.cmp.read 0#8 a := by
  rw [Space.read_store_other (State.zeroedCmp_wf h n) ha, State.read_zeroedCmp hn h]

end

/-! ### `BW.OPEN` (R121) -/

/-- Below four bytes of `CMP` the quiet close of a raise writes nothing (R133). -/
theorem State.raiseFault_shortStream (k : FaultKind) {s : State} (h : s.cmp.len.toNat < 4) :
    s.raiseFault k = { s with err := some (s.err.getD k), bwOpen := false, brOpen := false } := by
  cases hs : s.bwOpen with
  | false => rw [State.raiseFault_noWriter k hs, ← hs]
  | true => simp [State.raiseFault, State.release, bwCloseQuiet, hs, Nat.not_le.mpr h]

section

variable {s : State} (hidle : s.Idle)

include hidle

theorem exec_bwOpen_ok (hok : s.AnswersOk 5) :
    exec .bwOpen s = .next { s.openWriter with env := s.env.drop 5, cmp := s.zeroedCmp 4, res := 0#32 } :=
  exec_bwOpen_done hidle (bwOpenRun_ok hok)

theorem exec_bwOpen_failedOpen {left : Symbol} {rest : List Answer} (h : s.env = .ioerr left :: rest) :
    exec .bwOpen s = .next { s with err := some .sinkUnavailable, env := rest } := by
  rw [exec_bwOpen_raised hidle (bwOpenRun_failedOpen h),
    State.raiseFault_noWriter (s := { s with env := rest }) _ hidle.noWriter, hidle.noFault, ← hidle.noReader]
  rfl

theorem exec_bwOpen_failedPlaceholder {n : Nat} {left : Symbol} {rest : List Answer} (hn : n < 4)
    (h : s.env = List.replicate (n + 1) .ok ++ .ioerr left :: rest) :
    exec .bwOpen s = .next { s.openWriter with
      err := some .sinkCorrupt
      env := rest
      cmp := (s.zeroedCmp n).store 0#8 n (left.setWidth 8)
      bwOpen := false
      brOpen := false } := by
  rw [exec_bwOpen_raised hidle (bwOpenRun_failedPlaceholder hn h), State.raiseFault_shortStream]
  · simp [State.openWriter, hidle.noFault]
  · rw [Space.store_len, State.zeroedCmp_len (by omega)]
    exact hn

end

/-- Settles O40: the open appends four zeros to the truncated `CMP`, or stops at the access that fails; the raise then
finds fewer than four bytes. -/
theorem bwOpenWritesThePlaceholders : Obligations.BwOpenWritesThePlaceholders := by
  unfold Obligations.BwOpenWritesThePlaceholders
  refine ⟨by decide, fun s hinv herr => ⟨fun hopen => ?_, fun hidle hfree => ?_, fun left rest hidle h => ?_,
    fun n left rest hidle hn h => ?_⟩⟩
  · exact exec_unacceptable herr (unacceptable_of_open hopen (by simp))
  · refine ⟨_, exec_bwOpen_ok hidle (hfree.answersOk 5), ?_, BitVec.eq_of_toNat_eq (State.zeroedCmp_len (by decide)),
      fun a ha => ?_, fun a ha => ?_⟩
    · simp [State.openWriter, show s.env = [] from hfree]
    · exact (State.read_zeroedCmp (by decide) hinv.cmpOk a).trans (if_pos ha)
    · exact (State.read_zeroedCmp (by decide) hinv.cmpOk a).trans (if_neg (by omega))
  · exact exec_bwOpen_failedOpen hidle h
  · have hread := fun a ha => State.read_zeroedCmp_store (n := n) (by omega) hinv.cmpOk (a := a) ha (left.setWidth 8)
    refine ⟨_, exec_bwOpen_failedPlaceholder hidle hn h, ?_, State.zeroedCmp_len (by omega), fun a ha => ?_,
      fun a ha => ?_⟩
    · simp [State.openWriter, hidle.noWriter, hidle.noReader]
    · exact (hread a (by omega)).trans (if_pos ha)
    · exact (hread a (by omega)).trans (if_neg (by omega))

end Sys2Proof.Machine
end

section
/-! PROOFS. The bit writer in a fault-free environment: the writer as a function of the bits given to it, and the stream
that its close leaves: O46. -/

namespace Sys2Proof.Machine

/-! ### Bits in bytes, MSB first (R98, R122) -/

/-- Byte `j` of a payload: its bits `8 j` to `8 j + 7`, the first at the top, zeros where the payload has ended
(R98). -/
def packedByte (bits : Bits) (j : Nat) : Byte :=
  (BitVec.iunfoldr (fun (i : Fin 8) (u : Unit) => (u, bits.getD (8 * j + (7 - i.val)) false)) ()).2

/-- The first `n` bytes of a payload. -/
def packedBytes (bits : Bits) (n : Nat) : List Byte := (List.range n).map (packedByte bits)

theorem packedByte_getLsbD (bits : Bits) (j : Nat) {i : Nat} (hi : i < 8) :
    (packedByte bits j).getLsbD i = bits.getD (8 * j + (7 - i)) false :=
  BitVec.iunfoldr_getLsbD (fun _ => ()) ⟨i, hi⟩ fun _ => rfl

theorem getD_append_of_lt {bits more : Bits} {k : Nat} (h : k < bits.length) :
    (bits ++ more).getD k false = bits.getD k false := by
  rw [List.getD_eq_getElem?_getD, List.getD_eq_getElem?_getD, List.getElem?_append_left h]

theorem getD_of_length_le {bits : Bits} {k : Nat} (h : bits.length ≤ k) : bits.getD k false = false := by
  rw [List.getD_eq_getElem?_getD, List.getElem?_eq_none h, Option.getD_none]

theorem setBit_getLsbD (v : Byte) {i j : Nat} (b : Bool) (hj : j < 8) :
    (setBit v i b).getLsbD j = if j = i then b else v.getLsbD j := by
  have hone : (1#8 <<< i).getLsbD j = decide (j = i) := by
    rw [show 1#8 <<< i = BitVec.twoPow 8 i from rfl, BitVec.getLsbD_twoPow, Bool.eq_iff_iff]
    simp only [Bool.and_eq_true, decide_eq_true_eq]
    omega
  cases b
  · rw [setBit, if_neg Bool.false_ne_true, BitVec.getLsbD_and, BitVec.getLsbD_not, hone]
    by_cases h : j = i <;> simp [h, hj]
  · rw [setBit, if_pos rfl, BitVec.getLsbD_or, hone]
    by_cases h : j = i <;> simp [h]

/-- A byte whose bits have all been written does not change by more of them. -/
theorem packedByte_append {bits more : Bits} {j : Nat} (h : 8 * (j + 1) ≤ bits.length) :
    packedByte (bits ++ more) j = packedByte bits j := by
  refine BitVec.eq_of_getLsbD_eq fun i hi => ?_
  rw [packedByte_getLsbD _ _ hi, packedByte_getLsbD _ _ hi, getD_append_of_lt (by omega)]

/-- A byte no bit of which has been written is 0. -/
theorem packedByte_eq_zero {bits : Bits} {j : Nat} (h : bits.length ≤ 8 * j) : packedByte bits j = 0#8 := by
  refine BitVec.eq_of_getLsbD_eq fun i hi => ?_
  rw [packedByte_getLsbD _ _ hi, getD_of_length_le (by omega), BitVec.getLsbD_zero]

/-- The next bit goes to its place in the byte being filled (R122). -/
theorem setBit_packedByte (bits : Bits) (b : Bool) :
    setBit (packedByte bits (bits.length / 8)) (7 - bits.length % 8) b =
      packedByte (bits ++ [b]) (bits.length / 8) := by
  refine BitVec.eq_of_getLsbD_eq fun i hi => ?_
  rw [setBit_getLsbD _ _ hi, packedByte_getLsbD _ _ hi, packedByte_getLsbD _ _ hi]
  split
  · next heq =>
    rw [show 8 * (bits.length / 8) + (7 - i) = bits.length by omega]
    simp
  · next hne =>
    by_cases hold : 8 * (bits.length / 8) + (7 - i) < bits.length
    · rw [getD_append_of_lt hold]
    · rw [getD_of_length_le (by omega),
        getD_of_length_le (by rw [List.length_append, List.length_singleton]; omega)]

@[simp] theorem packedBytes_length (bits : Bits) (n : Nat) : (packedBytes bits n).length = n := by
  simp [packedBytes]

theorem packedBytes_succ (bits : Bits) (n : Nat) :
    packedBytes bits (n + 1) = packedBytes bits n ++ [packedByte bits n] := by
  simp [packedBytes, List.range_succ]

theorem packedBytes_append {bits more : Bits} {n : Nat} (h : 8 * n ≤ bits.length) :
    packedBytes (bits ++ more) n = packedBytes bits n :=
  List.map_congr_left fun j hj => packedByte_append (by have := List.mem_range.mp hj; omega)

theorem packedBytes_getElem? (bits : Bits) {n j : Nat} (h : j < n) :
    (packedBytes bits n)[j]? = some (packedByte bits j) := by
  simp [packedBytes, h]

/-! ### Overwriting bytes of a memory (R61) -/

/-- The memory after writes from `a` on, one for each value in order. -/
def Space.overwrite {α : Type} [DecidableEq α] (d : α) : Nat → List α → Space α → Space α
  | _, [], sp => sp
  | a, v :: vs, sp => Space.overwrite d (a + 1) vs (sp.put d a v)

theorem Space.append_append {α : Type} [DecidableEq α] {d : α} (vs ws : List α) (sp : Space α) :
    sp.append d (vs ++ ws) = (sp.append d vs).append d ws := by
  induction vs generalizing sp with
  | nil => rfl
  | cons v vs ih => exact ih _

/-- Writes below the length keep it. -/
theorem Space.overwrite_len {α : Type} [DecidableEq α] {d : α} (vs : List α) {a : Nat} {sp : Space α}
    (h : a + vs.length ≤ sp.len.toNat) : (sp.overwrite d a vs).len = sp.len := by
  induction vs generalizing a sp with
  | nil => rfl
  | cons v vs ih =>
    rw [List.length_cons] at h
    have hput : (sp.put d a v).len = sp.len := if_neg (by omega)
    rw [Space.overwrite, ih (by rw [hput]; omega), hput]

theorem Space.read_overwrite {α : Type} [DecidableEq α] {d : α} (vs : List α) {a : Nat} {sp : Space α}
    (hwf : Memory.wf d sp.cells = true) (b : Nat) :
    (sp.overwrite d a vs).read d b = if a ≤ b then vs[b - a]?.getD (sp.read d b) else sp.read d b := by
  induction vs generalizing a sp with
  | nil => simp [Space.overwrite]
  | cons v vs ih =>
    rw [Space.overwrite, ih (Memory.wf_set hwf _ v), Space.read_put hwf]
    rcases Nat.lt_trichotomy b a with hlt | rfl | hgt
    · rw [if_neg (by omega), if_neg (by omega), if_neg (by omega)]
    · rw [if_neg (by omega), if_pos rfl, if_pos (Nat.le_refl b), Nat.sub_self]
      rfl
    · obtain ⟨j, rfl⟩ := Nat.exists_eq_add_of_lt hgt
      rw [if_pos (by omega), if_neg (by omega), if_pos (by omega), show a + j + 1 - a = j + 1 by omega,
        show a + j + 1 - (a + 1) = j by omega, List.getElem?_cons_succ]

/-- Bytes written below the length, in a fault-free environment, overwrite what was there. -/
theorem writeCmpBytes_below (vs : List Byte) {a : Nat} {s : State} (hfree : s.FaultFree)
    (h : a + vs.length ≤ s.cmp.len.toNat) :
    writeCmpBytes a vs s = .done () { s with cmp := s.cmp.overwrite 0#8 a vs } := by
  induction vs generalizing a s with
  | nil => rfl
  | cons v vs ih =>
    rw [List.length_cons] at h
    have hput : (s.cmp.put 0#8 a v).len = s.cmp.len := if_neg (by omega)
    rw [writeCmpBytes, writeCmp_faultFree hfree v fun hfull => by omega, Run.andThen_done,
      ih (s := { s with cmp := s.cmp.put 0#8 a v }) hfree (by simp only [hput]; omega)]
    rfl

/-! ### The writer's operations in a fault-free environment (R122, R124) -/

section

variable {s : State}

/-- Seven bits of a byte stay in the buffer. -/
theorem bwWriteBit_buffered (b : Bool) (htotal : s.bwTotal ≠ wordMax) (hbuf : s.bwNbuf ≠ 7#3) :
    bwWriteBit b s = .done () { s with
      bwBuf := setBit s.bwBuf (7 - s.bwNbuf.toNat) b
      bwNbuf := s.bwNbuf + 1#3
      bwTotal := s.bwTotal + 1#32 } := by
  simp [bwWriteBit, htotal, hbuf]

/-- The eighth appends the byte. -/
theorem bwWriteBit_flushed (hfree : s.FaultFree) (b : Bool) (htotal : s.bwTotal ≠ wordMax) (hbuf : s.bwNbuf = 7#3)
    (hlen : s.cmp.len ≠ wordMax) :
    bwWriteBit b s = .done () { s with
      cmp := s.cmp.put 0#8 s.cmp.len.toNat (setBit s.bwBuf 0 b)
      bwBuf := 0#8
      bwNbuf := 0#3
      bwTotal := s.bwTotal + 1#32 } := by
  have hwrite := writeCmp_faultFree (s := { s with bwBuf := setBit s.bwBuf 0 b, bwTotal := s.bwTotal + 1#32 }) hfree
    (a := s.cmp.len.toNat) (setBit s.bwBuf 0 b) fun hfull => hlen hfull.2
  simp only [bwWriteBit, if_neg htotal, if_pos hbuf]
  rw [show 7 - s.bwNbuf.toNat = 0 by rw [hbuf]; rfl, hwrite]
  rfl

theorem bwFlush_empty (hbuf : s.bwNbuf = 0#3) : bwFlush s = .done () s := if_pos hbuf

theorem bwFlush_partial (hfree : s.FaultFree) (hbuf : s.bwNbuf ≠ 0#3) (hlen : s.cmp.len ≠ wordMax) :
    bwFlush s = .done () { s with
      cmp := s.cmp.put 0#8 s.cmp.len.toNat s.bwBuf
      bwBuf := 0#8
      bwNbuf := 0#3 } := by
  simp [bwFlush, hbuf, writeCmp_faultFree hfree s.bwBuf fun hfull => hlen hfull.2]

end

/-! ### The writer as a function of the bits written (R120, R122) -/

/-- The state with the writer opened in `s` and `bits` written since. -/
def State.writing (s : State) (bits : Bits) : State :=
  { s with cmp := (s.zeroedCmp 4).append 0#8 (packedBytes bits (bits.length / 8)), cmpValid := false, bwOpen := true
           bwBuf := packedByte bits (bits.length / 8), bwNbuf := BitVec.ofNat 3 bits.length
           bwTotal := BitVec.ofNat 32 bits.length }

/-- The state with the partial byte of that writer flushed (R124). -/
def State.flushed (s : State) (bits : Bits) : State :=
  { s with cmp := (s.zeroedCmp 4).append 0#8 (packedBytes bits ((bits.length + 7) / 8)), cmpValid := false
           bwOpen := true, bwBuf := 0#8, bwNbuf := 0#3, bwTotal := BitVec.ofNat 32 bits.length }

/-- `CMP` after the close of the writer opened in `s`, `bits` written: the payload padded to whole bytes, and the count
over the placeholders (R98). -/
def State.streamCmp (s : State) (bits : Bits) : Space Byte :=
  (s.flushed bits).cmp.overwrite 0#8 0 (be32 (BitVec.ofNat 32 bits.length))

/-- The state after that close (R124). -/
def State.closed (s : State) (bits : Bits) : State :=
  { s with cmp := s.streamCmp bits, cmpValid := true, bwOpen := false, bwBuf := 0#8, bwNbuf := 0#3
           bwTotal := BitVec.ofNat 32 bits.length }

section

variable {s : State} {bits : Bits}

theorem State.FaultFree.writing (h : s.FaultFree) (bits : Bits) : (s.writing bits).FaultFree := h

/-- The first `n` bytes of a payload of 32 bits' count, after the placeholders. -/
theorem State.zeroedCmp_append_len {n : Nat} (hn : n < 2 ^ 30) :
    ((s.zeroedCmp 4).append 0#8 (packedBytes bits n)).len.toNat = 4 + n := by
  have hzero := State.zeroedCmp_len (s := s) (n := 4) (by decide)
  rw [Space.append_len _ (by rw [hzero, packedBytes_length]; omega), hzero, packedBytes_length]

theorem State.writing_len (h : bits.length < 2 ^ 32) : (s.writing bits).cmp.len.toNat = 4 + bits.length / 8 :=
  State.zeroedCmp_append_len (by omega)

theorem State.flushed_len (h : bits.length < 2 ^ 32) : (s.flushed bits).cmp.len.toNat = 4 + (bits.length + 7) / 8 :=
  State.zeroedCmp_append_len (by omega)

theorem State.writing_hasRoom (h : bits.length < 2 ^ 32) : (s.writing bits).cmp.len ≠ wordMax := fun hmax => by
  have hlen := State.writing_len (s := s) h
  simp only [hmax, wordMax, BitVec.toNat_ofNat] at hlen
  omega

/-- The number of bits in the buffer (R31). -/
theorem State.writing_nbuf : (s.writing bits).bwNbuf.toNat = bits.length % 8 := by
  simp [State.writing]

theorem State.writing_nbuf_eq (n : BitVec 3) : (s.writing bits).bwNbuf = n ↔ bits.length % 8 = n.toNat := by
  rw [← State.writing_nbuf (s := s), BitVec.toNat_inj]

/-- The buffer with one more bit (R122). -/
theorem State.writing_setBit (b : Bool) :
    setBit (s.writing bits).bwBuf (7 - (s.writing bits).bwNbuf.toNat) b =
      packedByte (bits ++ [b]) (bits.length / 8) := by
  rw [State.writing_nbuf, ← setBit_packedByte]
  rfl

/-- `CMP` with the byte in the buffer appended. -/
theorem State.writing_put (v : Byte) :
    (s.writing bits).cmp.put 0#8 (s.writing bits).cmp.len.toNat v =
      (s.zeroedCmp 4).append 0#8 (packedBytes bits (bits.length / 8) ++ [v]) := by
  rw [Space.append_append]
  rfl

/-! ### Opening, writing and closing (R120, R122, R124) -/

variable (hfree : s.FaultFree)

include hfree

theorem State.writing_nil : { s.openWriter with env := s.env.drop 5, cmp := s.zeroedCmp 4 } = s.writing [] := by
  simp [State.openWriter, State.writing, packedBytes, Space.append, packedByte_eq_zero, show s.env = [] from hfree]

theorem bwOpenRun_writing : bwOpenRun s = .done () (s.writing []) := by
  rw [bwOpenRun_ok (hfree.answersOk 5), State.writing_nil hfree]

theorem bwWriteBit_writing (b : Bool) (h : bits.length + 1 < 2 ^ 32) :
    bwWriteBit b (s.writing bits) = .done () (s.writing (bits ++ [b])) := by
  have htotal : (s.writing bits).bwTotal ≠ wordMax := by
    simp only [State.writing, wordMax]
    bv_omega
  have hbit := State.writing_setBit (s := s) (bits := bits) b
  have hlen : (bits ++ [b]).length = bits.length + 1 := List.length_append
  by_cases hfull : (s.writing bits).bwNbuf = 7#3
  · have hseven : bits.length % 8 = 7 := (State.writing_nbuf_eq 7#3).mp hfull
    have hdiv : (bits ++ [b]).length / 8 = bits.length / 8 + 1 := by rw [hlen]; omega
    have hnbuf : BitVec.ofNat 3 (bits ++ [b]).length = 0#3 :=
      BitVec.eq_of_toNat_eq (by rw [hlen, BitVec.toNat_ofNat, BitVec.toNat_ofNat]; omega)
    have hbuf : packedByte (bits ++ [b]) (bits.length / 8 + 1) = 0#8 := packedByte_eq_zero (by rw [hlen]; omega)
    rw [hfull, show 7 - (7#3).toNat = 0 from rfl] at hbit
    rw [bwWriteBit_flushed (hfree.writing bits) b htotal hfull (State.writing_hasRoom (by omega)), hbit,
      State.writing_put, State.writing, State.writing, hdiv, hnbuf, packedBytes_succ,
      packedBytes_append (Nat.mul_div_le _ _), hbuf, hlen, BitVec.ofNat_add]
  · have hdiv : (bits ++ [b]).length / 8 = bits.length / 8 := by
      have hpartial : bits.length % 8 ≠ 7 := fun h7 => hfull ((State.writing_nbuf_eq 7#3).mpr h7)
      rw [hlen]
      omega
    rw [bwWriteBit_buffered b htotal hfull, hbit, State.writing, State.writing, hdiv,
      packedBytes_append (Nat.mul_div_le _ _), hlen, BitVec.ofNat_add, BitVec.ofNat_add]

theorem bwFlush_writing (h : bits.length < 2 ^ 32) : bwFlush (s.writing bits) = .done () (s.flushed bits) := by
  by_cases hempty : (s.writing bits).bwNbuf = 0#3
  · have hzero : bits.length % 8 = 0 := (State.writing_nbuf_eq 0#3).mp hempty
    have hnbuf : BitVec.ofNat 3 bits.length = 0#3 := hempty
    rw [bwFlush_empty hempty, State.writing, State.flushed, hnbuf, packedByte_eq_zero (by omega),
      show (bits.length + 7) / 8 = bits.length / 8 by omega]
  · have hpartial : bits.length % 8 ≠ 0 := fun h0 => hempty ((State.writing_nbuf_eq 0#3).mpr h0)
    rw [bwFlush_partial (hfree.writing bits) hempty (State.writing_hasRoom h), State.writing_put, State.flushed,
      show (bits.length + 7) / 8 = bits.length / 8 + 1 by omega, packedBytes_succ]
    rfl

theorem bwCloseRun_writing (h : bits.length < 2 ^ 32) :
    bwCloseRun (s.writing bits) = .done (BitVec.ofNat 32 bits.length) (s.closed bits) := by
  have hcount := writeCmpBytes_below (s := s.flushed bits) (a := 0) (be32 (BitVec.ofNat 32 bits.length)) hfree
    (by rw [State.flushed_len h, be32_length]; omega)
  rw [bwCloseRun, bwFlush_writing hfree h, Run.andThen_done,
    show (s.flushed bits).bwTotal = BitVec.ofNat 32 bits.length from rfl, hcount]
  rfl

end

/-! ### The stream (R98) -/

section

variable {s : State} {bits : Bits} (hok : ByteSpaceOk s.cmp) (h : bits.length < 2 ^ 32)

include h

theorem State.streamCmp_len : (s.streamCmp bits).len.toNat = 4 + (bits.length + 7) / 8 := by
  have hlen := State.flushed_len (s := s) h
  rw [State.streamCmp, Space.overwrite_len _ (by rw [hlen, be32_length]; omega), hlen]

include hok

/-- The count, the padded payload, and above them the cells from before the open. -/
theorem State.read_streamCmp (a : Nat) :
    (s.streamCmp bits).read 0#8 a =
      if a < 4 then (be32 (BitVec.ofNat 32 bits.length))[a]?.getD 0#8
      else if a < 4 + (bits.length + 7) / 8 then packedByte bits (a - 4) else s.cmp.read 0#8 a := by
  have hzero := State.zeroedCmp_len (s := s) (n := 4) (by decide)
  have hwf := State.zeroedCmp_wf hok 4
  have hread := Space.read_append (packedBytes bits ((bits.length + 7) / 8)) hwf
    (by rw [hzero, packedBytes_length]; omega) a
  rw [State.streamCmp, State.flushed, Space.read_overwrite _ (Space.append_wf _ hwf), if_pos (Nat.zero_le a),
    Nat.sub_zero, hread, hzero, State.read_zeroedCmp (by decide) hok]
  by_cases hcount : a < 4
  · rw [if_pos hcount, if_neg (by omega), if_pos hcount]
  · rw [if_neg hcount, if_neg hcount, if_pos (by omega), List.getElem?_eq_none (by rw [be32_length]; omega),
      Option.getD_none]
    split
    · next ha => rw [packedBytes_getElem? bits (by omega), Option.getD_some]
    · next ha => rw [List.getElem?_eq_none (by rw [packedBytes_length]; omega), Option.getD_none]

theorem State.streamCmp_isStream : (s.streamCmp bits).IsStream bits where
  countFits := by simp only [wordMax, BitVec.toNat_ofNat]; omega
  length := State.streamCmp_len h
  prefixOk a ha := by
    have hget : (be32 (BitVec.ofNat 32 bits.length))[a]? = some _ := List.getElem?_eq_getElem (by simpa using ha)
    rw [State.read_streamCmp hok h, if_pos ha, hget, Option.getD_some]
  payload j k hj hk := by
    rw [State.read_streamCmp hok h, if_neg (by omega), if_pos (by omega), Nat.add_sub_cancel_left,
      packedByte_getLsbD _ _ (by omega), show 7 - (7 - k) = k by omega]

/-- A close leaves the cells above the stream as before the open (log entry 6). -/
theorem State.read_streamCmp_above {a : Nat} (ha : (s.streamCmp bits).len.toNat ≤ a) :
    (s.streamCmp bits).read 0#8 a = s.cmp.read 0#8 a := by
  rw [State.streamCmp_len h] at ha
  rw [State.read_streamCmp hok h, if_neg (by omega), if_neg (by omega)]

end

/-! ### The commands of the bit writer, one after another -/

theorem commands_cons {i : Instr} {is : List Instr} {s t : State} (h : exec i s = .next t) :
    commands (i :: is) s = commands is t := by
  rw [commands, h]

theorem commands_append (is js : List Instr) (s : State) :
    commands (is ++ js) s = (commands is s).bind (commands js) := by
  induction is generalizing s with
  | nil => rfl
  | cons i is ih =>
    have h := exec_eq_runCommand i s
    rw [List.cons_append, commands_cons h, commands_cons h, ih]

/-- With a writer open its commands are accepted (R235). -/
theorem acceptable_of_writerOpen {i : Instr} {s : State} (hs : s.bwOpen = true)
    (hi : i ∈ [Instr.bwClose, .bwWrite false, .bwWrite true]) : acceptable i s = true := by
  simp only [List.mem_cons, List.not_mem_nil, or_false] at hi
  rcases hi with rfl | rfl | rfl <;> exact hs

section

variable {s : State} (herr : s.err = none) (hfree : s.FaultFree)

include herr hfree

theorem exec_bwWrite_writing {bits : Bits} (b : Bool) (h : bits.length + 1 < 2 ^ 32) :
    exec (.bwWrite b) (s.writing bits) = .next ({ s with res := 0#32 }.writing (bits ++ [b])) :=
  exec_done (i := .bwWrite b) (s := s.writing bits) (t := s.writing (bits ++ [b])) herr
    (acceptable_of_writerOpen rfl (by cases b <;> simp))
    (by simp [body, bwWriteBit_writing hfree b h])

theorem commands_bwWrite_writing (more : Bits) {bits : Bits} (h : bits.length + more.length < 2 ^ 32)
    (hres : s.res = 0#32) :
    commands (more.map Instr.bwWrite) (s.writing bits) = some (s.writing (bits ++ more)) := by
  have hsame : { s with res := 0#32 } = s := by rw [← hres]
  induction more generalizing bits with
  | nil => simp [commands]
  | cons b more ih =>
    rw [List.length_cons] at h
    rw [List.map_cons, commands_cons (exec_bwWrite_writing herr hfree b (by omega)), hsame,
      ih (by rw [List.length_append, List.length_singleton]; omega)]
    simp

theorem exec_bwClose_writing {bits : Bits} (h : bits.length < 2 ^ 32) :
    exec .bwClose (s.writing bits) = .next { s.closed bits with res := BitVec.ofNat 32 bits.length } :=
  exec_done herr (acceptable_of_writerOpen rfl (by simp)) (bwCloseRun_writing hfree h)

end

/-- An open, bits and a close. -/
theorem commands_writeStream {s : State} {bits : Bits} (hidle : s.Idle) (hfree : s.FaultFree)
    (h : bits.length < 2 ^ 32) :
    commands ([.bwOpen] ++ bits.map Instr.bwWrite ++ [.bwClose]) s =
      some { s.closed bits with res := BitVec.ofNat 32 bits.length } := by
  have hopen : exec .bwOpen s = .next ({ s with res := 0#32 }.writing []) :=
    exec_bwOpen_done hidle (bwOpenRun_writing hfree)
  have hwrites := commands_bwWrite_writing (s := { s with res := 0#32 }) hidle.noFault hfree bits (bits := [])
    (by simpa using h) rfl
  have hclose := exec_bwClose_writing (s := { s with res := 0#32 }) hidle.noFault hfree h
  rw [List.append_assoc, List.singleton_append, commands_cons hopen, commands_append, hwrites, Option.bind_some,
    List.nil_append, commands_cons hclose]
  rfl

/-- Settles O46: the commands run to `State.closed`, whose `CMP` is the stream. -/
theorem closedWriterLeavesTheStream : Obligations.ClosedWriterLeavesTheStream := by
  unfold Obligations.ClosedWriterLeavesTheStream
  intro s bits hinv hidle hfree h
  exact ⟨_, commands_writeStream hidle hfree h, hidle.noFault, State.streamCmp_isStream hinv.cmpOk h, rfl, rfl, rfl,
    fun _ => State.read_streamCmp_above hinv.cmpOk h⟩

end Sys2Proof.Machine
end

section
/-! PROOFS. The encoder in a fault-free environment, every symbol having a codeword: O49. -/

namespace Sys2Proof.Machine

/-- `n` symbols of `SRC` from index `i` on. -/
def State.symbolsFrom (s : State) (i n : Nat) : List Symbol := (List.range' i n).map (s.src.read 0#16)

theorem State.symbolsFrom_succ (s : State) (i n : Nat) :
    s.symbolsFrom i (n + 1) = s.src.read 0#16 i :: s.symbolsFrom (i + 1) n := by
  simp [State.symbolsFrom, List.range'_succ]

theorem State.source_eq_symbolsFrom (s : State) : s.source = s.symbolsFrom 0 s.src.len.toNat := by
  rw [State.source, Space.contents, State.symbolsFrom, List.range_eq_range']

theorem State.payload_cons {s : State} {sym : Symbol} {code : Bits} (h : s.codeword sym.toNat = some code)
    (syms : List Symbol) : s.payload (sym :: syms) = code ++ s.payload syms := by
  simp [State.payload, h]

section

variable {s : State} (hfree : s.FaultFree)

include hfree

/-- The bits of a codeword are written one after another (R200). -/
theorem writeBits_writing (more : Bits) {bits : Bits} (h : bits.length + more.length < 2 ^ 32) :
    writeBits more (s.writing bits) = .done () (s.writing (bits ++ more)) := by
  induction more generalizing bits with
  | nil => rw [List.append_nil]; rfl
  | cons b more ih =>
    rw [List.length_cons] at h
    rw [writeBits, bwWriteBit_writing hfree b (by omega), Run.andThen_done,
      ih (by rw [List.length_append, List.length_singleton]; omega), List.append_assoc, List.singleton_append]

theorem encSymbol_writing {sym : Symbol} {code bits : Bits} (hcode : s.codeword sym.toNat = some code)
    (h : bits.length + code.length < 2 ^ 32) :
    encSymbol sym (s.writing bits) = .done () (s.writing (bits ++ code)) := by
  rw [encSymbol, show (s.writing bits).codeword sym.toNat = some code from hcode]
  exact writeBits_writing hfree code h

/-- Symbols that have codewords are passed one after another, their codewords written (R200, R203). -/
theorem encLoop_writing (rest n i : Nat) {bits : Bits}
    (hcode : ∀ sym ∈ s.symbolsFrom i n, (s.codeword sym.toNat).isSome = true)
    (h : bits.length + (s.payload (s.symbolsFrom i n)).length < 2 ^ 32) :
    encLoop (n + rest) i (s.writing bits) =
      encLoop rest (i + n) (s.writing (bits ++ s.payload (s.symbolsFrom i n))) := by
  induction n generalizing i bits with
  | zero => simp [State.symbolsFrom, State.payload]
  | succ n ih =>
    rw [State.symbolsFrom_succ] at hcode h ⊢
    obtain ⟨code, hc⟩ := Option.isSome_iff_exists.mp (hcode _ List.mem_cons_self)
    rw [State.payload_cons hc] at h ⊢
    rw [List.length_append] at h
    rw [Nat.add_right_comm, encLoop, readSrc_faultFree (hfree.writing bits), Run.andThen_done,
      show (s.writing bits).src = s.src from rfl, encSymbol_writing hfree hc (by omega), Run.andThen_done,
      ih (i + 1) (fun sym hsym => hcode sym (List.mem_cons_of_mem _ hsym)) (by rw [List.length_append]; omega),
      List.append_assoc, Nat.add_right_comm i 1 n, Nat.add_assoc i n 1]

/-- `enc_run()` with every symbol in the codebook: the writer is opened, given the payload and closed (R203). -/
theorem encRun_writesPayload (hcode : ∀ sym ∈ s.source, (s.codeword sym.toNat).isSome = true)
    (h : (s.payload s.source).length < 2 ^ 32) :
    encRun s = .done (BitVec.ofNat 32 (s.payload s.source).length) (s.closed (s.payload s.source)) := by
  rw [State.source_eq_symbolsFrom] at hcode h ⊢
  have hloop := encLoop_writing hfree 0 s.src.len.toNat 0 (bits := []) hcode (by simpa using h)
  rw [Nat.add_zero, List.nil_append, encLoop] at hloop
  rw [encRun, bwOpenRun_writing hfree, Run.andThen_done, openRead_faultFree (hfree.writing []), Run.andThen_done,
    show (s.writing []).src = s.src from rfl, hloop, Run.andThen_done, bwCloseRun_writing hfree h]

end

/-- Settles O49: `encRun_writesPayload`, and the stream that a close leaves. -/
theorem encRunWritesThePayload : Obligations.EncRunWritesThePayload := by
  unfold Obligations.EncRunWritesThePayload
  intro s hinv hidle hfree hcode h
  refine ⟨_, exec_done (i := .encRun) hidle.noFault (acceptable_of_idle hidle (by simp))
    (encRun_writesPayload hfree hcode h), State.streamCmp_isStream hinv.cmpOk h, rfl, ?_,
    fun _ => State.read_streamCmp_above hinv.cmpOk h⟩
  rw [State.closed, ← hidle.noWriter]

end Sys2Proof.Machine
end

section
/-! PROOFS. The bit reader in a fault-free environment: the reader as a function of the number of bits delivered, and
what repeated `BR.READ`s answer, on any `CMP`: O48. -/

namespace Sys2Proof.Machine

/-! ### One read of a bit (R128) -/

section

variable {s : State}

/-- All announced bits are delivered. -/
theorem brReadBit_atCount (hrem : s.brRem = 0#32) : brReadBit s = .done none s := if_pos hrem

/-- The bytes of `CMP` have ended before the announced bits. -/
theorem brReadBit_atLength (hrem : s.brRem ≠ 0#32) (hbuf : s.brNbuf = 0#4) (hptr : s.cmp.len.toNat ≤ s.brPtr.toNat) :
    brReadBit s = .done none { s with brShort := true } := by
  simp [brReadBit, hrem, hbuf, hptr]

theorem brReadBit_buffered (hrem : s.brRem ≠ 0#32) (hbuf : s.brNbuf ≠ 0#4) : brReadBit s = brDeliver s := by
  simp [brReadBit, hrem, hbuf]

theorem brReadBit_nextByte (hfree : s.FaultFree) (hrem : s.brRem ≠ 0#32) (hbuf : s.brNbuf = 0#4)
    (hptr : s.brPtr.toNat < s.cmp.len.toNat) :
    brReadBit s = brDeliver { s with
      brBuf := s.cmp.read 0#8 s.brPtr.toNat
      brPtr := s.brPtr + 1#32
      brNbuf := 8#4 } := by
  rw [brReadBit, if_neg hrem, if_pos hbuf, if_neg (Nat.not_le.mpr hptr), readCmp_faultFree hfree, Run.andThen_done]

end

/-! ### What an arbitrary `CMP` announces and delivers (R99) -/

theorem Space.announced_lt (sp : Space Byte) : sp.announced < 2 ^ 32 := by
  have h0 := (sp.read 0#8 0).isLt
  have h1 := (sp.read 0#8 1).isLt
  have h2 := (sp.read 0#8 2).isLt
  have h3 := (sp.read 0#8 3).isLt
  unfold Space.announced
  omega

theorem Space.delivered_length {sp : Space Byte} (h : 4 ≤ sp.len.toNat) :
    sp.delivered.length = min sp.announced sp.available := by
  simp [Space.delivered, Nat.not_lt.mpr h]

theorem Space.delivered_getElem {sp : Space Byte} (h : 4 ≤ sp.len.toNat) {k : Nat} (hk : k < sp.delivered.length) :
    sp.delivered[k] = (sp.read 0#8 (4 + k / 8)).getLsbD (7 - k % 8) := by
  simp [Space.delivered, Nat.not_lt.mpr h]

/-- The first four bytes, big-endian, are the number they announce (R126). -/
theorem readPrefix_announced {s : State} (hfree : s.FaultFree) :
    readPrefix [0, 1, 2, 3] 0#32 s = .done (BitVec.ofNat 32 s.cmp.announced) s := by
  simp only [readPrefix, readCmp_faultFree hfree, Run.andThen_done]
  congr 1
  refine BitVec.eq_of_toNat_eq ?_
  have h := s.cmp.announced_lt
  unfold Space.announced at h ⊢
  simp only [BitVec.toNat_add, BitVec.toNat_mul, BitVec.toNat_setWidth, BitVec.toNat_ofNat]
  omega

/-! ### The reader as a function of the bits delivered (R126, R128) -/

/-- The state with the reader opened in `s` and `k` bits delivered since. -/
def State.reading (s : State) (k : Nat) : State :=
  { s with brOpen := true, brShort := false
           brBuf := if k % 8 = 0 then 0#8 else s.cmp.read 0#8 (4 + k / 8) <<< (k % 8)
           brNbuf := BitVec.ofNat 4 ((8 - k % 8) % 8), brRem := BitVec.ofNat 32 (s.cmp.announced - k)
           brPtr := BitVec.ofNat 32 (4 + (k + 7) / 8) }

/-- That state with the byte of bit `k` in the buffer, read now if `k` bits are whole bytes. -/
def State.loaded (s : State) (k : Nat) : State :=
  { s with brOpen := true, brShort := false, brBuf := s.cmp.read 0#8 (4 + k / 8) <<< (k % 8)
           brNbuf := BitVec.ofNat 4 (8 - k % 8), brRem := BitVec.ofNat 32 (s.cmp.announced - k)
           brPtr := BitVec.ofNat 32 (4 + k / 8 + 1) }

section

variable {s : State}

/-- The reader does not look at `RES`. -/
theorem State.reading_setRes (s : State) (v : Word) (k : Nat) :
    { s.reading k with res := v } = { s with res := v }.reading k := rfl

theorem State.FaultFree.reading (hfree : s.FaultFree) (k : Nat) : (s.reading k).FaultFree := hfree

/-- A stream too short for its count has nothing to deliver (R126). -/
theorem brOpenRun_tooShort (hfree : s.FaultFree) (h : s.cmp.len.toNat < 4) :
    brOpenRun s = .done 0#32 { s with
      brOpen := true, brShort := true, brBuf := 0#8, brNbuf := 0#4, brRem := 0#32, brPtr := 0#32 } := by
  simp [brOpenRun, openRead_faultFree hfree, h]

theorem brOpenRun_reading (hfree : s.FaultFree) (h : 4 ≤ s.cmp.len.toNat) :
    brOpenRun s = .done (BitVec.ofNat 32 s.cmp.announced) (s.reading 0) := by
  have hcount := readPrefix_announced (s := { s with
    brOpen := true, brShort := false, brBuf := 0#8, brNbuf := 0#4, brRem := 0#32, brPtr := 0#32 }) hfree
  rw [brOpenRun, openRead_faultFree hfree, Run.andThen_done]
  simp only [if_neg (Nat.not_lt.mpr h)]
  rw [hcount]
  rfl

/-- The bits left of a byte after one more of them is delivered. -/
theorem Space.shiftLeft_nextBit (sp : Space Byte) (k : Nat) :
    sp.read 0#8 (4 + k / 8) <<< (k % 8) <<< 1 =
      if (k + 1) % 8 = 0 then 0#8 else sp.read 0#8 (4 + (k + 1) / 8) <<< ((k + 1) % 8) := by
  rw [← BitVec.shiftLeft_add]
  split
  · exact BitVec.shiftLeft_eq_zero (by omega)
  · rw [show (k + 1) % 8 = k % 8 + 1 by omega, show (k + 1) / 8 = k / 8 by omega]

theorem brDeliver_loaded {k : Nat} (hk : k < s.cmp.announced) :
    brDeliver (s.loaded k) =
      .done (some ((s.cmp.read 0#8 (4 + k / 8)).getLsbD (7 - k % 8))) (s.reading (k + 1)) := by
  have hbit : (s.loaded k).brBuf.msb = (s.cmp.read 0#8 (4 + k / 8)).getLsbD (7 - k % 8) := by
    have hkept : ¬ 7 < k % 8 := by omega
    rw [State.loaded, BitVec.msb_eq_getLsbD_last, BitVec.getLsbD_shiftLeft]
    simp [hkept]
  have hnbuf : BitVec.ofNat 4 (8 - k % 8) - 1#4 = BitVec.ofNat 4 ((8 - (k + 1) % 8) % 8) := by
    rw [BitVec.ofNat_sub_ofNat_of_le _ _ (by decide) (by omega),
      show 8 - k % 8 - 1 = (8 - (k + 1) % 8) % 8 by omega]
  have hrem : BitVec.ofNat 32 (s.cmp.announced - k) - 1#32 = BitVec.ofNat 32 (s.cmp.announced - (k + 1)) := by
    rw [BitVec.ofNat_sub_ofNat_of_le _ _ (by decide) (Nat.le_sub_of_add_le (by rwa [Nat.add_comm])), Nat.sub_sub]
  rw [brDeliver, hbit, State.reading, ← Space.shiftLeft_nextBit, ← hnbuf, ← hrem,
    show 4 + (k + 1 + 7) / 8 = 4 + k / 8 + 1 by omega, State.loaded]

/-- Within a byte the next bit is in the buffer. -/
theorem State.reading_eq_loaded {k : Nat} (hk : k % 8 ≠ 0) : s.reading k = s.loaded k := by
  rw [State.reading, State.loaded, if_neg hk, Nat.mod_eq_of_lt (show 8 - k % 8 < 8 by omega),
    show 4 + (k + 7) / 8 = 4 + k / 8 + 1 by omega]

theorem State.reading_brRem {k : Nat} (hk : k < s.cmp.announced) : (s.reading k).brRem ≠ 0#32 := fun hzero => by
  have hlt := s.cmp.announced_lt
  have hsub := Nat.sub_pos_of_lt hk
  have hval := congrArg BitVec.toNat (show BitVec.ofNat 32 (s.cmp.announced - k) = 0#32 from hzero)
  rw [BitVec.toNat_ofNat, Nat.mod_eq_of_lt (Nat.lt_of_le_of_lt (Nat.sub_le _ _) hlt)] at hval
  exact Nat.ne_of_gt hsub hval

/-- The next byte is needed exactly when the bits delivered are whole bytes (R128). -/
theorem State.reading_brNbuf (k : Nat) : (s.reading k).brNbuf = 0#4 ↔ k % 8 = 0 := by
  rw [← BitVec.toNat_inj, State.reading, BitVec.toNat_ofNat, BitVec.toNat_ofNat]
  omega

theorem State.reading_brPtr {k : Nat} (hk : k ≤ s.cmp.available) (h : 4 ≤ s.cmp.len.toNat) :
    (s.reading k).brPtr.toNat = 4 + (k + 7) / 8 := by
  have hlt := s.cmp.len.isLt
  rw [Space.available] at hk
  rw [State.reading, BitVec.toNat_ofNat, Nat.mod_eq_of_lt]
  omega

/-- Between bytes the next byte is read into the buffer (R128). -/
theorem State.reading_load {k : Nat} (hk : k % 8 = 0) (havail : k ≤ s.cmp.available) (h : 4 ≤ s.cmp.len.toNat) :
    { s.reading k with
      brBuf := (s.reading k).cmp.read 0#8 (s.reading k).brPtr.toNat
      brPtr := (s.reading k).brPtr + 1#32
      brNbuf := 8#4 } = s.loaded k := by
  have hbyte : 4 + (k + 7) / 8 = 4 + k / 8 := by omega
  rw [State.reading_brPtr havail h, State.reading, State.loaded, hk, hbyte, BitVec.ofNat_add (x := 4 + k / 8),
    BitVec.shiftLeft_zero]

/-- A read of the next bit delivers it from its byte. -/
theorem brReadBit_reading (hfree : s.FaultFree) (h : 4 ≤ s.cmp.len.toNat) {k : Nat} (hk : k < s.cmp.delivered.length) :
    brReadBit (s.reading k) = .done (some s.cmp.delivered[k]) (s.reading (k + 1)) := by
  obtain ⟨hcount, havail⟩ := Nat.lt_min.mp (Space.delivered_length h ▸ hk)
  rw [Space.delivered_getElem h, ← brDeliver_loaded hcount]
  by_cases hbyte : k % 8 = 0
  · have hptr := State.reading_brPtr (Nat.le_of_lt havail) h
    have hbelow : (s.reading k).brPtr.toNat < (s.reading k).cmp.len.toNat := by
      rw [hptr, show (s.reading k).cmp = s.cmp from rfl]
      rw [Space.available] at havail
      omega
    rw [brReadBit_nextByte (hfree.reading k) (State.reading_brRem hcount) ((State.reading_brNbuf k).mpr hbyte)
      hbelow, State.reading_load hbyte (Nat.le_of_lt havail) h]
  · rw [brReadBit_buffered (State.reading_brRem hcount) fun h0 => hbyte ((State.reading_brNbuf k).mp h0),
      State.reading_eq_loaded hbyte]

end

/-! ### Repeated `BR.READ`s -/

/-- `BR.READ`s issued in `t` answer `ws`, and end in `u`. -/
inductive State.Delivers : State → List Word → State → Prop where
  | nil (t : State) : State.Delivers t [] t
  | cons {t t' u : State} {ws : List Word} (h : exec .brRead t = .next t') (hws : State.Delivers t' ws u) :
      State.Delivers t (t'.res :: ws) u

section

variable {t u : State} {ws : List Word} (h : t.Delivers ws u)

include h

theorem State.Delivers.append {v : State} {xs : List Word} (hx : u.Delivers xs v) : t.Delivers (ws ++ xs) v := by
  induction h with
  | nil t => exact hx
  | cons h _ ih => exact .cons h (ih hx)

theorem State.Delivers.readResults_eq : readResults ws.length t = some ws := by
  induction h with
  | nil t => rfl
  | cons h _ ih => simp [readResults, h, ih]

theorem State.Delivers.commands_eq : commands (List.replicate ws.length .brRead) t = some u := by
  induction h with
  | nil t => rfl
  | cons h _ ih => rw [List.length_cons, List.replicate_succ, commands_cons h, ih]

end

/-- A `BR.READ` with the reader open is accepted (R235). -/
theorem exec_brRead_done {s t : State} {b : Option Bool} (herr : s.err = none) (hopen : s.brOpen = true)
    (h : brReadBit s = .done b t) : exec .brRead s = .next { t with res := bitWord b } :=
  exec_done herr hopen (by simp [body, h])

/-! ### The end of the stream (R128) -/

/-- The reader has delivered all it will; `short` says whether the stream is short. -/
structure State.Ended (short : Bool) (s : State) : Prop where
  noFault : s.err = none
  isOpen  : s.brOpen = true
  atEnd   : (s.brRem = 0#32 ∧ s.brShort = short) ∨
    (s.brRem ≠ 0#32 ∧ s.brNbuf = 0#4 ∧ s.cmp.len.toNat ≤ s.brPtr.toNat ∧ short = true)

theorem State.Ended.exec_brRead {short : Bool} {s : State} (h : s.Ended short) :
    exec .brRead s = .next { s with brShort := short, res := eosWord } := by
  refine exec_brRead_done (b := none) (t := { s with brShort := short }) h.noFault h.isOpen ?_
  rcases h.atEnd with ⟨hrem, rfl⟩ | ⟨hrem, hbuf, hptr, rfl⟩
  · exact brReadBit_atCount hrem
  · exact brReadBit_atLength hrem hbuf hptr

/-- `EOS` again and again, and `BR_SHORT` as it is to be. -/
theorem State.Ended.delivers_succ {short : Bool} {s : State} (h : s.Ended short) (k : Nat) :
    s.Delivers (List.replicate (k + 1) eosWord) { s with brShort := short, res := eosWord } := by
  induction k generalizing s with
  | zero => exact .cons h.exec_brRead (.nil _)
  | succ k ih =>
    have hnext : State.Ended short { s with brShort := short, res := eosWord } :=
      ⟨h.noFault, h.isOpen, h.atEnd.imp_left fun ⟨hrem, _⟩ => ⟨hrem, rfl⟩⟩
    exact .cons h.exec_brRead (ih hnext)

theorem State.Ended.delivers {short : Bool} {s : State} (h : s.Ended short) (k : Nat) :
    ∃ u, s.Delivers (List.replicate k eosWord) u := by
  cases k with
  | zero => exact ⟨s, .nil s⟩
  | succ k => exact ⟨_, h.delivers_succ k⟩

/-- With the bits of `CMP` delivered the stream has ended, by its count or by its bytes (R99). -/
theorem State.reading_ended {s : State} (herr : s.err = none) (h : 4 ≤ s.cmp.len.toNat) :
    (s.reading s.cmp.delivered.length).Ended s.cmp.short := by
  refine ⟨herr, rfl, ?_⟩
  have hlen := Space.delivered_length h
  have hlong : Space.short s.cmp = decide (s.cmp.available < s.cmp.announced) := by
    simp [Space.short, Nat.not_lt.mpr h]
  rcases Nat.lt_or_ge s.cmp.available s.cmp.announced with hlt | hle
  · rw [Nat.min_eq_right (Nat.le_of_lt hlt)] at hlen
    have hbytes : s.cmp.available % 8 = 0 := Nat.mul_mod_right 8 _
    rw [hlen]
    refine .inr ⟨State.reading_brRem hlt, (State.reading_brNbuf _).mpr hbytes, ?_, ?_⟩
    · rw [State.reading_brPtr (Nat.le_refl _) h, Space.available]
      change s.cmp.len.toNat ≤ _
      omega
    · rw [hlong, decide_eq_true hlt]
  · rw [Nat.min_eq_left hle] at hlen
    refine .inl ⟨?_, ?_⟩
    · rw [hlen, State.reading, Nat.sub_self]
    · rw [hlong, decide_eq_false (Nat.not_lt.mpr hle)]
      rfl

/-! ### What an opened reader delivers (R99) -/

section

variable {s : State} (herr : s.err = none) (hfree : s.FaultFree) (h : 4 ≤ s.cmp.len.toNat)

include herr hfree h

/-- Bits not yet delivered are what the next reads answer. -/
theorem State.reading_delivers {k m : Nat} (hk : k + m = s.cmp.delivered.length) :
    ∃ r, (s.reading k).Delivers ((s.cmp.delivered.drop k).map boolWord)
      ({ s with res := r }.reading s.cmp.delivered.length) := by
  induction m generalizing s k with
  | zero =>
    rw [Nat.add_zero] at hk
    rw [hk, List.drop_length]
    exact ⟨s.res, .nil _⟩
  | succ m ih =>
    have hlt : k < s.cmp.delivered.length := by omega
    have hread : exec .brRead (s.reading k) =
        .next ({ s with res := boolWord s.cmp.delivered[k] }.reading (k + 1)) :=
      exec_brRead_done (s := s.reading k) (t := s.reading (k + 1)) herr rfl (brReadBit_reading hfree h hlt)
    obtain ⟨r, hr⟩ := ih (s := { s with res := boolWord s.cmp.delivered[k] }) herr hfree h (k := k + 1)
      (by rw [Nat.add_assoc, Nat.add_comm 1 m]; exact hk)
    rw [List.drop_eq_getElem_cons hlt, List.map_cons]
    exact ⟨r, .cons hread hr⟩

/-- All the bits that `CMP` delivers. -/
theorem State.reading_delivers_all :
    ∃ r, (s.reading 0).Delivers (s.cmp.delivered.map boolWord)
      ({ s with res := r }.reading s.cmp.delivered.length) := by
  have hall := State.reading_delivers herr hfree h (k := 0) (m := s.cmp.delivered.length) (by rw [Nat.zero_add])
  rwa [List.drop_zero] at hall

end

/-- `BR.OPEN` on four bytes or more opens the reader, some value in `RES`. -/
theorem exec_brOpen_reading {s : State} (hidle : s.Idle) (hfree : s.FaultFree) (h : 4 ≤ s.cmp.len.toNat) :
    ∃ v, exec .brOpen s = .next ({ s with res := v }.reading 0) :=
  ⟨BitVec.ofNat 32 s.cmp.announced, by
    rw [exec_done (i := .brOpen) hidle.noFault (acceptable_of_idle hidle (by simp)) (brOpenRun_reading hfree h),
      State.reading_setRes]⟩

/-- `BR.OPEN` on any `CMP`: what the reads after it deliver, and that the stream has then ended. -/
theorem exec_brOpen_delivers {s : State} (hidle : s.Idle) (hfree : s.FaultFree) :
    ∃ t u, exec .brOpen s = .next t ∧ t.err = none ∧ t.Delivers (s.cmp.delivered.map boolWord) u ∧
      u.Ended s.cmp.short ∧ u.cmp = s.cmp := by
  have hacc : acceptable .brOpen s = true := acceptable_of_idle hidle (by simp)
  by_cases h : s.cmp.len.toNat < 4
  · have hnone : s.cmp.delivered = [] := by simp [Space.delivered, h]
    have hshort : s.cmp.short = true := by simp [Space.short, h]
    rw [hnone, hshort]
    exact ⟨_, _, exec_done hidle.noFault hacc (brOpenRun_tooShort hfree h), hidle.noFault, .nil _,
      ⟨hidle.noFault, rfl, .inl ⟨rfl, rfl⟩⟩, rfl⟩
  · have h4 : 4 ≤ s.cmp.len.toNat := Nat.le_of_not_lt h
    obtain ⟨v, hopen⟩ := exec_brOpen_reading hidle hfree h4
    obtain ⟨r, hr⟩ := State.reading_delivers_all (s := { s with res := v }) hidle.noFault hfree h4
    exact ⟨_, _, hopen, hidle.noFault, hr, State.reading_ended (s := { s with res := r }) hidle.noFault h4, rfl⟩

/-- Settles O48: `exec_brOpen_delivers`, then `EOS` from `State.Ended`. -/
theorem readerDeliversAnyStream : Obligations.ReaderDeliversAnyStream := by
  unfold Obligations.ReaderDeliversAnyStream
  intro s k hidle hfree
  obtain ⟨t, u, hopen, herr, hbits, hended, hcmp⟩ := exec_brOpen_delivers hidle hfree
  obtain ⟨v, heos⟩ := hended.delivers k
  have hresults := (hbits.append heos).readResults_eq
  have hcommands := (hbits.append (hended.delivers_succ k)).commands_eq
  rw [List.length_append, List.length_map, List.length_replicate] at hresults hcommands
  exact ⟨t, hopen, herr, hresults, _, hcommands, rfl, hcmp⟩

end Sys2Proof.Machine
end

section
/-! PROOFS. Command words, the step that runs them, and the commands that are not accepted: O1, O2, O3, O4, O5, O13. -/

namespace Sys2Proof.Machine

/-! ### Command words (R90, R93, R94) -/

theorem decode_encode (i : Instr) : decode (encode i) = .instr i := by
  cases i with
  | bwWrite b => cases b <;> decide
  | _ => decide

/-- Settles O1, by the rows of the opcode table. -/
theorem encodedCommandsDecodeBack : Obligations.EncodedCommandsDecodeBack := by
  unfold Obligations.EncodedCommandsDecodeBack
  exact fun i _ => decode_encode i

/-- Settles O2: a row of the table is its command's opcode, and no bit stands above the opcode field. -/
theorem decodedWordsAreTheTable : Obligations.DecodedWordsAreTheTable := by
  unfold Obligations.DecodedWordsAreTheTable
  exact fun _ _ => eq_encode_of_decode

/-- Settles O4, by evaluation of the decoder. -/
theorem writtenOutWordsDecode : Obligations.WrittenOutWordsDecode := by
  unfold Obligations.WrittenOutWordsDecode
  decide

/-- The words of R94: a reserved opcode, or a bit above the opcode field. -/
def IllegalWord (w : Word) : Prop :=
  w.toNat = 0 ∨ (0x03 ≤ w.toNat ∧ w.toNat ≤ 0x0F) ∨ (0x11 ≤ w.toNat ∧ w.toNat ≤ 0x1F) ∨
    (0x29 ≤ w.toNat ∧ w.toNat ≤ 0x2F) ∨ (0x32 ≤ w.toNat ∧ w.toNat ≤ 0x3F) ∨ (0x47 ≤ w.toNat ∧ w.toNat ≤ 0x4F) ∨
    (0x51 ≤ w.toNat ∧ w.toNat ≤ 0x5F) ∨ (0x61 ≤ w.toNat ∧ w.toNat ≤ 0xFF) ∨ upperField w ≠ 0#24

/-- No command's word is among them. -/
theorem not_illegalWord_encode (i : Instr) : ¬ IllegalWord (encode i) := by
  unfold IllegalWord
  cases i with
  | bwWrite b => cases b <;> decide
  | _ => decide

theorem issueCommand_illegalWord {s : State} {w : Word} (herr : s.err = none) (hw : IllegalWord w) :
    issueCommand w s = .next (s.raiseFault .illegalCommand) := by
  rcases issueCommand_eq w s with ⟨i, hd, -⟩ | ⟨r, -, h⟩
  · exact absurd (eq_encode_of_decode hd ▸ hw) (not_illegalWord_encode i)
  · rw [h, rejectWord, herr]
    rfl

/-- Settles O3: such a word is no command's, and a word that is no command's is rejected by a raise. -/
theorem reservedWordsRaiseIllegalCommand : Obligations.ReservedWordsRaiseIllegalCommand := by
  unfold Obligations.ReservedWordsRaiseIllegalCommand
  intro s w rest herr hhost hw
  refine ⟨_, (step_cons hhost).trans (issueCommand_illegalWord (s := { s with host := rest }) herr hw), rfl, ?_⟩
  simp [herr]

/-! ### The step (R105, R106, R235) -/

theorem perform_writeCmd {s : State} {w : Word} {i : Instr} (h : decode w = .instr i) :
    perform (.writeReg .cmd w) s = exec i s := by
  change issueCommand w s = exec i s
  rw [issueCommand, h]

/-- Settles O5: a step performs the oldest action, and a write to `CMD` runs what its word decodes to. -/
theorem stepRunsTheDecodedCommand : Obligations.StepRunsTheDecodedCommand := by
  unfold Obligations.StepRunsTheDecodedCommand
  refine ⟨fun s w i rest hhost h => ?_, fun s w i h => ?_, fun s => step_nil, fun i a b c => ⟨rfl, rfl, rfl, rfl⟩,
    fun bs => rfl⟩
  · rw [step_cons hhost, perform_writeCmd h]
  · have hword : decode (BitVec.ofNat 32 (w % 2 ^ 32)) = .instr i := by
      rw [show BitVec.ofNat 32 (w % 2 ^ 32) = BitVec.ofNat 32 w from BitVec.eq_of_toNat_eq (by simp), h]
    exact (step_cons (State.withFetchWord_host s 32 w)).trans (perform_writeCmd hword)

/-! ### Commands that are not accepted (R92, R235) -/

/-- Operands that pass their checks pass each of them (R92). -/
theorem legal_of_legalAll {s : State} {tys : List OperandType} {vs : List Word} (h : legalAll s tys vs = true) {n : Nat}
    {ty : OperandType} {v : Word} (hty : tys[n]? = some ty) (hv : vs[n]? = some v) : ty.legal s v = true := by
  induction tys generalizing vs n with
  | nil => simp at hty
  | cons t tys ih =>
    cases vs with
    | nil => simp at hv
    | cons x vs =>
      obtain ⟨hfirst, hrest⟩ := Bool.and_eq_true_iff.mp h
      cases n with
      | zero =>
        cases hty
        cases hv
        exact hfirst
      | succ n => exact ih hrest hty hv

section

variable {s : State} {i : Instr}

theorem unacceptable_of_precondition (h : precondition s i = false) : acceptable i s = false := by
  simp [acceptable, h]

/-- Operand `n` of the command fails its check. -/
theorem unacceptable_of_operand (n : Nat) {ty : OperandType} {v : Word} (hty : (operandTypes i)[n]? = some ty)
    (hv : [s.arg0, s.arg1, s.arg2][n]? = some v) (h : ty.legal s v = false) : acceptable i s = false := by
  refine Bool.eq_false_iff.mpr fun hacc => ?_
  rw [legal_of_legalAll (acceptable_iff.mp hacc).1 hty hv] at h
  cases h

theorem illegal_node {v : Word} (h : s.node? v = none) : OperandType.node.legal s v = false := by
  simp [OperandType.legal, h]

theorem illegal_tree {v : Word} (hnil : v ≠ nilId) (h : s.node? v = none) : OperandType.tree.legal s v = false := by
  simp [OperandType.legal, hnil, h]

theorem illegal_sym {v : Word} (h : s.cfg.nsym ≤ v.toNat) : OperandType.sym.legal s v = false := by
  simp [OperandType.legal, h]

/-- `TREE.SYM` is for leaves (R144, R235). -/
theorem precondition_treeSym_inner {l r : NodeId} {w : Word} (h : s.node? s.arg0 = some (.inner l r w)) :
    precondition s .treeSym = false := by
  simp [precondition, State.isLeaf, h, Node.isLeaf]

theorem precondition_writer (hi : i ∈ [Instr.bwWrite false, .bwWrite true, .bwClose]) :
    precondition s i = s.bwOpen := by
  simp only [List.mem_cons, List.not_mem_nil, or_false] at hi
  rcases hi with rfl | rfl | rfl <;> rfl

theorem precondition_reader (hi : i ∈ [Instr.brRead, .brClose]) : precondition s i = s.brOpen := by
  simp only [List.mem_cons, List.not_mem_nil, or_false] at hi
  rcases hi with rfl | rfl <;> rfl

end

/-- Settles O13: each of these commands fails an operand check or its precondition. -/
theorem unacceptableCommandsRaiseIllegalCommand : Obligations.UnacceptableCommandsRaiseIllegalCommand := by
  unfold Obligations.UnacceptableCommandsRaiseIllegalCommand
  intro s herr
  have hnode : ∀ i ∈ [Instr.treeIsLeaf, .treeSym, .treeLeft, .treeRight, .treeWeight],
      (operandTypes i)[0]? = some .node := by decide
  have htree : ∀ i ∈ [Instr.treeNode, .treeSize, .treeEq, .cbDerive, .decRun],
      (operandTypes i)[0]? = some .tree := by decide
  have htree' : ∀ i ∈ [Instr.treeNode, .treeEq], (operandTypes i)[1]? = some .tree := by decide
  refine ⟨fun i hi h => ?_, fun i hi h => ?_, fun i hi h => ?_, fun i hi h => ?_, fun l r w h => ?_,
    fun i hi hnil h => ?_, fun i hi hnil h => ?_, fun h => ?_⟩ <;> refine exec_unacceptable herr ?_
  · exact unacceptable_of_open h hi
  · exact unacceptable_of_precondition ((precondition_writer hi).trans h)
  · exact unacceptable_of_precondition ((precondition_reader hi).trans h)
  · exact unacceptable_of_operand 0 (hnode i hi) rfl (illegal_node h)
  · exact unacceptable_of_precondition (precondition_treeSym_inner h)
  · exact unacceptable_of_operand 0 (htree i hi) rfl (illegal_tree hnil h)
  · exact unacceptable_of_operand 1 (htree' i hi) rfl (illegal_tree hnil h)
  · exact unacceptable_of_operand 0 rfl rfl (illegal_sym h)

end Sys2Proof.Machine
end

section
/-! PROOFS. What a finalized stream delivers, and the commands of the bit reader: O43, O44, O45, O47. -/

namespace Sys2Proof.Machine

/-! ### A finalized stream read back (R98, R99) -/

/-- The four bytes of the count, big-endian, give it back. -/
theorem be32_toNat {n : Word} {b0 b1 b2 b3 : Byte} (h : be32 n = [b0, b1, b2, b3]) :
    b0.toNat * 2 ^ 24 + b1.toNat * 2 ^ 16 + b2.toNat * 2 ^ 8 + b3.toNat = n.toNat := by
  have hlt := n.isLt
  simp only [be32, List.cons.injEq, and_true] at h
  obtain ⟨rfl, rfl, rfl, rfl⟩ := h
  simp only [BitVec.extractLsb'_toNat, Nat.shiftRight_eq_div_pow]
  omega

section

variable {sp : Space Byte} {bits : Bits} (h : sp.IsStream bits)

include h

theorem Space.IsStream.announced_eq : sp.announced = bits.length := by
  have hcount : be32 (BitVec.ofNat 32 bits.length) =
      [sp.read 0#8 0, sp.read 0#8 1, sp.read 0#8 2, sp.read 0#8 3] := by
    refine List.ext_getElem? fun a => ?_
    by_cases ha : a < 4
    · rw [← h.prefixOk a ha]
      obtain rfl | rfl | rfl | rfl : a = 0 ∨ a = 1 ∨ a = 2 ∨ a = 3 := by omega
      · rfl
      · rfl
      · rfl
      · rfl
    · rw [List.getElem?_eq_none (by rw [be32_length]; omega), List.getElem?_eq_none (by simpa using ha)]
  have hfits : bits.length < 2 ^ 32 := by simpa [wordMax, Nat.lt_succ_iff] using h.countFits
  rw [Space.announced, be32_toNat hcount, BitVec.toNat_ofNat, Nat.mod_eq_of_lt hfits]

theorem Space.IsStream.announced_le_available : sp.announced ≤ sp.available := by
  have hlen := h.length
  rw [h.announced_eq, Space.available]
  omega

/-- The payload is what the stream delivers, its padding is not (R131). -/
theorem Space.IsStream.delivered_eq : sp.delivered = bits := by
  have hlen := h.length
  have hcount : sp.delivered.length = bits.length := by
    rw [Space.delivered_length (by omega), Nat.min_eq_left h.announced_le_available, h.announced_eq]
  refine List.ext_getElem hcount fun k hk hbits => ?_
  rw [Space.delivered_getElem (by omega), h.payload (k / 8) (k % 8) (by omega) (by omega), Nat.div_add_mod,
    List.getD_eq_getElem?_getD, List.getElem?_eq_getElem hbits, Option.getD_some]

theorem Space.IsStream.short_eq : sp.short = false := by
  have hlen := h.length
  have hcount := h.announced_le_available
  simp [Space.short, hcount, show 4 ≤ sp.len.toNat by omega]

end

/-- At the end of a stream that is not short `BR_SHORT` is 0, and stays it (R128). -/
theorem State.Ended.delivers_notShort {s : State} (h : s.Ended false) (k : Nat) :
    ∃ u, s.Delivers (List.replicate k eosWord) u ∧ u.brShort = false ∧ u.err = none := by
  cases k with
  | zero =>
    rcases h.atEnd with ⟨-, hshort⟩ | ⟨-, -, -, hfalse⟩
    · exact ⟨s, .nil s, hshort, h.noFault⟩
    · cases hfalse
  | succ k => exact ⟨_, h.delivers_succ k, rfl, h.noFault⟩

/-- Settles O47: the close leaves a stream, and a stream delivers its payload and is not short. -/
theorem bitsReadBackInOrder : Obligations.BitsReadBackInOrder := by
  unfold Obligations.BitsReadBackInOrder
  intro s bits k hinv hidle hfree hlen
  have hstream : (s.streamCmp bits).IsStream bits := State.streamCmp_isStream hinv.cmpOk hlen
  obtain ⟨t, u, hopen, herr, hbits, hended, -⟩ :=
    exec_brOpen_delivers (s := { s.closed bits with res := BitVec.ofNat 32 bits.length })
      ⟨hidle.noFault, rfl, hidle.noReader⟩ hfree
  rw [show (s.closed bits).cmp = s.streamCmp bits from rfl, hstream.delivered_eq] at hbits
  rw [show (s.closed bits).cmp = s.streamCmp bits from rfl, hstream.short_eq] at hended
  obtain ⟨v, heos, hshort, hverr⟩ := hended.delivers_notShort k
  have hresults := (hbits.append heos).readResults_eq
  have hcommands := (hbits.append heos).commands_eq
  rw [List.length_append, List.length_map, List.length_replicate] at hresults hcommands
  refine ⟨t, ?_, herr, hresults, v, hcommands, hshort, hverr⟩
  rw [show ([.bwClose, .brOpen] : List Instr) = [.bwClose] ++ [.brOpen] from rfl, ← List.append_assoc,
    commands_append, commands_writeStream hidle hfree hlen, Option.bind_some, commands_cons hopen]
  rfl

/-! ### `BR.OPEN` (R126, R127) -/

section

variable {s : State}

theorem openRead_ok (h : s.env.headD .ok = .ok) : openRead s = .done () { s with env := s.env.tail } := by
  simp [openRead, ask_ok h]

theorem readCmp_ok (h : s.env.headD .ok = .ok) (a : Nat) :
    readCmp a s = .done (s.cmp.read 0#8 a) { s with env := s.env.tail } := by
  simp [readCmp, ask_ok h]

/-- The count is read up to the byte whose access fails. -/
theorem readPrefix_failed {as : List Nat} {n : Nat} (hn : n < as.length) (acc : Word) {left : Symbol}
    {rest : List Answer} (h : s.env = List.replicate n .ok ++ .ioerr left :: rest) :
    readPrefix as acc s = .raised .sourceCorrupt { s with env := rest } := by
  induction as generalizing n acc s with
  | nil => simp at hn
  | cons a as ih =>
    rw [readPrefix]
    cases n with
    | zero => rw [readCmp_failed h, Run.andThen_raised]
    | succ n =>
      rw [readCmp_ok (by simp [h, List.replicate_succ]), Run.andThen_done,
        ih (n := n) (by simpa using hn) _ (by simp [h, List.replicate_succ])]

theorem brOpenRun_failedPrefix {n : Nat} (hn : n < 4) (hlen : 4 ≤ s.cmp.len.toNat) {left : Symbol}
    {rest : List Answer} (h : s.env = List.replicate (n + 1) .ok ++ .ioerr left :: rest) :
    brOpenRun s = .raised .sourceCorrupt { s with
      env := rest
      brOpen := true
      brShort := false
      brBuf := 0#8
      brNbuf := 0#4
      brRem := 0#32
      brPtr := 0#32 } := by
  rw [brOpenRun, openRead_ok (by simp [h, List.replicate_succ]), Run.andThen_done]
  simp only [if_neg (Nat.not_lt.mpr hlen)]
  rw [readPrefix_failed (as := [0, 1, 2, 3]) hn 0#32 (left := left) (rest := rest) (by simp [h, List.replicate_succ]),
    Run.andThen_raised]

/-- Idle, a `BR.OPEN` that raises has opened no writer, so the raise drops the reader only. -/
theorem exec_brOpen_raised (hidle : s.Idle) {t : State} {k : FaultKind} (hrun : brOpenRun s = .raised k t) :
    exec .brOpen s = .next { t with err := some k, brOpen := false } := by
  have hframe : ReaderOnly s t := by simpa [hrun] using brOpenRun_frame s
  have herr : t.err = none := by rw [hframe]; exact hidle.noFault
  have hshut : t.bwOpen = false := by rw [hframe]; exact hidle.noWriter
  rw [exec_raised (i := .brOpen) hidle.noFault (acceptable_of_idle hidle (by simp)) hrun,
    State.raiseFault_noWriter k hshut, herr]
  rfl

end

/-- Settles O43: the open reads the announced count if there is one, or stops at the access that fails. -/
theorem brOpenReadsThePrefix : Obligations.BrOpenReadsThePrefix := by
  unfold Obligations.BrOpenReadsThePrefix
  refine ⟨by decide, fun s herr => ⟨fun hopen => ?_, fun hidle hfree hlen => ?_, fun hidle hfree hlen => ⟨?_, ?_⟩,
    fun left rest hidle h => ?_, fun n left rest hidle hn hlen h => ?_⟩⟩
  · exact exec_unacceptable herr (unacceptable_of_open hopen (by simp))
  · exact exec_done (i := .brOpen) herr (acceptable_of_idle hidle (by simp)) (brOpenRun_tooShort hfree hlen)
  · exact exec_done (i := .brOpen) herr (acceptable_of_idle hidle (by simp)) (brOpenRun_reading hfree hlen)
  · exact s.cmp.announced_lt
  · rw [exec_brOpen_raised hidle (brOpenRun_failedOpen h), ← hidle.noReader]
  · rw [exec_brOpen_raised hidle (brOpenRun_failedPrefix hn hlen h), ← hidle.noReader]

/-! ### `BR.READ` and `BR.CLOSE` (R128 to R130) -/

/-- With a reader open its commands are accepted (R235). -/
theorem acceptable_of_readerOpen {i : Instr} {s : State} (hs : s.brOpen = true) (hi : i ∈ [Instr.brRead, .brClose]) :
    acceptable i s = true := by
  have hpre := (precondition_reader hi).trans hs
  simp only [List.mem_cons, List.not_mem_nil, or_false] at hi
  rcases hi with rfl | rfl <;> exact hpre

theorem unacceptable_of_readerShut {i : Instr} {s : State} (hs : s.brOpen = false)
    (hi : i ∈ [Instr.brRead, .brClose]) : acceptable i s = false :=
  unacceptable_of_precondition ((precondition_reader hi).trans hs)

/-- A delivered bit is the top bit of the buffer (R128). -/
theorem exec_brRead_deliver {s t : State} (herr : s.err = none) (hopen : s.brOpen = true)
    (h : brReadBit s = brDeliver t) :
    exec .brRead s = .next { t with
      brBuf := t.brBuf <<< 1
      brNbuf := t.brNbuf - 1#4
      brRem := t.brRem - 1#32
      res := if t.brBuf.getLsbD 7 then 1#32 else 0#32 } := by
  rw [exec_brRead_done herr hopen h, BitVec.msb_eq_getLsbD_last]
  rfl

theorem brReadBit_failed {s : State} (hrem : s.brRem ≠ 0#32) (hbuf : s.brNbuf = 0#4)
    (hptr : s.brPtr.toNat < s.cmp.len.toNat) {left : Symbol} {rest : List Answer} (h : s.env = .ioerr left :: rest) :
    brReadBit s = .raised .sourceCorrupt { s with env := rest } := by
  rw [brReadBit, if_neg hrem, if_pos hbuf, if_neg (Nat.not_le.mpr hptr), readCmp_failed h, Run.andThen_raised]

/-- Settles O44: the ends of the stream, the next bit from the buffer or from the next byte, and the failing read. -/
theorem brReadDeliversTheNextBit : Obligations.BrReadDeliversTheNextBit := by
  unfold Obligations.BrReadDeliversTheNextBit
  refine ⟨by decide, fun s herr => ⟨fun hshut => ?_, fun hopen hrem => ?_, fun hopen hrem hbuf hptr => ?_,
    fun hopen hrem hbuf => ?_, fun hopen hrem hbuf hptr hfree => ?_, fun left rest hopen hrem hbuf hptr h => ?_⟩⟩
  · exact exec_unacceptable herr (unacceptable_of_readerShut hshut (by simp))
  · exact exec_brRead_done herr hopen (brReadBit_atCount hrem)
  · exact exec_brRead_done herr hopen (brReadBit_atLength hrem hbuf hptr)
  · exact exec_brRead_deliver herr hopen (brReadBit_buffered hrem hbuf)
  · simp [exec_brRead_deliver herr hopen (brReadBit_nextByte hfree hrem hbuf hptr)]
  · refine exec_raised herr (acceptable_of_readerOpen hopen (by simp)) ?_
    simp [body, brReadBit_failed hrem hbuf hptr h]

/-- Settles O45: the close releases the reader. -/
theorem brCloseReleasesTheReader : Obligations.BrCloseReleasesTheReader := by
  unfold Obligations.BrCloseReleasesTheReader
  exact ⟨by decide, fun s herr =>
    ⟨fun hshut => exec_unacceptable herr (unacceptable_of_readerShut hshut (by simp)),
      fun hopen => exec_done (i := .brClose) herr (acceptable_of_readerOpen hopen (by simp)) rfl⟩⟩

end Sys2Proof.Machine
end

section
/-! PROOFS. The bit writer's commands, and what its two closes make of `CMP`, from any state of the writer: O10, O41,
O42. -/

namespace Sys2Proof.Machine

/-! ### Bytes written anywhere (R61, R124, R133) -/

section

variable {s : State}

/-- The length covers the cells written, appended or overwritten. -/
theorem Space.overwrite_len_max {α : Type} [DecidableEq α] {d : α} (vs : List α) {a : Nat} {sp : Space α}
    (ha : a ≤ sp.len.toNat) (hfits : a + vs.length < 2 ^ 32) :
    (sp.overwrite d a vs).len.toNat = max sp.len.toNat (a + vs.length) := by
  induction vs generalizing a sp with
  | nil => exact (Nat.max_eq_left ha).symm
  | cons v vs ih =>
    rw [List.length_cons] at hfits ⊢
    have hput : (sp.put d a v).len.toNat = max sp.len.toNat (a + 1) := by
      rcases Nat.eq_or_lt_of_le ha with rfl | hlt
      · rw [Space.put_atLen (by omega)]
        omega
      · rw [Space.put_len, if_neg (by omega)]
        omega
    rw [Space.overwrite, ih (by omega) (by omega), hput]
    omega

/-- Below the largest address no write is the append whose increment does not fit (R9). -/
theorem not_appendAtMaximum {a : Nat} {len : Word} (ha : a + 1 < 2 ^ 32) : ¬ (a = len.toNat ∧ len = wordMax) :=
  fun ⟨heq, hmax⟩ => by
    rw [hmax, wordMax, BitVec.toNat_ofNat] at heq
    omega

/-- In a fault-free environment bytes that end below the largest address are written wherever the length is. -/
theorem writeCmpBytes_faultFree (vs : List Byte) {a : Nat} (hfree : s.FaultFree) (hfits : a + vs.length < 2 ^ 32) :
    writeCmpBytes a vs s = .done () { s with cmp := s.cmp.overwrite 0#8 a vs } := by
  induction vs generalizing a s with
  | nil => rfl
  | cons v vs ih =>
    rw [List.length_cons] at hfits
    rw [writeCmpBytes, writeCmp_faultFree hfree v (not_appendAtMaximum (by omega)), Run.andThen_done,
      ih (s := { s with cmp := s.cmp.put 0#8 a v }) hfree (by omega)]
    rfl

/-- Bytes are written up to the one whose access fails. -/
theorem writeCmpBytes_failsAt {vs : List Byte} {a n : Nat} (hn : n < vs.length) (hfits : a + vs.length < 2 ^ 32)
    {left : Symbol} {rest : List Answer} (h : s.env = List.replicate n .ok ++ .ioerr left :: rest) :
    ∃ c, writeCmpBytes a vs s = .raised .sinkCorrupt { s with env := rest, cmp := c } := by
  induction vs generalizing a n s with
  | nil => simp at hn
  | cons v vs ih =>
    rw [List.length_cons] at hn hfits
    rw [writeCmpBytes]
    cases n with
    | zero => exact ⟨_, by rw [writeCmp_failed h, Run.andThen_raised]⟩
    | succ n =>
      have hroom : ¬ (a = s.cmp.len.toNat ∧ s.cmp.len = wordMax) := not_appendAtMaximum (by omega)
      obtain ⟨c, hc⟩ := ih (s := { s with env := s.env.tail, cmp := s.cmp.put 0#8 a v }) (a := a + 1) (n := n)
        (by omega) (by omega) (by simp [h, List.replicate_succ])
      exact ⟨c, by rw [writeCmp_ok (by simp [h, List.replicate_succ]) v hroom, Run.andThen_done, hc]⟩

/-- Where no answer is to be ignored, ignoring them changes nothing. -/
theorem writeCmpBytesQuiet_of_done {vs : List Byte} {a : Nat} {t : State} (h : writeCmpBytes a vs s = .done () t) :
    writeCmpBytesQuiet a vs s = t := by
  induction vs generalizing a s with
  | nil => cases h; rfl
  | cons v vs ih =>
    rw [writeCmpBytes, Run.andThen_eq_done] at h
    obtain ⟨_, s1, hwrite, hrest⟩ := h
    rw [writeCmpBytesQuiet, hwrite, Run.state_done, ih hrest]

end

/-! ### `BW.WRITE` (R122, R123) -/

section

variable {s : State} {b : Bool}

theorem unacceptable_of_writerShut {i : Instr} (hs : s.bwOpen = false)
    (hi : i ∈ [Instr.bwWrite false, .bwWrite true, .bwClose]) : acceptable i s = false :=
  unacceptable_of_precondition ((precondition_writer hi).trans hs)

/-- The writer with the eighth bit of a byte in the buffer, the byte not yet appended. -/
def State.eighthBit (s : State) (b : Bool) : State :=
  { s with bwBuf := setBit s.bwBuf 0 b, bwTotal := s.bwTotal + 1#32 }

theorem bwWriteBit_atMaximum (htotal : s.bwTotal = wordMax) : bwWriteBit b s = .raised .capacityExceeded s :=
  if_pos htotal

/-- The eighth bit raises what the append of its byte raises. -/
theorem bwWriteBit_raised {k : FaultKind} {u : State} (htotal : s.bwTotal ≠ wordMax) (hbuf : s.bwNbuf = 7#3)
    (h : writeCmp s.cmp.len.toNat (setBit s.bwBuf 0 b) (s.eighthBit b) = .raised k u) :
    bwWriteBit b s = .raised k u := by
  simp only [bwWriteBit, if_neg htotal, if_pos hbuf]
  rw [show 7 - s.bwNbuf.toNat = 0 by rw [hbuf]; rfl]
  exact congrArg (Run.andThen · _) h

section

variable (herr : s.err = none) (hopen : s.bwOpen = true)

include herr hopen

theorem exec_bwWrite_done {t : State} (h : bwWriteBit b s = .done () t) :
    exec (.bwWrite b) s = .next { t with res := 0#32 } :=
  exec_done herr (acceptable_of_writerOpen hopen (by cases b <;> simp)) (by simp [body, h])

theorem exec_bwWrite_raised {k : FaultKind} {u : State} (h : bwWriteBit b s = .raised k u) :
    exec (.bwWrite b) s = .next (u.raiseFault k) :=
  exec_raised herr (acceptable_of_writerOpen hopen (by cases b <;> simp)) (by simp [body, h])

end

end

/-- Settles O41: seven bits go to the buffer, the eighth with its byte to `CMP`, or a raise. -/
theorem bwWriteBuffersAndFlushes : Obligations.BwWriteBuffersAndFlushes := by
  unfold Obligations.BwWriteBuffersAndFlushes
  refine ⟨by decide, by decide, fun v i j b _ hj => setBit_getLsbD v b hj, fun s b hinv herr =>
    ⟨fun hshut => ?_, fun hopen htotal => ?_, fun hopen htotal hbuf => ?_, fun hopen htotal hbuf hlen hfree => ?_,
      fun left rest hopen htotal hbuf h => ?_⟩⟩
  · exact exec_unacceptable herr (unacceptable_of_writerShut hshut (by cases b <;> simp))
  · exact exec_bwWrite_raised herr hopen (bwWriteBit_atMaximum htotal)
  · exact exec_bwWrite_done herr hopen (bwWriteBit_buffered b htotal hbuf)
  · have hcells := hinv.cmpOk.canonical
    refine ⟨_, exec_bwWrite_done herr hopen (bwWriteBit_flushed hfree b htotal hbuf hlen), rfl, if_pos rfl, ?_,
      fun a ha => ?_⟩
    · exact (Space.read_put hcells _ _ _).trans (if_pos rfl)
    · exact (Space.read_put hcells _ _ _).trans (if_neg (Ne.symm ha))
  · have happend := writeCmp_failed (s := s.eighthBit b) h s.cmp.len.toNat (setBit s.bwBuf 0 b)
    exact ⟨_, exec_bwWrite_raised herr hopen (bwWriteBit_raised htotal hbuf happend), rfl, rfl,
      fun a ha => Space.read_store_other hinv.cmpOk.canonical ha _⟩

/-! ### `CMP` after a close (R124, R133) -/

/-- `CMP` with the partial byte appended, if there is one; at the largest length the byte is stored and the length
kept (log entries 9 and 10). -/
def State.flushCmp (s : State) : Space Byte :=
  if s.bwNbuf = 0#3 then s.cmp
  else if s.cmp.len = wordMax then s.cmp.store 0#8 s.cmp.len.toNat s.bwBuf
  else s.cmp.put 0#8 s.cmp.len.toNat s.bwBuf

/-- The writer after a flush of the partial byte. -/
def State.afterFlush (s : State) : State :=
  { s with cmp := s.flushCmp, bwBuf := if s.bwNbuf = 0#3 then s.bwBuf else 0#8, bwNbuf := 0#3 }

/-- `CMP` after a flush, with the count written over its first four bytes. -/
def State.finalCmp (s : State) : Space Byte := s.flushCmp.overwrite 0#8 0 (be32 s.bwTotal)

section

variable {s : State}

/-- With no bit in the buffer there is nothing to flush. -/
theorem State.afterFlush_empty (hbuf : s.bwNbuf = 0#3) : s.afterFlush = s := by
  rw [State.afterFlush, State.flushCmp, if_pos hbuf, if_pos hbuf, ← hbuf]

theorem State.flushCmp_len :
    s.flushCmp.len.toNat = s.cmp.len.toNat + (if s.bwNbuf = 0#3 ∨ s.cmp.len = wordMax then 0 else 1) := by
  unfold State.flushCmp
  by_cases hbuf : s.bwNbuf = 0#3
  · simp [hbuf]
  by_cases hfull : s.cmp.len = wordMax
  · simp [hbuf, hfull]
  · have hmax : s.cmp.len.toNat ≠ wordMax.toNat := fun h => hfull (BitVec.eq_of_toNat_eq h)
    have hlt := s.cmp.len.isLt
    rw [wordMax, BitVec.toNat_ofNat] at hmax
    rw [if_neg hbuf, if_neg hfull, if_neg (by simp [hbuf, hfull]), Space.put_atLen (by omega)]

theorem State.finalCmp_len :
    s.finalCmp.len.toNat =
      max 4 (s.cmp.len.toNat + (if s.bwNbuf = 0#3 ∨ s.cmp.len = wordMax then 0 else 1)) := by
  rw [State.finalCmp, Space.overwrite_len_max _ (Nat.zero_le _) (by simp), State.flushCmp_len, be32_length,
    Nat.zero_add, Nat.max_comm]

section

variable (hok : ByteSpaceOk s.cmp)

include hok

theorem State.flushCmp_wf : Memory.wf 0#8 s.flushCmp.cells = true := by
  unfold State.flushCmp
  split
  · exact hok.canonical
  · split
    · exact Memory.wf_set hok.canonical _ _
    · exact Memory.wf_set hok.canonical _ _

/-- The partial byte is in the cell at the length. -/
theorem State.read_flushCmp_atLen (hbuf : s.bwNbuf ≠ 0#3) : s.flushCmp.read 0#8 s.cmp.len.toNat = s.bwBuf := by
  rw [State.flushCmp, if_neg hbuf]
  split
  · rw [Space.read_store hok.canonical, if_pos rfl]
  · rw [Space.read_put hok.canonical, if_pos rfl]

theorem State.read_flushCmp_other {a : Nat} (ha : s.bwNbuf = 0#3 ∨ a ≠ s.cmp.len.toNat) :
    s.flushCmp.read 0#8 a = s.cmp.read 0#8 a := by
  unfold State.flushCmp
  split
  · rfl
  · next hbuf =>
    have hne := ha.resolve_left hbuf
    split
    · exact Space.read_store_other hok.canonical hne _
    · rw [Space.read_put hok.canonical, if_neg (Ne.symm hne)]

/-- The first four bytes are the count. -/
theorem State.read_finalCmp_count {a : Nat} (ha : a < 4) : some (s.finalCmp.read 0#8 a) = (be32 s.bwTotal)[a]? := by
  have hget : (be32 s.bwTotal)[a]? = some _ := List.getElem?_eq_getElem (by simpa using ha)
  rw [State.finalCmp, Space.read_overwrite _ (State.flushCmp_wf hok), if_pos (Nat.zero_le a), Nat.sub_zero, hget,
    Option.getD_some]

/-- The bytes above the count are those of the flush. -/
theorem State.read_finalCmp_above {a : Nat} (ha : 4 ≤ a) : s.finalCmp.read 0#8 a = s.flushCmp.read 0#8 a := by
  rw [State.finalCmp, Space.read_overwrite _ (State.flushCmp_wf hok), if_pos (Nat.zero_le a),
    List.getElem?_eq_none (by simpa using ha), Option.getD_none]

end

/-! ### The two closes (R124, R133) -/

/-- The close raises what the flush of the partial byte raises. -/
theorem bwCloseRun_raised {k : FaultKind} {u : State} (hbuf : s.bwNbuf ≠ 0#3)
    (h : writeCmp s.cmp.len.toNat s.bwBuf s = .raised k u) : bwCloseRun s = .raised k u := by
  rw [bwCloseRun, bwFlush, if_neg hbuf, h, Run.andThen_raised, Run.andThen_raised]

/-- Whichever write of the close fails, validity is not claimed and the count is kept. -/
theorem bwCloseRun_failed {n : Nat} (hroom : s.bwNbuf = 0#3 ∨ s.cmp.len ≠ wordMax ∨ n = 0)
    (hn : n < (if s.bwNbuf = 0#3 then 4 else 5)) {left : Symbol} {rest : List Answer}
    (h : s.env = List.replicate n .ok ++ .ioerr left :: rest) :
    ∃ c v m, bwCloseRun s = .raised .sinkCorrupt { s with env := rest, cmp := c, bwBuf := v, bwNbuf := m } := by
  by_cases hbuf : s.bwNbuf = 0#3
  · rw [if_pos hbuf] at hn
    obtain ⟨c, hc⟩ := writeCmpBytes_failsAt (vs := be32 s.bwTotal) (a := 0) hn (by simp) h
    exact ⟨c, s.bwBuf, s.bwNbuf, by rw [bwCloseRun, bwFlush_empty hbuf, Run.andThen_done, hc, Run.andThen_raised]⟩
  · rw [if_neg hbuf] at hn
    cases n with
    | zero => exact ⟨_, s.bwBuf, s.bwNbuf, bwCloseRun_raised hbuf (writeCmp_failed h _ _)⟩
    | succ n =>
      have hlen : s.cmp.len ≠ wordMax := by simpa [hbuf] using hroom
      have hflush := writeCmp_ok (s := s) (by simp [h, List.replicate_succ]) (a := s.cmp.len.toNat) s.bwBuf
        fun hfull => hlen hfull.2
      obtain ⟨c, hc⟩ := writeCmpBytes_failsAt (vs := be32 s.bwTotal) (a := 0) (n := n) (left := left) (rest := rest)
        (s := { s with
          env := s.env.tail
          cmp := s.cmp.put 0#8 s.cmp.len.toNat s.bwBuf
          bwBuf := 0#8
          bwNbuf := 0#3 }) (by rw [be32_length]; omega) (by simp) (by simp [h, List.replicate_succ])
      exact ⟨c, 0#8, 0#3, by
        rw [bwCloseRun, bwFlush, if_neg hbuf, hflush, Run.andThen_done, Run.andThen_done, hc, Run.andThen_raised]⟩

theorem bwCloseQuiet_tooShort (hlen : s.cmp.len.toNat < 4) : bwCloseQuiet s = { s with bwOpen := false } :=
  if_neg (Nat.not_le.mpr hlen)

section

variable (hfree : s.FaultFree)

include hfree

/-- The partial byte reaches `CMP`, whether the increment of the length fits or not. -/
theorem writeCmp_flushCmp (hbuf : s.bwNbuf ≠ 0#3) :
    (writeCmp s.cmp.len.toNat s.bwBuf s).state = { s with cmp := s.flushCmp } := by
  rw [State.flushCmp, if_neg hbuf]
  by_cases hfull : s.cmp.len = wordMax
  · rw [if_pos hfull, writeCmp_faultFree_full hfree _ hfull, Run.state_raised]
  · rw [if_neg hfull, writeCmp_faultFree hfree _ fun h => hfull h.2, Run.state_done]

theorem bwFlush_afterFlush (hroom : s.bwNbuf = 0#3 ∨ s.cmp.len ≠ wordMax) : bwFlush s = .done () s.afterFlush := by
  by_cases hbuf : s.bwNbuf = 0#3
  · rw [bwFlush_empty hbuf, State.afterFlush_empty hbuf]
  · have hlen := hroom.resolve_left hbuf
    rw [bwFlush_partial hfree hbuf hlen, State.afterFlush, State.flushCmp, if_neg hbuf, if_neg hbuf, if_neg hlen]

theorem writeCount_afterFlush :
    writeCmpBytes 0 (be32 s.bwTotal) s.afterFlush = .done () { s.afterFlush with cmp := s.finalCmp } :=
  writeCmpBytes_faultFree _ hfree (by simp)

theorem bwCloseRun_finalCmp (hroom : s.bwNbuf = 0#3 ∨ s.cmp.len ≠ wordMax) :
    bwCloseRun s =
      .done s.bwTotal { s.afterFlush with cmp := s.finalCmp, bwOpen := false, cmpValid := true } := by
  rw [bwCloseRun, bwFlush_afterFlush hfree hroom, Run.andThen_done,
    show s.afterFlush.bwTotal = s.bwTotal from rfl, writeCount_afterFlush hfree, Run.andThen_done]
  rfl

/-- With four bytes in `CMP` the quiet close leaves the same `CMP` as a close, and claims no validity. -/
theorem bwCloseQuiet_finalCmp (hlen : 4 ≤ s.cmp.len.toNat) :
    bwCloseQuiet s = { s.afterFlush with cmp := s.finalCmp, bwOpen := false } := by
  have hflush : (if s.bwNbuf = 0#3 then s
      else { (writeCmp s.cmp.len.toNat s.bwBuf s).state with bwBuf := 0#8, bwNbuf := 0#3 }) = s.afterFlush := by
    by_cases hbuf : s.bwNbuf = 0#3
    · rw [if_pos hbuf, State.afterFlush_empty hbuf]
    · rw [if_neg hbuf, writeCmp_flushCmp hfree hbuf, State.afterFlush, if_neg hbuf]
  simp only [bwCloseQuiet, if_pos hlen, hflush]
  rw [show s.afterFlush.bwTotal = s.bwTotal from rfl, writeCmpBytesQuiet_of_done (writeCount_afterFlush hfree)]
  rfl

/-- Where a close returns, the quiet close does what it does, the valid flag apart. -/
theorem bwCloseQuiet_of_close (hlen : 4 ≤ s.cmp.len.toNat) (hroom : s.bwNbuf = 0#3 ∨ s.cmp.len ≠ wordMax) {v : Word}
    {t : State} (h : bwCloseRun s = .done v t) : bwCloseQuiet s = { t with cmpValid := s.cmpValid } := by
  rw [bwCloseRun_finalCmp hfree hroom] at h
  cases h
  exact bwCloseQuiet_finalCmp hfree hlen

end

end

/-! ### `BW.CLOSE` and the quiet close (R125, R133) -/

section

variable {s : State} (herr : s.err = none) (hopen : s.bwOpen = true)

include herr hopen

theorem exec_bwClose_done {v : Word} {t : State} (h : bwCloseRun s = .done v t) :
    exec .bwClose s = .next { t with res := v } :=
  exec_done herr (acceptable_of_writerOpen hopen (by simp)) h

theorem exec_bwClose_raised {k : FaultKind} {u : State} (h : bwCloseRun s = .raised k u) :
    exec .bwClose s = .next (u.raiseFault k) :=
  exec_raised herr (acceptable_of_writerOpen hopen (by simp)) h

end

/-- Settles O42: fault-free the close leaves `State.finalCmp`, otherwise it raises at the write that fails. -/
theorem bwCloseFinalizesTheStream : Obligations.BwCloseFinalizesTheStream := by
  unfold Obligations.BwCloseFinalizesTheStream
  refine ⟨by decide, fun s hinv herr => ⟨fun hshut => ?_, fun hopen hfree hroom => ?_,
    fun n left rest hopen hroom hn h => ?_⟩⟩
  · exact exec_unacceptable herr (unacceptable_of_writerShut hshut (by simp))
  · have hok := hinv.cmpOk
    refine ⟨_, exec_bwClose_done herr hopen (bwCloseRun_finalCmp hfree hroom), rfl, rfl, ?_,
      fun a => State.read_finalCmp_count hok, fun hbuf hlen => ?_, fun a ha hother => ?_⟩
    · refine State.finalCmp_len.trans ?_
      rcases hroom with h | h <;> simp [h]
    · exact (State.read_finalCmp_above hok hlen).trans (State.read_flushCmp_atLen hok hbuf)
    · exact (State.read_finalCmp_above hok ha).trans (State.read_flushCmp_other hok hother)
  · obtain ⟨c, v, m, hrun⟩ := bwCloseRun_failed hroom hn h
    refine ⟨_, exec_bwClose_raised herr hopen hrun, ?_⟩
    rw [State.raiseFault_frame]
    exact ⟨by simp [herr], rfl, hinv.openNotValid hopen, rfl, rfl⟩

/-- Settles O10: the quiet close leaves `State.finalCmp` too, and an append at the largest length stores its byte. -/
theorem quietCloseFinalizesTheStream : Obligations.QuietCloseFinalizesTheStream := by
  unfold Obligations.QuietCloseFinalizesTheStream
  have hstored : ∀ {s : State}, s.Inv → ∀ v, (s.cmp.store 0#8 s.cmp.len.toNat v).read 0#8 s.cmp.len.toNat = v :=
    fun hinv v => (Space.read_store hinv.cmpOk.canonical _ _ v).trans (if_pos rfl)
  refine ⟨fun s => bwCloseQuiet_tooShort, fun s v hinv hfree hfull => ?_, fun s b hinv hfree herr hopen hfull =>
    ⟨fun htotal hbuf => ?_, fun hbuf => ?_⟩, fun s t hinv hfree hlen ht => ?_⟩
  · exact ⟨_, writeCmp_faultFree_full hfree v hfull, rfl, hfull, hstored hinv v,
      fun a ha => Space.read_store_other hinv.cmpOk.canonical ha v⟩
  · have happend := writeCmp_faultFree_full (s := s.eighthBit b) hfree (setBit s.bwBuf 0 b) hfull
    exact ⟨_, exec_bwWrite_raised herr hopen (bwWriteBit_raised htotal hbuf happend), rfl, hfull, hstored hinv _⟩
  · exact ⟨_, exec_bwClose_raised herr hopen (bwCloseRun_raised hbuf (writeCmp_faultFree_full hfree _ hfull)), rfl,
      hfull, hstored hinv _⟩
  · have hok := hinv.cmpOk
    rw [bwCloseQuiet_finalCmp hfree hlen] at ht
    subst ht
    refine ⟨rfl, ?_, fun a => State.read_finalCmp_count hok, fun hbuf => ?_, fun a ha hother => ?_⟩
    · exact State.finalCmp_len.trans (Nat.max_eq_right (by omega))
    · exact (State.read_finalCmp_above hok hlen).trans (State.read_flushCmp_atLen hok hbuf)
    · exact (State.read_finalCmp_above hok ha).trans (State.read_flushCmp_other hok hother)

end Sys2Proof.Machine
end

section
/-! PROOFS. The encoder at a symbol without a codeword, in a fault-free environment: O51. -/

namespace Sys2Proof.Machine

@[simp] theorem State.symbolsFrom_length (s : State) (i n : Nat) : (s.symbolsFrom i n).length = n := by
  simp [State.symbolsFrom]

theorem State.symbolsFrom_append (s : State) (i m n : Nat) :
    s.symbolsFrom i (m + n) = s.symbolsFrom i m ++ s.symbolsFrom (i + m) n := by
  rw [State.symbolsFrom, ← List.range'_append_1, List.map_append]
  rfl

/-- The symbols before the one at a place of `SRC`, and that one. -/
theorem State.symbolsFrom_of_source {s : State} {before after : List Symbol} {sym : Symbol}
    (h : s.source = before ++ sym :: after) :
    s.src.len.toNat = before.length + (after.length + 1) ∧ s.symbolsFrom 0 before.length = before ∧
      s.src.read 0#16 before.length = sym := by
  rw [State.source_eq_symbolsFrom] at h
  have hlen : s.src.len.toNat = before.length + (after.length + 1) := by simpa using congrArg List.length h
  rw [hlen, State.symbolsFrom_append, Nat.zero_add, State.symbolsFrom_succ] at h
  obtain ⟨hbefore, hrest⟩ := List.append_inj h (State.symbolsFrom_length s 0 before.length)
  exact ⟨hlen, hbefore, (List.cons.inj hrest).1⟩

section

variable {s : State} (hfree : s.FaultFree)

include hfree

/-- The quiet close of a writer of the block's own making leaves the stream, not valid (R133). -/
theorem bwCloseQuiet_writing {bits : Bits} (h : bits.length < 2 ^ 32) :
    bwCloseQuiet (s.writing bits) = { s.closed bits with cmpValid := false } :=
  bwCloseQuiet_of_close (hfree.writing bits) (by rw [State.writing_len h]; omega) (.inr (State.writing_hasRoom h))
    (bwCloseRun_writing hfree h)

/-- The raise of a command with that writer open. -/
theorem State.raiseFault_writing (k : FaultKind) {bits : Bits} (h : bits.length < 2 ^ 32) :
    (s.writing bits).raiseFault k =
      { s.closed bits with err := some (s.err.getD k), cmpValid := false, brOpen := false } := by
  have hclose := bwCloseQuiet_writing (s := { s with err := some (s.err.getD k) }) hfree h
  exact congrArg (fun t : State => { t with brOpen := false }) hclose

/-- The symbol without a codeword stops the encoder before any bit of it (R202). -/
theorem encLoop_unencodable {i : Nat} {bits : Bits} (hcode : s.codeword (s.src.read 0#16 i).toNat = none) (n : Nat) :
    encLoop (n + 1) i (s.writing bits) = .raised .symbolUnencodable (s.writing bits) := by
  rw [encLoop, readSrc_faultFree (hfree.writing bits), Run.andThen_done, show (s.writing bits).src = s.src from rfl,
    encSymbol, show (s.writing bits).codeword (s.src.read 0#16 i).toNat = none from hcode]
  rfl

/-- `enc_run()` up to the first symbol without a codeword (R200, R202). -/
theorem encRun_unencodable {before after : List Symbol} {sym : Symbol} (hsource : s.source = before ++ sym :: after)
    (hcode : ∀ x ∈ before, (s.codeword x.toNat).isSome = true) (hnone : s.codeword sym.toNat = none)
    (h : (s.payload before).length < 2 ^ 32) :
    encRun s = .raised .symbolUnencodable (s.writing (s.payload before)) := by
  obtain ⟨hlen, hbefore, rfl⟩ := State.symbolsFrom_of_source hsource
  have hloop := encLoop_writing hfree (after.length + 1) before.length 0 (bits := []) (by rwa [hbefore])
    (by simpa [hbefore] using h)
  rw [hbefore, List.nil_append, Nat.zero_add, encLoop_unencodable hfree hnone] at hloop
  rw [encRun, bwOpenRun_writing hfree, Run.andThen_done, openRead_faultFree (hfree.writing []), Run.andThen_done,
    show (s.writing []).src = s.src from rfl, hlen, hloop, Run.andThen_raised]

end

/-- Settles O51: the encoder raises with the codewords before the symbol written, and the raise closes their stream. -/
theorem encRunStopsAtAnUnencodableSymbol : Obligations.EncRunStopsAtAnUnencodableSymbol := by
  unfold Obligations.EncRunStopsAtAnUnencodableSymbol
  intro s before after sym hinv hidle hfree hsource hcode hnone h
  have hexec := exec_raised (i := .encRun) hidle.noFault (acceptable_of_idle hidle (by simp))
    (encRun_unencodable hfree hsource hcode hnone h)
  rw [State.raiseFault_writing hfree _ h, hidle.noFault] at hexec
  refine ⟨_, hexec, rfl, State.streamCmp_isStream hinv.cmpOk h, rfl, rfl, ?_,
    fun _ => State.read_streamCmp_above hinv.cmpOk h⟩
  simp [State.closed, hidle.noWriter, hidle.noReader]

end Sys2Proof.Machine
end

section
/-! PROOFS. The tree store: which commands are accepted, what an allocation, an inspection, `TREE.SIZE` and `TREE.EQ`
answer, and that no record is ever written again: O22 to O26, O28, O29. -/

namespace Sys2Proof.Machine

/-! ### Accepted commands of the tree store (R92, R235) -/

section

variable {s : State}

theorem acceptable_treeLeaf (h : s.arg0.toNat < s.cfg.nsym) : acceptable .treeLeaf s = true :=
  acceptable_iff.mpr ⟨by simp [operandsLegal, operandTypes, legalAll, OperandType.legal, h], rfl⟩

theorem acceptable_inspection {i : Instr} {nd : Node} (h : s.node? s.arg0 = some nd)
    (hi : i ∈ [Instr.treeIsLeaf, .treeLeft, .treeRight, .treeWeight]) : acceptable i s = true := by
  have hnode : legalAll s [.node] [s.arg0, s.arg1, s.arg2] = true := by simp [legalAll, OperandType.legal, h]
  simp only [List.mem_cons, List.not_mem_nil, or_false] at hi
  rcases hi with rfl | rfl | rfl | rfl <;> exact acceptable_iff.mpr ⟨hnode, rfl⟩

/-- `TREE.SYM` asks for a leaf besides (R144, R235). -/
theorem acceptable_treeSym {sym : Symbol} {w : Word} (h : s.node? s.arg0 = some (.leaf sym w)) :
    acceptable .treeSym s = true :=
  acceptable_iff.mpr ⟨by simp [operandsLegal, operandTypes, legalAll, OperandType.legal, h],
    by simp [precondition, State.isLeaf, h, Node.isLeaf]⟩

theorem acceptable_treeSize (h : s.arg0 = nilId ∨ (s.node? s.arg0).isSome = true) :
    acceptable .treeSize s = true :=
  acceptable_iff.mpr ⟨by simpa [operandsLegal, operandTypes, legalAll, legal_tree_iff] using h, rfl⟩

/-- `TREE.NODE` and `TREE.EQ` take two trees (R142, R149). -/
theorem acceptable_twoTrees {i : Instr} (h0 : s.arg0 = nilId ∨ (s.node? s.arg0).isSome = true)
    (h1 : s.arg1 = nilId ∨ (s.node? s.arg1).isSome = true) (hi : i ∈ [Instr.treeNode, .treeEq]) :
    acceptable i s = true := by
  simp only [List.mem_cons, List.not_mem_nil, or_false] at hi
  rcases hi with rfl | rfl <;> refine acceptable_iff.mpr ⟨?_, rfl⟩ <;>
    simp only [operandsLegal, operandTypes, legalAll, Bool.and_eq_true, legal_tree_iff]
  · exact ⟨h0, h1, rfl, trivial⟩
  · exact ⟨h0, h1, trivial⟩

/-- They refuse an operand that is neither `NIL` nor a valid id (R278). -/
theorem exec_twoTrees_illegal {i : Instr} (herr : s.err = none)
    (h : (s.arg0 ≠ nilId ∧ s.node? s.arg0 = none) ∨ (s.arg1 ≠ nilId ∧ s.node? s.arg1 = none))
    (hi : i ∈ [Instr.treeNode, .treeEq]) : exec i s = .next (s.raiseFault .illegalCommand) := by
  have hty : (operandTypes i)[0]? = some .tree ∧ (operandTypes i)[1]? = some .tree := by
    revert i
    decide
  rcases h with ⟨hnil, hnone⟩ | ⟨hnil, hnone⟩
  · exact exec_unacceptable herr (unacceptable_of_operand 0 hty.1 rfl (illegal_tree hnil hnone))
  · exact exec_unacceptable herr (unacceptable_of_operand 1 hty.2 rfl (illegal_tree hnil hnone))

end

/-! ### Allocations (R140 to R142) -/

theorem allocNode_full {s : State} (h : s.nodes.length = s.cfg.nodesMax.toNat) (nd : Node) :
    allocNode nd s = .raised .capacityExceeded s :=
  if_pos (Nat.le_of_eq h.symm)

theorem allocNode_room {s : State} (h : s.nodes.length < s.cfg.nodesMax.toNat) (nd : Node) :
    allocNode nd s = .done s.nodeCnt { s with nodes := s.nodes ++ [nd] } :=
  if_neg (Nat.not_le.mpr h)

/-- Settles O23: the operand check, then the allocation of the leaf. -/
theorem treeLeafAllocatesALeaf : Obligations.TreeLeafAllocatesALeaf := by
  unfold Obligations.TreeLeafAllocatesALeaf
  refine ⟨by decide, fun s herr => ⟨fun hsym => ?_, fun hsym hfull => ?_, fun hsym hroom => ?_⟩⟩
  · exact exec_unacceptable herr (unacceptable_of_operand 0 rfl rfl (illegal_sym hsym))
  · exact exec_raised herr (acceptable_treeLeaf hsym) (allocNode_full hfull _)
  · exact exec_done herr (acceptable_treeLeaf hsym) (allocNode_room hroom _)

/-- Settles O24: the checks of both children, then the allocation of the internal node. -/
theorem treeNodeAllocatesAnInternalNode : Obligations.TreeNodeAllocatesAnInternalNode := by
  unfold Obligations.TreeNodeAllocatesAnInternalNode
  refine ⟨by decide, fun s herr => ⟨fun hbad => exec_twoTrees_illegal herr hbad (by simp), fun hleft hright => ?_⟩⟩
  have hacc : acceptable .treeNode s = true := acceptable_twoTrees hleft hright (by simp)
  exact ⟨fun hfull => exec_raised herr hacc (allocNode_full hfull _),
    fun hroom => exec_done herr hacc (allocNode_room hroom _)⟩

/-! ### Inspections (R143 to R147) -/

theorem fieldOfArg0_some {s : State} {nd : Node} (h : s.node? s.arg0 = some nd) (f : Node → Word) :
    fieldOfArg0 f s = .done (f nd) s := by
  simp [fieldOfArg0, h]

/-- The inspections of a valid id answer what its record holds. -/
theorem exec_inspection {s : State} {nd : Node} (herr : s.err = none) (h : s.node? s.arg0 = some nd) :
    exec .treeIsLeaf s = .next { s with res := boolWord nd.isLeaf } ∧
      exec .treeLeft s = .next { s with res := nd.left } ∧ exec .treeRight s = .next { s with res := nd.right } ∧
      exec .treeWeight s = .next { s with res := nd.weight } := by
  have hfield : ∀ i ∈ [Instr.treeIsLeaf, .treeLeft, .treeRight, .treeWeight], ∀ f, body i = fieldOfArg0 f →
      exec i s = .next { s with res := f nd } := fun i hi f hbody =>
    exec_done herr (acceptable_inspection h hi) (by rw [hbody, fieldOfArg0_some h])
  exact ⟨hfield .treeIsLeaf (by simp) _ rfl, hfield .treeLeft (by simp) _ rfl, hfield .treeRight (by simp) _ rfl,
    hfield .treeWeight (by simp) _ rfl⟩

/-- Settles O25: the fields of a leaf's record and of an internal node's, and the operand check. -/
theorem treeInspectionsReadTheRecord : Obligations.TreeInspectionsReadTheRecord := by
  unfold Obligations.TreeInspectionsReadTheRecord
  have hty : ∀ i ∈ [Instr.treeIsLeaf, .treeLeft, .treeRight, .treeWeight], (operandTypes i)[0]? = some .node := by
    decide
  refine ⟨by decide, by decide, by decide, by decide, fun s herr =>
    ⟨fun sym w h => exec_inspection herr h, fun l r w h => exec_inspection herr h, fun hnone i hi => ?_⟩⟩
  exact exec_unacceptable herr (unacceptable_of_operand 0 (hty i hi) rfl (illegal_node hnone))

/-- Settles O26: a leaf passes operand check and precondition, an internal node only the first. -/
theorem treeSymReadsALeaf : Obligations.TreeSymReadsALeaf := by
  unfold Obligations.TreeSymReadsALeaf
  refine ⟨by decide, fun s herr => ⟨fun sym w h => ?_, fun h => exec_unacceptable herr ?_⟩⟩
  · exact exec_done herr (acceptable_treeSym h) (fieldOfArg0_some h _)
  · rcases h with hnone | ⟨l, r, w, hinner⟩
    · exact unacceptable_of_operand 0 rfl rfl (illegal_node hnone)
    · exact unacceptable_of_precondition (precondition_treeSym_inner hinner)

/-! ### Induction along the records (R29) -/

/-- A valid id is an id below `NODE_CNT` (R27, R28). -/
theorem State.node?_isSome_iff {s : State} {n : NodeId} :
    (s.node? n).isSome = true ↔ n ≠ nilId ∧ n.toNat < s.nodes.length := by
  by_cases hnil : n = nilId <;> simp [State.node?, nodeIn, hnil]

/-- The children of an internal record are `NIL` or older (R29). -/
theorem State.Inv.children_older {s : State} (h : s.Inv) {n l r : NodeId} {w : Word}
    (hn : s.node? n = some (.inner l r w)) :
    (l = nilId ∨ l.toNat < n.toNat) ∧ (r = nilId ∨ r.toNat < n.toNat) := by
  simpa [Node.okAt, childBelow_iff] using h.node_ok hn

/-- What holds of `NIL`, of every leaf, and of an internal node when it holds of its children, holds of `NIL` and of
every valid id. -/
theorem State.Inv.tree_induction {s : State} (h : s.Inv) {P : NodeId → Prop} (nil : P nilId)
    (leaf : ∀ n sym w, s.node? n = some (.leaf sym w) → P n)
    (inner : ∀ n l r w, s.node? n = some (.inner l r w) → P l → P r → P n) (n : NodeId)
    (hn : n = nilId ∨ (s.node? n).isSome = true) : P n := by
  induction hk : n.toNat using Nat.strongRecOn generalizing n with
  | ind k ih =>
    subst hk
    rcases hn with rfl | hvalid
    · exact nil
    · have hlt := (State.node?_isSome_iff.mp hvalid).2
      have hchild : ∀ m : NodeId, (m = nilId ∨ m.toNat < n.toNat) → P m := by
        intro m hm
        by_cases hnil : m = nilId
        · exact hnil ▸ nil
        · have hold := hm.resolve_left hnil
          exact ih _ hold m (.inr (State.node?_isSome_iff.mpr ⟨hnil, by omega⟩)) rfl
      obtain ⟨nd, hnd⟩ := Option.isSome_iff_exists.mp hvalid
      cases nd with
      | leaf sym w => exact leaf n sym w hnd
      | inner l r w =>
        obtain ⟨hl, hr⟩ := h.children_older hnd
        exact inner n l r w hnd (hchild l hl) (hchild r hr)

theorem State.tree_nilId (s : State) : s.tree nilId = .empty := unfoldTree_nilId _ _

/-! ### Records are never rewritten (R150) -/

/-- The pseudocode of a command that starts no new session only appends records. -/
theorem body_appends_records {i : Instr} (hclear : i ≠ .sysClear) (hses : i ≠ .sesRun) (s : State) :
    ∃ more, (body i s).state.nodes = s.nodes ++ more := by
  by_cases hi : i ∈ Part.records.writers
  · have hframe : NodesOnly s (body i s).state := by
      simp only [Part.writers, List.mem_cons, List.not_mem_nil, or_false, hclear, hses] at hi
      rcases hi with rfl | rfl | rfl
      · exact allocNode_frame _ s
      · exact allocNode_frame _ s
      · exact tbBuild_frame s
    obtain ⟨more, hmore⟩ := hframe
    exact ⟨more, congrArg State.nodes hmore⟩
  · exact ⟨[], (body_keeps hi s).trans (List.append_nil _).symm⟩

/-- The completion of a command, a raise included, writes no record at all. -/
theorem nodes_append_of_exec {i : Instr} {s t : State} (hclear : i ≠ .sysClear) (hses : i ≠ .sesRun)
    (h : exec i s = .next t) : ∃ more, t.nodes = s.nodes ++ more := by
  have hp : Part.records ∉ completionParts := by simp [completionParts]
  rcases exec_cases h with ⟨-, rfl⟩ | ⟨-, -, rfl⟩ | ⟨-, -, rfl⟩
  · exact ⟨[], (List.append_nil _).symm⟩
  · exact ⟨[], (raiseFault_same hp _ s).trans (List.append_nil _).symm⟩
  · obtain ⟨more, hmore⟩ := body_appends_records hclear hses s
    exact ⟨more, (complete_same hp _).trans hmore⟩

/-- Where every record is kept, so is every tree. -/
theorem State.Inv.tree_eq_of_records_kept {s t : State} (hs : s.Inv) (ht : t.Inv)
    (hkept : ∀ n nd, s.node? n = some nd → t.node? n = some nd) {n : NodeId}
    (hn : n = nilId ∨ (s.node? n).isSome = true) : t.tree n = s.tree n := by
  refine hs.tree_induction (P := fun n => t.tree n = s.tree n) ?_ (fun n sym w h => ?_) (fun n l r w h hl hr => ?_) n hn
  · rw [State.tree_nilId, State.tree_nilId]
  · rw [State.tree_of_leaf h, State.tree_of_leaf (hkept n _ h)]
  · rw [hs.tree_of_inner h, ht.tree_of_inner (hkept n _ h), hl, hr]

/-- Settles O22: records are only appended, so ids keep their records and trees. -/
theorem recordsAreNeverRewritten : Obligations.RecordsAreNeverRewritten := by
  unfold Obligations.RecordsAreNeverRewritten
  intro i s t hclear hses h
  obtain ⟨more, hmore⟩ := nodes_append_of_exec hclear hses h
  have hkept : ∀ n nd, s.node? n = some nd → t.node? n = some nd := by
    intro n nd hn
    rw [State.node?, hmore]
    exact nodeIn_append hn
  have ht : s.Inv → t.Inv := by
    intro hinv
    rw [exec_eq_runCommand] at h
    cases h
    exact runCommand_inv i hinv
  exact ⟨⟨more, hmore⟩, hkept, fun hinv n hn => hinv.tree_eq_of_records_kept (ht hinv) hkept (.inr hn)⟩

/-! ### `TREE.SIZE` (R46, R148) -/

theorem sizesFrom_extends (before : List Nat) (rest : List Node) : before <+: sizesFrom before rest := by
  induction rest generalizing before with
  | nil => exact List.prefix_rfl
  | cons nd rest ih => exact (List.prefix_append before _).trans (ih _)

/-- The size of record `j` is computed from the sizes of the records before it, and stands next after them. -/
theorem sizesFrom_record {rest : List Node} {nd : Node} {j : Nat} (h : rest[j]? = some nd) (before : List Nat) :
    ∃ below : List Nat, below.length = before.length + j ∧ below ++ [nd.size below] <+: sizesFrom before rest := by
  induction rest generalizing before j with
  | nil => simp at h
  | cons x rest ih =>
    cases j with
    | zero =>
      obtain rfl : x = nd := by simpa using h
      exact ⟨before, rfl, sizesFrom_extends _ rest⟩
    | succ j =>
      obtain ⟨below, hlen, hpre⟩ := ih (by simpa using h) (before ++ [x.size before])
      refine ⟨below, ?_, hpre⟩
      rw [hlen, List.length_append, List.length_singleton]
      omega

/-- Sizes that come later do not change the size of an id that has one. -/
theorem sizeIn_of_prefix {below sizes : List Nat} (h : below <+: sizes) {n : NodeId}
    (hn : n = nilId ∨ n.toNat < below.length) : sizeIn below n = sizeIn sizes n := by
  obtain ⟨above, rfl⟩ := h
  by_cases hnil : n = nilId
  · simp [sizeIn, hnil]
  · simp only [sizeIn, if_neg hnil, List.getD_eq_getElem?_getD,
      List.getElem?_append_left (hn.resolve_left hnil)]

theorem State.sizeOf_nilId (s : State) : s.sizeOf nilId = 0 := by
  rw [State.sizeOf, sizeIn, if_pos rfl]

/-- The size of a record is that of its node with all sizes at hand, its children being older (R29). -/
theorem State.sizeOf_record {s : State} {n : NodeId} {nd : Node} (hn : s.node? n = some nd) :
    ∃ below : List Nat, below.length = n.toNat ∧ below <+: sizesFrom [] s.nodes ∧ s.sizeOf n = nd.size below := by
  obtain ⟨hnil, hget⟩ := nodeIn_eq_some.mp hn
  obtain ⟨below, hlen, hpre⟩ := sizesFrom_record hget []
  rw [List.length_nil, Nat.zero_add] at hlen
  refine ⟨below, hlen, (List.prefix_append _ _).trans hpre, ?_⟩
  have hsize := sizeIn_of_prefix hpre (n := n) (.inr (by simp [hlen]))
  rw [State.sizeOf, ← hsize, sizeIn, if_neg hnil, List.getD_eq_getElem?_getD, ← hlen]
  simp

theorem State.Inv.sizeOf_inner {s : State} (h : s.Inv) {n l r : NodeId} {w : Word}
    (hn : s.node? n = some (.inner l r w)) : s.sizeOf n = 1 + s.sizeOf l + s.sizeOf r := by
  obtain ⟨below, hlen, hpre, hsize⟩ := State.sizeOf_record hn
  obtain ⟨hl, hr⟩ := h.children_older hn
  rw [hsize, Node.size, sizeIn_of_prefix hpre (by rwa [hlen]), sizeIn_of_prefix hpre (by rwa [hlen])]
  rfl

/-- The recursion on the id computes the size of the unfolded tree. -/
theorem State.Inv.sizeOf_eq_size {s : State} (h : s.Inv) {n : NodeId}
    (hn : n = nilId ∨ (s.node? n).isSome = true) : s.sizeOf n = (s.tree n).size := by
  refine h.tree_induction (P := fun n => s.sizeOf n = (s.tree n).size) ?_ (fun n sym w hn => ?_)
    (fun n l r w hn hl hr => ?_) n hn
  · rw [s.sizeOf_nilId, s.tree_nilId, Tree.size]
  · obtain ⟨below, -, -, hsize⟩ := State.sizeOf_record hn
    rw [hsize, State.tree_of_leaf hn, Node.size, Tree.size]
  · rw [h.sizeOf_inner hn, h.tree_of_inner hn, hl, hr, Tree.size]

theorem Tree.size_of_wf {t : Tree} (h : t.wf = true) : t.size + 1 = 2 * t.leaves.length := by
  induction t with
  | empty => cases h
  | leaf sym w => rfl
  | inner l r w ihl ihr =>
    obtain ⟨hl, hr⟩ := Bool.and_eq_true_iff.mp h
    have hleft := ihl hl
    have hright := ihr hr
    simp only [Tree.size, Tree.leaves, List.length_append]
    omega

/-- Settles O28: the sizes by recursion on the id are those of the unfolded trees, and a well-formed tree is counted by
induction. -/
theorem treeSizeCountsTheUnfoldedTree : Obligations.TreeSizeCountsTheUnfoldedTree := by
  unfold Obligations.TreeSizeCountsTheUnfoldedTree
  refine ⟨by decide, fun s hinv herr => ⟨fun hnil hnone => ?_, fun htree => ?_⟩, fun t hwf =>
    ⟨Tree.size_of_wf hwf, List.length_pos_iff.mpr (Tree.leaves_ne_nil hwf)⟩⟩
  · exact exec_unacceptable herr (unacceptable_of_operand 0 rfl rfl (illegal_tree hnil hnone))
  · have hacc := acceptable_treeSize htree
    rw [← hinv.sizeOf_eq_size htree]
    exact ⟨fun hfits => exec_done herr hacc (if_pos hfits),
      fun hlarge => exec_raised herr hacc (if_neg (Nat.not_le.mpr hlarge))⟩

/-! ### `TREE.EQ` (R149) -/

theorem Tree.eqv_refl (t : Tree) : t.eqv t = true := by
  induction t with
  | empty => rfl
  | leaf sym w => simp [Tree.eqv]
  | inner l r w ihl ihr => simp [Tree.eqv, ihl, ihr]

/-- The empty tree equals only itself. -/
theorem Tree.eqv_empty (t : Tree) : (t.eqv .empty = true ↔ t = .empty) ∧ (Tree.empty.eqv t = true ↔ t = .empty) := by
  cases t <;> simp [Tree.eqv]

/-- Settles O29: the checks of both operands, the equations of `eq`, reflexivity by induction on the tree. -/
theorem treeEqComparesShapeAndSymbols : Obligations.TreeEqComparesShapeAndSymbols := by
  unfold Obligations.TreeEqComparesShapeAndSymbols
  refine ⟨by decide, fun s herr => ⟨fun hbad => ?_, fun h0 h1 => ?_⟩, fun _ _ _ _ => rfl, fun _ _ _ _ _ _ => rfl,
    Tree.eqv_refl, Tree.eqv_empty, fun _ _ _ _ _ => ⟨rfl, rfl⟩⟩
  · exact exec_twoTrees_illegal herr hbad (by simp)
  · exact exec_done herr (acceptable_twoTrees h0 h1 (by simp)) rfl

end Sys2Proof.Machine
end

section
/-! PROOFS. The frequency counter: the table of a sequence of symbols, and `FC.COUNT` up to its end or to the access
that fails: O30, O31. -/

namespace Sys2Proof.Machine

/-! ### The table of a sequence of symbols (R25, R160) -/

/-- Induction along the order of counting: a property of the empty sequence that one more symbol at the end keeps. -/
theorem symbols_induction {P : List Symbol → Prop} (nil : P [])
    (concat : ∀ syms sym, P syms → P (syms ++ [sym])) (syms : List Symbol) : P syms := by
  have hrev : ∀ rev : List Symbol, P rev.reverse := fun rev => by
    induction rev with
    | nil => exact nil
    | cons sym rev ih => rw [List.reverse_cons]; exact concat _ sym ih
  rw [← List.reverse_reverse syms]
  exact hrev syms.reverse

/-- A table with one more occurrence of a symbol. -/
def bumpCount (ft : List (Nat × Word)) (sym : Symbol) : List (Nat × Word) :=
  Memory.set 0#32 ft sym.toNat (Memory.get 0#32 ft sym.toNat + 1#32)

/-- The table after the symbols of a sequence, from the empty one. -/
def tableOf (syms : List Symbol) : List (Nat × Word) := syms.foldl bumpCount []

theorem tableOf_concat (syms : List Symbol) (sym : Symbol) :
    tableOf (syms ++ [sym]) = bumpCount (tableOf syms) sym := by
  rw [tableOf, List.foldl_append]
  rfl

theorem tableOf_wf (syms : List Symbol) : Memory.wf 0#32 (tableOf syms) = true := by
  induction syms using symbols_induction with
  | nil => rfl
  | concat syms sym ih => rw [tableOf_concat]; exact Memory.wf_set ih _ _

/-- Each count is the number of occurrences, as long as the sequence is no longer than `SRC` can be. -/
theorem tableOf_count {syms : List Symbol} (h : syms.length < 2 ^ 32) (n : Nat) :
    (Memory.get 0#32 (tableOf syms) n).toNat = syms.countP fun x => x.toNat = n := by
  induction syms using symbols_induction with
  | nil => rfl
  | concat syms sym ih =>
    rw [List.length_append, List.length_singleton] at h
    have hcount := ih (by omega)
    have hle : syms.countP (fun x => x.toNat = n) ≤ syms.length := List.countP_le_length
    rw [tableOf_concat, bumpCount, Memory.get_set (tableOf_wf syms), List.countP_append, List.countP_singleton]
    by_cases hn : sym.toNat = n
    · rw [if_pos hn, if_pos (decide_eq_true hn), hn]
      bv_omega
    · rw [if_neg hn, if_neg (by simpa using hn), hcount, Nat.add_zero]

/-- The symbols that occur are those with a count. -/
theorem tableOf_count_pos {syms : List Symbol} (h : syms.length < 2 ^ 32) (n : Nat) :
    1 ≤ (Memory.get 0#32 (tableOf syms) n).toNat ↔ ∃ x ∈ syms, x.toNat = n := by
  rw [tableOf_count h]
  exact List.countP_pos_iff.trans (by simp only [decide_eq_true_eq])

/-- No count of a sequence that leaves room for one more symbol is at its largest value. -/
theorem tableOf_count_lt {syms : List Symbol} (h : syms.length + 1 < 2 ^ 32) (n : Nat) :
    (Memory.get 0#32 (tableOf syms) n).toNat + 1 < 2 ^ 32 := by
  have hle : syms.countP (fun x => x.toNat = n) ≤ syms.length := List.countP_le_length
  rw [tableOf_count (by omega)]
  omega

/-- Listing a value changes the sum by the difference to what was read there. -/
theorem Memory.sum_insert {lo a : Nat} {m : List (Nat × Word)} (h : Memory.rising lo m = true) (v : Word) :
    ((Memory.insert a v m).map fun e => e.2.toNat).sum + (Memory.get 0#32 m a).toNat =
      (m.map fun e => e.2.toNat).sum + v.toNat := by
  unfold Memory.get
  induction m generalizing lo with
  | nil => simp [Memory.insert]
  | cons e m ih =>
    obtain ⟨k, w⟩ := e
    simp only [Memory.rising_cons] at h
    obtain ⟨-, hm⟩ := h
    rcases Nat.lt_trichotomy a k with hlt | rfl | hgt
    · have hnone : Memory.get? ((k, w) :: m) a = none :=
        Memory.get?_eq_none_of_lt (lo := k) (by simpa using hm) hlt
      simp [Memory.insert, hlt, hnone, Nat.add_comm]
    · simp [Memory.insert, Memory.get?_cons, Nat.add_comm, Nat.add_left_comm]
    · have hrest := ih hm
      rw [Memory.insert, if_neg (by omega), if_neg (by omega), Memory.get?_cons, if_neg (by simp only; omega)]
      simp only [List.map_cons, List.sum_cons]
      omega

/-- The counts sum to the length of the sequence. -/
theorem tableOf_sum {syms : List Symbol} (h : syms.length < 2 ^ 32) :
    ((tableOf syms).map fun e => e.2.toNat).sum = syms.length := by
  induction syms using symbols_induction with
  | nil => rfl
  | concat syms sym ih =>
    rw [List.length_append, List.length_singleton] at h ⊢
    have hsum := ih (by omega)
    have hroom := tableOf_count_lt h sym.toNat
    have hinsert := Memory.sum_insert (a := sym.toNat) (Memory.wf_iff.mp (tableOf_wf syms)).1
      (Memory.get 0#32 (tableOf syms) sym.toNat + 1#32)
    rw [tableOf_concat, bumpCount, Memory.set, if_neg (by bv_omega)]
    bv_omega

/-! ### `fc_count()` up to an index (R160, R161) -/

/-- The state with the symbols of a sequence counted, and nothing else changed. -/
def State.counted (s : State) (syms : List Symbol) : State := { s with ft := tableOf syms }

theorem State.source_length (s : State) : s.source.length = s.src.len.toNat := by
  rw [State.source_eq_symbolsFrom, State.symbolsFrom_length]

theorem State.take_source (s : State) {i : Nat} (hi : i ≤ s.src.len.toNat) : s.source.take i = s.symbolsFrom 0 i := by
  rw [State.source_eq_symbolsFrom, ← Nat.add_sub_cancel' hi, State.symbolsFrom_append,
    List.take_left' (State.symbolsFrom_length s 0 i)]

/-- The next answers are all `ok`, or there is a first that fails. -/
theorem State.answersOk_or_failsAt (s : State) (n : Nat) : s.AnswersOk n ∨
    ∃ m left rest, m < n ∧ s.env = List.replicate m .ok ++ .ioerr left :: rest := by
  induction n generalizing s with
  | zero => exact .inl (by simp [State.AnswersOk])
  | succ n ih =>
    rw [State.answersOk_succ]
    cases henv : s.env with
    | nil => exact .inl (by simp)
    | cons x env =>
      cases x with
      | ioerr left => exact .inr ⟨0, left, env, by omega, rfl⟩
      | ok =>
        rcases ih { s with env := env } with hok | ⟨m, left, rest, hm, hrest⟩
        · exact .inl ⟨rfl, hok⟩
        · exact .inr ⟨m + 1, left, rest, by omega, congrArg (Answer.ok :: ·) hrest⟩

theorem readSrc_ok {s : State} (h : s.env.headD .ok = .ok) (a : Nat) :
    readSrc a s = .done (s.src.read 0#16 a) { s with env := s.env.tail } := by
  simp [readSrc, ask_ok h]

theorem fcStep_counted (s : State) (sym : Symbol) {syms : List Symbol} (h : syms.length + 1 < 2 ^ 32) :
    fcStep sym (s.counted syms) = .done () (s.counted (syms ++ [sym])) := by
  have hroom := tableOf_count_lt h sym.toNat
  have hmax : (s.counted syms).count sym.toNat ≠ wordMax := fun hmax => by
    rw [show Memory.get 0#32 (tableOf syms) sym.toNat = wordMax from hmax] at hroom
    exact absurd hroom (by decide)
  rw [fcStep, if_neg hmax, State.counted, State.counted, tableOf_concat]
  rfl

/-- Indices whose reads are answered `ok` are counted one after another. -/
theorem fcLoop_counted {s : State} (rest n i : Nat) {syms : List Symbol} (hok : s.AnswersOk n)
    (h : syms.length + n < 2 ^ 32) :
    fcLoop (n + rest) i (s.counted syms) =
      fcLoop rest (i + n) (State.counted { s with env := s.env.drop n } (syms ++ s.symbolsFrom i n)) := by
  induction n generalizing s i syms with
  | zero => simp [State.symbolsFrom]
  | succ n ih =>
    obtain ⟨hhead, htail⟩ := State.answersOk_succ.mp hok
    have hread : readSrc i (s.counted syms) =
        .done (s.src.read 0#16 i) (State.counted { s with env := s.env.tail } syms) :=
      readSrc_ok (s := s.counted syms) hhead i
    rw [Nat.add_right_comm, fcLoop, hread, Run.andThen_done, fcStep_counted _ _ (by omega), Run.andThen_done,
      ih (s := { s with env := s.env.tail }) (i + 1) htail (by rw [List.length_append, List.length_singleton]; omega),
      State.symbolsFrom_succ, List.drop_tail, List.append_assoc, Nat.add_right_comm i 1 n, Nat.add_assoc i n 1]
    rfl

/-- Once the source is open, `fc_count()` is its loop from the empty table. -/
theorem fcCount_opened {s : State} (h : s.env.headD .ok = .ok) :
    fcCount s = (fcLoop s.src.len.toNat 0 (State.counted { s with env := s.env.tail } [])).andThen
      fun _ t => .done t.src.len t := by
  rw [fcCount, openRead_ok (s := { s with ft := [] }) h, Run.andThen_done]
  rfl

/-- With every access answered `ok` it counts the whole source. -/
theorem fcCount_ok {s : State} (hok : s.AnswersOk (s.src.len.toNat + 1)) :
    fcCount s =
      .done s.src.len (State.counted { s with env := s.env.drop (s.src.len.toNat + 1) } s.source) := by
  obtain ⟨hhead, htail⟩ := State.answersOk_succ.mp hok
  have hloop := fcLoop_counted (s := { s with env := s.env.tail }) 0 s.src.len.toNat 0 (syms := []) htail
    (by simpa using s.src.len.isLt)
  rw [Nat.add_zero, fcLoop] at hloop
  rw [fcCount_opened hhead, hloop, Run.andThen_done, List.drop_tail, List.nil_append, State.source_eq_symbolsFrom]
  rfl

/-- The read that fails leaves the indices before it counted (R285). -/
theorem fcCount_failedRead {s : State} {i : Nat} {left : Symbol} {rest : List Answer} (hi : i < s.src.len.toNat)
    (h : s.env = List.replicate (i + 1) .ok ++ .ioerr left :: rest) :
    fcCount s = .raised .sourceCorrupt (State.counted { s with env := rest } (s.source.take i)) := by
  obtain ⟨hhead, htail⟩ := State.answersOk_succ.mp (State.answersOk_of_replicate h)
  have hloop := fcLoop_counted (s := { s with env := s.env.tail }) (s.src.len.toNat - i) i 0 (syms := []) htail
    (by have := s.src.len.isLt; rw [List.length_nil]; omega)
  have henv : s.env.tail.drop i = .ioerr left :: rest := by
    rw [h, List.drop_tail, List.drop_left' List.length_replicate]
  rw [Nat.add_sub_cancel' (Nat.le_of_lt hi), List.nil_append, henv] at hloop
  obtain ⟨m, hm⟩ := Nat.exists_eq_add_of_lt hi
  rw [fcCount_opened hhead, hloop, s.take_source (Nat.le_of_lt hi), show s.src.len.toNat - i = m + 1 by omega, fcLoop,
    readSrc_failed (left := left) (rest := rest) rfl]
  rfl

/-! ### `FC.COUNT` (R161, R162) -/

/-- A block without fault accepts `FC.COUNT`, whatever is open (R235). -/
theorem acceptable_fcCount (s : State) : acceptable .fcCount s = true := rfl

/-- `FC.COUNT` ends without fault only when no access failed. -/
theorem answersOk_of_fcCount {s t : State} (herr : s.err = none) (hexec : exec .fcCount s = .next t)
    (hnone : t.err = none) : s.AnswersOk (s.src.len.toNat + 1) := by
  have hdone : ∀ k u, fcCount s ≠ .raised k u := fun k u hrun => by
    rw [exec_raised herr (acceptable_fcCount s) hrun] at hexec
    cases hexec
    simp at hnone
  rcases s.answersOk_or_failsAt (s.src.len.toNat + 1) with hok | ⟨m, left, rest, hm, henv⟩
  · exact hok
  · cases m with
    | zero => exact absurd (fcCount_failedOpen henv) (hdone _ _)
    | succ i => exact absurd (fcCount_failedRead (by omega) henv) (hdone _ _)

/-- A completed `FC.COUNT` leaves the table of the source, and the length in `RES`. -/
theorem exec_fcCount_ok {s : State} (herr : s.err = none) (hok : s.AnswersOk (s.src.len.toNat + 1)) :
    exec .fcCount s = .next
      { s with ft := tableOf s.source, env := s.env.drop (s.src.len.toNat + 1), res := s.src.len } :=
  exec_done herr (acceptable_fcCount s) (fcCount_ok hok)

/-- Settles O30: without fault no access failed, so the table is that of the source. -/
theorem fcCountCountsOccurrences : Obligations.FcCountCountsOccurrences := by
  unfold Obligations.FcCountCountsOccurrences
  refine ⟨fun s t herr hexec hnone => ?_, fun s herr hfree => ?_⟩
  · have hlen : s.source.length < 2 ^ 32 := by rw [State.source_length]; exact s.src.len.isLt
    rw [exec_fcCount_ok herr (answersOk_of_fcCount herr hexec hnone)] at hexec
    cases hexec
    exact ⟨tableOf_count hlen, tableOf_count_pos hlen, (tableOf_sum hlen).trans s.source_length⟩
  · refine ⟨_, exec_fcCount_ok herr (hfree.answersOk _), herr, ?_⟩
    simp only [show s.env = [] from hfree, List.drop_nil]

/-- Idle, the raise of an `FC.COUNT` closes nothing. -/
theorem exec_fcCount_raised {s t : State} {k : FaultKind} (hidle : s.Idle) (hrun : fcCount s = .raised k t) :
    exec .fcCount s = .next { t with err := some k } := by
  have hframe : TableOnly s t := by simpa [hrun] using fcCount_frame s
  have herr : t.err = none := by rw [hframe]; exact hidle.noFault
  have hwriter : t.bwOpen = false := by rw [hframe]; exact hidle.noWriter
  have hreader : t.brOpen = false := by rw [hframe]; exact hidle.noReader
  rw [exec_raised hidle.noFault (acceptable_fcCount s) hrun, State.raiseFault_noWriter k hwriter, herr, ← hreader]
  rfl

/-- Settles O31: the open or the read that fails, with the counts of the indices before it. -/
theorem fcCountStopsAtAFailedAccess : Obligations.FcCountStopsAtAFailedAccess := by
  unfold Obligations.FcCountStopsAtAFailedAccess
  intro s i left rest hidle
  refine ⟨fun h => ⟨_, exec_fcCount_raised hidle (fcCount_failedOpen h), rfl⟩,
    fun hi h => ⟨_, exec_fcCount_raised hidle (fcCount_failedRead hi h), rfl, tableOf_count ?_⟩⟩
  have hlen : (s.source.take i).length ≤ i := List.length_take_le i s.source
  have hsrc := s.src.len.isLt
  omega

end Sys2Proof.Machine
end

section
/-! PROOFS. The tree builder: the queue, one merge, and the whole of `TB.BUILD` by an invariant of the queue's trees:
O32 to O35. -/

namespace Sys2Proof.Machine

/-! ### The queue (R170, R177) -/

theorem keyLt_iff {a b : Nat × Nat} : keyLt a b = true ↔ a.1 < b.1 ∨ (a.1 = b.1 ∧ a.2 < b.2) := by
  simp [keyLt]

/-- No id of a queue has a smaller key than the one `pqMin` picks. -/
theorem not_keyLt_pqMin (s : State) (n : NodeId) (q : List NodeId) :
    ∀ m ∈ n :: q, ¬ keyLt (s.key m) (s.key (pqMin s n q)) = true := by
  induction q generalizing n with
  | nil => simp [pqMin, keyLt_iff]
  | cons x q ih =>
    intro m hm
    rw [pqMin]
    split
    · next hlt =>
      have hx := ih x x (by simp)
      rcases List.mem_cons.mp hm with rfl | hm
      · simp only [keyLt_iff] at hlt hx ⊢
        omega
      · exact ih x m hm
    · next hge =>
      have hn := ih n n (by simp)
      rcases List.mem_cons.mp hm with rfl | hm
      · exact hn
      · rcases List.mem_cons.mp hm with rfl | hm
        · simp only [keyLt_iff] at hge hn ⊢
          omega
        · exact ih n m (List.mem_cons_of_mem _ hm)

@[simp] theorem pqInsert_length (n : NodeId) (q : List NodeId) : (pqInsert n q).length = q.length + 1 :=
  List.length_append

theorem mem_pqInsert {n m : NodeId} {q : List NodeId} : m ∈ pqInsert n q ↔ m ∈ q ∨ m = n := by
  simp [pqInsert]

theorem pqInsert_ne_nil (n : NodeId) (q : List NodeId) : pqInsert n q ≠ [] := by
  simp [pqInsert]

theorem pqPopMin_cons (s : State) (n : NodeId) (q : List NodeId) :
    ∃ a rest, pqPopMin s (n :: q) = some (a, rest) :=
  ⟨_, _, rfl⟩

/-- What is popped and what is left are the queue. -/
theorem perm_of_pqPopMin {s : State} {q rest : List NodeId} {a : NodeId} (h : pqPopMin s q = some (a, rest)) :
    List.Perm q (a :: rest) := by
  cases q with
  | nil => simp [pqPopMin] at h
  | cons n q =>
    simp only [pqPopMin, Option.some.injEq, Prod.mk.injEq] at h
    obtain ⟨rfl, rfl⟩ := h
    exact List.perm_cons_erase (pqMin_mem s n q)

theorem not_keyLt_of_pqPopMin {s : State} {q rest : List NodeId} {a : NodeId} (h : pqPopMin s q = some (a, rest)) :
    ∀ b ∈ rest, ¬ keyLt (s.key b) (s.key a) = true := by
  intro b hb
  have hbq := (pqPopMin_mem h).2 b hb
  cases q with
  | nil => simp [pqPopMin] at h
  | cons n q =>
    simp only [pqPopMin, Option.some.injEq, Prod.mk.injEq] at h
    obtain ⟨rfl, -⟩ := h
    exact not_keyLt_pqMin s n q b hbq

/-- Settles O33: the popped id is the minimum over the queue by induction on it; the rest is the queue without it. -/
theorem queuePopsTheSmallestKey : Obligations.QueuePopsTheSmallestKey := by
  unfold Obligations.QueuePopsTheSmallestKey
  refine ⟨fun _ => rfl, pqPopMin_cons, fun s q rest a h => ⟨perm_of_pqPopMin h, fun b hb => ?_⟩,
    fun n q => List.perm_append_singleton n q⟩
  simpa only [keyLt_iff, State.key, BitVec.toNat_inj] using not_keyLt_of_pqPopMin h b hb

/-! ### One merge (R173) -/

/-- The state with new records above those it holds. -/
def State.withRecords (s : State) (more : List Node) : State := { s with nodes := s.nodes ++ more }

@[simp] theorem State.withRecords_nil (s : State) : s.withRecords [] = s := by
  simp [State.withRecords]

@[simp] theorem State.withRecords_withRecords (s : State) (m n : List Node) :
    (s.withRecords m).withRecords n = s.withRecords (m ++ n) := by
  simp [State.withRecords]

@[simp] theorem State.withRecords_nodes (s : State) (m : List Node) : (s.withRecords m).nodes = s.nodes ++ m := rfl

@[simp] theorem State.withRecords_cfg (s : State) (m : List Node) : (s.withRecords m).cfg = s.cfg := rfl

theorem allocNode_withRecords {s : State} (h : s.nodes.length < s.cfg.nodesMax.toNat) (nd : Node) :
    allocNode nd s = .done s.nodeCnt (s.withRecords [nd]) :=
  allocNode_room h nd

/-- With room and a sum that fits, a merge appends the internal node. -/
theorem tbMerge_room {s : State} {a b : NodeId} (hroom : s.nodes.length < s.cfg.nodesMax.toNat)
    (hsum : (s.tree a).weight.toNat + (s.tree b).weight.toNat < 2 ^ 32) :
    tbMerge a b s =
      .done s.nodeCnt (s.withRecords [.inner a b ((s.tree a).weight + (s.tree b).weight)]) := by
  have hmax : wordMax.toNat = 2 ^ 32 - 1 := rfl
  rw [tbMerge, if_neg (by omega), ← BitVec.add_def, allocNode_withRecords hroom]

/-- Otherwise it raises and leaves the state. -/
theorem tbMerge_raised {s : State} {a b : NodeId}
    (h : s.cfg.nodesMax.toNat ≤ s.nodes.length ∨
      2 ^ 32 ≤ (s.tree a).weight.toNat + (s.tree b).weight.toNat) :
    tbMerge a b s = .raised .capacityExceeded s := by
  have hmax : wordMax.toNat = 2 ^ 32 - 1 := rfl
  rw [tbMerge]
  split
  · rfl
  · exact if_pos (h.resolve_right (by omega))

/-- One pass of the loop, when two ids can be popped. -/
theorem tbLoop_pops {s : State} {q q1 q2 : List NodeId} {a b : NodeId} (ha : pqPopMin s q = some (a, q1))
    (hb : pqPopMin s q1 = some (b, q2)) (fuel : Nat) :
    tbLoop (fuel + 1) q s = (tbMerge a b s).andThen fun n s1 => tbLoop fuel (pqInsert n q2) s1 := by
  simp only [tbLoop, ha, hb]

/-- The loop returns the last id of the queue. -/
theorem tbLoop_last {s : State} {q : List NodeId} {a : NodeId} (h : pqPopMin s q = some (a, [])) (fuel : Nat) :
    tbLoop (fuel + 1) q s = .done a s := by
  have hempty : pqPopMin s [] = none := rfl
  simp only [tbLoop, h, hempty]

/-- Settles O34: the pass of the loop with the merge that has room. -/
theorem mergePutsTheLightestLeft : Obligations.MergePutsTheLightestLeft := by
  unfold Obligations.MergePutsTheLightestLeft
  intro s fuel q q1 q2 a b ha hb hroom hsum
  rw [tbLoop_pops ha hb, tbMerge_room hroom hsum]
  rfl

/-! ### `TB.BUILD` of small tables (R174, R175) -/

theorem acceptable_tbBuild (s : State) : acceptable .tbBuild s = true := rfl

/-- Settles O32: no leaf, or one leaf and a loop that merges nothing. -/
theorem tbBuildOfEmptyAndSingleTables : Obligations.TbBuildOfEmptyAndSingleTables := by
  unfold Obligations.TbBuildOfEmptyAndSingleTables
  refine fun s herr => ⟨fun hft => ?_, fun sym c hft hroom => ?_⟩
  · exact exec_done herr (acceptable_tbBuild s) (by simp [body, tbBuild, hft, tbLeaves, tbLoop])
  · have hbody : body .tbBuild s = .done s.nodeCnt (s.withRecords [.leaf (BitVec.ofNat 16 sym) c]) := by
      simp [State.withRecords, body, tbBuild, hft, tbLeaves, allocNode_room hroom, pqInsert, tbLoop, pqPopMin, pqMin]
    exact exec_done herr (acceptable_tbBuild s) hbody

/-! ### The trees in the queue (R172, R173) -/

/-- The weights of leaves, summed. -/
def leafSum (leaves : List (Symbol × Word)) : Nat := (leaves.map fun e => e.2.toNat).sum

@[simp] theorem leafSum_append (xs ys : List (Symbol × Word)) : leafSum (xs ++ ys) = leafSum xs + leafSum ys := by
  simp [leafSum]

theorem leafSum_perm {xs ys : List (Symbol × Word)} (h : List.Perm xs ys) : leafSum xs = leafSum ys :=
  (h.map _).sum_nat

/-- The leaves of all trees a queue names, with their weights. -/
def State.queueLeaves (s : State) (q : List NodeId) : List (Symbol × Word) := q.flatMap fun n => (s.tree n).weighted

@[simp] theorem State.queueLeaves_nil (s : State) : s.queueLeaves [] = [] := rfl

@[simp] theorem State.queueLeaves_cons (s : State) (n : NodeId) (q : List NodeId) :
    s.queueLeaves (n :: q) = (s.tree n).weighted ++ s.queueLeaves q := rfl

theorem State.queueLeaves_pqInsert (s : State) (n : NodeId) (q : List NodeId) :
    s.queueLeaves (pqInsert n q) = s.queueLeaves q ++ (s.tree n).weighted := by
  rw [State.queueLeaves, pqInsert, List.flatMap_append, List.flatMap_singleton, State.queueLeaves]

theorem Tree.leaves_eq_weighted (t : Tree) : t.leaves = t.weighted.map Prod.fst := by
  induction t with
  | empty => rfl
  | leaf sym w => rfl
  | inner l r w ihl ihr => simp [Tree.leaves, Tree.weighted, ihl, ihr]

/-- Where every internal weight is the sum below it, the root's weight is the sum of the leaves'. -/
theorem Tree.weight_eq_leafSum {t : Tree} (h : t.SumsWeights) : t.weight.toNat = leafSum t.weighted := by
  induction t with
  | empty => rfl
  | leaf sym w => simp [Tree.weight, Tree.weighted, leafSum]
  | inner l r w ihl ihr =>
    obtain ⟨hw, hl, hr⟩ := h
    simp only [Tree.weight, Tree.weighted, leafSum_append]
    rw [hw, ihl hl, ihr hr]

/-- What holds of the queue throughout `tb_build()`: its ids name well-formed trees with exact sums, whose leaves
together are `leaves`, and the newest record is among their roots. -/
structure Forest (s : State) (q : List NodeId) (leaves : List (Symbol × Word)) : Prop where
  inv    : s.Inv
  valid  : QueueOk s q
  trees  : ∀ n ∈ q, (s.tree n).wf = true ∧ (s.tree n).SumsWeights
  perm   : List.Perm (s.queueLeaves q) leaves
  newest : q ≠ [] → ∃ n ∈ q, n.toNat + 1 = s.nodes.length

theorem State.Inv.forest_nil {s : State} (h : s.Inv) : Forest s [] [] :=
  ⟨h, by simp [QueueOk], by simp, .nil, by simp⟩

/-- A new record that may stand next keeps the invariant and the trees of valid ids. -/
theorem State.Inv.withRecord {s : State} (h : s.Inv) (hroom : s.nodes.length < s.cfg.nodesMax.toNat) {nd : Node}
    (hnd : nd.okAt s.cfg s.nodes.length = true) :
    (s.withRecords [nd]).Inv ∧
      ∀ n, (s.node? n).isSome = true → (s.withRecords [nd]).tree n = s.tree n := by
  have hgood := allocNode_good h hnd
  rw [allocNode_room hroom] at hgood
  exact ⟨hgood.1, fun n hn => h.tree_eq_of_records_kept hgood.1 (fun _ _ => nodeIn_append) (.inr hn)⟩

/-- A forest after an allocation: some of its trees are kept, the new record's tree is put behind them. -/
theorem Forest.push {s : State} {q kept : List NodeId} {leaves leaves' : List (Symbol × Word)} (h : Forest s q leaves)
    (hkept : ∀ n ∈ kept, n ∈ q) (hroom : s.nodes.length < s.cfg.nodesMax.toNat) {nd : Node}
    (hnd : nd.okAt s.cfg s.nodes.length = true) {t : Tree} (ht : (s.withRecords [nd]).tree s.nodeCnt = t)
    (hwf : t.wf = true) (hsums : t.SumsWeights) (hperm : List.Perm (s.queueLeaves kept ++ t.weighted) leaves') :
    Forest (s.withRecords [nd]) (pqInsert s.nodeCnt kept) leaves' := by
  obtain ⟨hinv, hsame⟩ := h.inv.withRecord hroom hnd
  have hnew : (State.node? (s.withRecords [nd]) s.nodeCnt).isSome = true := by
    rw [State.withRecords, node?_nodeCnt hroom]; rfl
  have htree : ∀ n ∈ kept, (s.withRecords [nd]).tree n = s.tree n := fun n hn => hsame n (h.valid n (hkept n hn))
  refine ⟨hinv, fun n hn => ?_, fun n hn => ?_, ?_, fun _ => ⟨s.nodeCnt, mem_pqInsert.mpr (.inr rfl), ?_⟩⟩
  · rcases mem_pqInsert.mp hn with hold | rfl
    · exact h.valid.append rfl n (hkept n hold)
    · exact hnew
  · rcases mem_pqInsert.mp hn with hold | rfl
    · rw [htree n hold]; exact h.trees n (hkept n hold)
    · rw [ht]; exact ⟨hwf, hsums⟩
  · have hold : (s.withRecords [nd]).queueLeaves kept = s.queueLeaves kept := by
      rw [State.queueLeaves, State.queueLeaves, List.flatMap_def, List.flatMap_def,
        List.map_congr_left fun n hn => congrArg Tree.weighted (htree n hn)]
    rw [State.queueLeaves_pqInsert, hold, ht]
    exact hperm
  · rw [State.nodeCnt_toNat hroom, State.withRecords_nodes, List.length_append, List.length_singleton]

/-- One leaf more (R172). -/
theorem Forest.pushLeaf {s : State} {q : List NodeId} {leaves : List (Symbol × Word)} (h : Forest s q leaves)
    (hroom : s.nodes.length < s.cfg.nodesMax.toNat) {sym : Symbol} (hsym : sym.toNat < s.cfg.nsym) (w : Word) :
    Forest (s.withRecords [.leaf sym w]) (pqInsert s.nodeCnt q) (leaves ++ [(sym, w)]) :=
  h.push (fun _ hn => hn) hroom (by simpa [Node.okAt] using hsym) (State.tree_of_leaf (node?_nodeCnt hroom _)) rfl
    trivial (h.perm.append_right _)

/-- The leaves of two popped trees and of the rest are those of the queue. -/
theorem Forest.perm_of_pops {s : State} {q q1 q2 : List NodeId} {leaves : List (Symbol × Word)} {a b : NodeId}
    (h : Forest s q leaves) (ha : pqPopMin s q = some (a, q1)) (hb : pqPopMin s q1 = some (b, q2)) :
    List.Perm (s.queueLeaves q2 ++ ((s.tree a).weighted ++ (s.tree b).weighted)) leaves := by
  have hq : List.Perm q (a :: b :: q2) := (perm_of_pqPopMin ha).trans ((perm_of_pqPopMin hb).cons a)
  have hleaves : List.Perm (s.queueLeaves q) (s.queueLeaves (a :: b :: q2)) := hq.flatMap_right _
  refine List.perm_append_comm.trans (List.Perm.trans ?_ (hleaves.symm.trans h.perm))
  simp

/-- Two trees merged (R173). -/
theorem Forest.merge {s : State} {q q1 q2 : List NodeId} {leaves : List (Symbol × Word)} {a b : NodeId}
    (h : Forest s q leaves) (ha : pqPopMin s q = some (a, q1)) (hb : pqPopMin s q1 = some (b, q2))
    (hroom : s.nodes.length < s.cfg.nodesMax.toNat)
    (hsum : (s.tree a).weight.toNat + (s.tree b).weight.toNat < 2 ^ 32) :
    Forest (s.withRecords [.inner a b ((s.tree a).weight + (s.tree b).weight)]) (pqInsert s.nodeCnt q2) leaves := by
  obtain ⟨haq, hq1⟩ := pqPopMin_mem ha
  obtain ⟨hbq, hq2⟩ := pqPopMin_mem hb
  have hva := h.valid a haq
  have hvb := h.valid b (hq1 b hbq)
  have hnd : Node.okAt s.cfg s.nodes.length (.inner a b ((s.tree a).weight + (s.tree b).weight)) = true := by
    simp [Node.okAt, childBelow_of_node (.inr hva), childBelow_of_node (.inr hvb)]
  obtain ⟨hinv, hsame⟩ := h.inv.withRecord hroom hnd
  obtain ⟨hwfa, hsa⟩ := h.trees a haq
  obtain ⟨hwfb, hsb⟩ := h.trees b (hq1 b hbq)
  refine h.push (fun n hn => hq1 n (hq2 n hn)) hroom hnd (hinv.tree_of_inner (node?_nodeCnt hroom _)) ?_ ?_ ?_
  all_goals rw [hsame a hva, hsame b hvb]
  · simp [Tree.wf, hwfa, hwfb]
  · exact ⟨BitVec.toNat_add_of_lt hsum, hsa, hsb⟩
  · exact h.perm_of_pops ha hb

/-- The weights of two popped trees are at most the sum of all leaves. -/
theorem Forest.pops_weight_le {s : State} {q q1 q2 : List NodeId} {leaves : List (Symbol × Word)} {a b : NodeId}
    (h : Forest s q leaves) (ha : pqPopMin s q = some (a, q1)) (hb : pqPopMin s q1 = some (b, q2)) :
    (s.tree a).weight.toNat + (s.tree b).weight.toNat ≤ leafSum leaves := by
  obtain ⟨haq, hq1⟩ := pqPopMin_mem ha
  have hbq := hq1 b (pqPopMin_mem hb).1
  have hsum := leafSum_perm (h.perm_of_pops ha hb)
  simp only [leafSum_append] at hsum
  rw [Tree.weight_eq_leafSum (h.trees a haq).2, Tree.weight_eq_leafSum (h.trees b hbq).2]
  omega

/-! ### The merge loop (R171, R173) -/

/-- The loop on a queue that is not empty merges down to one tree, or raises at the first record without room or sum
that does not fit. -/
theorem tbLoop_cases {q : List NodeId} (hne : q ≠ []) {s : State} {leaves : List (Symbol × Word)}
    (h : Forest s q leaves) :
    (∃ root more, tbLoop q.length q s = .done root (s.withRecords more) ∧ more.length + 1 = q.length ∧
      Forest (s.withRecords more) [root] leaves) ∨
    ∃ more, tbLoop q.length q s = .raised .capacityExceeded (s.withRecords more) ∧ more.length + 1 < q.length ∧
      (∀ nd ∈ more, nd.isLeaf = false) ∧ s.nodes.length + more.length ≤ s.cfg.nodesMax.toNat ∧
      (leafSum leaves < 2 ^ 32 → s.nodes.length + more.length = s.cfg.nodesMax.toNat) := by
  induction hlen : q.length generalizing q s with
  | zero => exact absurd (List.length_eq_zero_iff.mp hlen) hne
  | succ fuel ih =>
    obtain ⟨x, xs, rfl⟩ := List.exists_cons_of_ne_nil hne
    obtain ⟨a, q1, ha⟩ := pqPopMin_cons s x xs
    have hlen1 := (perm_of_pqPopMin ha).length_eq
    cases q1 with
    | nil =>
      have hq : x :: xs = [a] := List.perm_singleton.mp (perm_of_pqPopMin ha)
      rw [hq] at h hlen
      exact .inl ⟨a, [], by rw [tbLoop_last ha, State.withRecords_nil], hlen, by simpa using h⟩
    | cons y ys =>
      obtain ⟨b, q2, hb⟩ := pqPopMin_cons s y ys
      have hlen2 := (perm_of_pqPopMin hb).length_eq
      have hle := h.pops_weight_le ha hb
      have hfit := h.inv.nodesFit
      simp only [List.length_cons] at hlen hlen1 hlen2
      rw [tbLoop_pops ha hb]
      by_cases hroom : s.nodes.length < s.cfg.nodesMax.toNat ∧
          (s.tree a).weight.toNat + (s.tree b).weight.toNat < 2 ^ 32
      · rw [tbMerge_room hroom.1 hroom.2, Run.andThen_done]
        rcases ih (pqInsert_ne_nil _ _) (h.merge ha hb hroom.1 hroom.2) (by rw [pqInsert_length]; omega)
          with ⟨root, more, hrun, hmore, hforest⟩ | ⟨more, hrun, hmore, hinner, hle', hfull⟩
        · exact .inl ⟨root, _ :: more, by simpa using hrun, by simpa using hmore, by simpa using hforest⟩
        · refine .inr ⟨_ :: more, by simpa using hrun, by simpa using hmore, ?_, ?_, fun hsum => ?_⟩
          · simpa [Node.isLeaf] using hinner
          · simpa [Nat.add_assoc, Nat.add_comm 1] using hle'
          · simpa [Nat.add_assoc, Nat.add_comm 1] using hfull hsum
      · rw [tbMerge_raised (by omega)]
        exact .inr ⟨[], by simp, by simp only [List.length_nil]; omega, by simp, by simpa using hfit,
          fun hsum => by simp only [List.length_nil]; omega⟩

/-! ### The leaves (R172) -/

/-- The leaf of an entry of the table. -/
def entryLeaf (e : Nat × Word) : Symbol × Word := (BitVec.ofNat 16 e.1, e.2)

/-- The leaf records of a table, in increasing symbol order. -/
def leafRecords (entries : List (Nat × Word)) : List Node := entries.map fun e => .leaf (BitVec.ofNat 16 e.1) e.2

/-- Every entry gets its leaf, or the store is full after some of them. -/
theorem tbLeaves_cases (entries : List (Nat × Word)) {q : List NodeId} {s : State} {leaves : List (Symbol × Word)}
    (h : Forest s q leaves) (hsym : ∀ e ∈ entries, e.1 < s.cfg.nsym) :
    (∃ q', tbLeaves entries q s = .done q' (s.withRecords (leafRecords entries)) ∧
      q'.length = q.length + entries.length ∧
      Forest (s.withRecords (leafRecords entries)) q' (leaves ++ entries.map entryLeaf)) ∨
    ∃ j, j < entries.length ∧ s.nodes.length + j = s.cfg.nodesMax.toNat ∧
      tbLeaves entries q s = .raised .capacityExceeded (s.withRecords ((leafRecords entries).take j)) := by
  induction entries generalizing q s leaves with
  | nil => exact .inl ⟨q, by simp [leafRecords, tbLeaves], rfl, by simpa [leafRecords] using h⟩
  | cons e entries ih =>
    obtain ⟨sym, c⟩ := e
    simp only [tbLeaves]
    by_cases hroom : s.nodes.length < s.cfg.nodesMax.toNat
    · have hlt : (BitVec.ofNat 16 sym).toNat < s.cfg.nsym :=
        Nat.lt_of_le_of_lt (Nat.mod_le _ _) (hsym (sym, c) (by simp))
      rw [allocNode_withRecords hroom, Run.andThen_done]
      rcases ih (h.pushLeaf hroom hlt c) (fun e he => hsym e (List.mem_cons_of_mem _ he))
        with ⟨q', hrun, hlen, hforest⟩ | ⟨j, hj, hfull, hrun⟩
      · refine .inl ⟨q', ?_, ?_, ?_⟩
        · simpa [leafRecords] using hrun
        · rw [hlen, pqInsert_length, List.length_cons, Nat.add_assoc, Nat.add_comm 1]
        · simpa [leafRecords, entryLeaf] using hforest
      · refine .inr ⟨j + 1, by simpa using hj, ?_, ?_⟩
        · simpa [Nat.add_assoc, Nat.add_comm 1] using hfull
        · simpa [leafRecords] using hrun
    · have hfull : s.nodes.length = s.cfg.nodesMax.toNat := Nat.le_antisymm h.inv.nodesFit (Nat.not_lt.mp hroom)
      exact .inr ⟨0, by simp, hfull, by simp [allocNode_full hfull]⟩

/-! ### `tb_build()` (R171, R176) -/

theorem nsym_le (c : Config) : c.nsym ≤ 2 ^ 16 := by
  unfold Config.nsym
  cases c.symW <;> decide

/-- A table's symbols are its addresses, held in 16 bits. -/
theorem State.Inv.entryLeaf_toNat {s : State} (h : s.Inv) {e : Nat × Word} (he : e ∈ s.ft) :
    (entryLeaf e).1.toNat = e.1 :=
  Nat.mod_eq_of_lt (Nat.lt_of_lt_of_le (h.ftSymbols e he) (nsym_le s.cfg))

theorem Memory.nodup_of_rising {α : Type} {lo : Nat} {m : List (Nat × α)} (h : Memory.rising lo m = true) :
    (m.map Prod.fst).Nodup := by
  induction m generalizing lo with
  | nil => simp
  | cons e m ih =>
    obtain ⟨-, hm⟩ := (Memory.rising_cons lo e m).mp h
    refine List.nodup_cons.mpr ⟨fun hmem => ?_, ih hm⟩
    obtain ⟨x, hx, heq⟩ := List.mem_map.mp hmem
    have hle := Memory.le_of_rising hm x hx
    omega

/-- The leaves of a table have pairwise distinct symbols (R25). -/
theorem State.Inv.entryLeaf_nodup {s : State} (h : s.Inv) : ((s.ft.map entryLeaf).map Prod.fst).Nodup := by
  have hsyms : ((s.ft.map entryLeaf).map Prod.fst).map BitVec.toNat = s.ft.map Prod.fst := by
    simp only [List.map_map]
    exact List.map_congr_left fun e he => h.entryLeaf_toNat he
  have hnodup := Memory.nodup_of_rising (Memory.wf_iff.mp h.ftCanonical).1
  rw [← hsyms] at hnodup
  exact List.Pairwise.of_map BitVec.toNat (fun _ _ hne heq => hne (congrArg BitVec.toNat heq)) hnodup

theorem leafSum_entries (entries : List (Nat × Word)) :
    leafSum (entries.map entryLeaf) = (entries.map fun e => e.2.toNat).sum := by
  simp [leafSum, entryLeaf, Function.comp_def]

/-- The two ways `tb_build()` can end, for a table that is not empty: with one tree of all the table's leaves, or at the
first record or sum that does not fit, with the records up to it. -/
theorem tbBuild_cases {s : State} (h : s.Inv) (hne : s.ft ≠ []) :
    (∃ root more, tbBuild s = .done root (s.withRecords more) ∧ more.length = 2 * s.ft.length - 1 ∧
      Forest (s.withRecords more) [root] (s.ft.map entryLeaf)) ∨
    ∃ more, tbBuild s = .raised .capacityExceeded (s.withRecords more) ∧ more.length < 2 * s.ft.length - 1 ∧
      s.nodes.length + more.length ≤ s.cfg.nodesMax.toNat ∧
      more.take s.ft.length = (leafRecords s.ft).take more.length ∧
      (∀ nd ∈ more.drop s.ft.length, nd.isLeaf = false) ∧
      ((s.ft.map fun e => e.2.toNat).sum < 2 ^ 32 → s.nodes.length + more.length = s.cfg.nodesMax.toNat) := by
  have hpos := List.length_pos_iff.mpr hne
  have hlen : (leafRecords s.ft).length = s.ft.length := List.length_map ..
  unfold tbBuild
  rcases tbLeaves_cases s.ft h.forest_nil h.ftSymbols with ⟨q, hrun, hq, hforest⟩ | ⟨j, hj, hfull, hrun⟩
  · rw [hrun, Run.andThen_done]
    simp only [List.length_nil, Nat.zero_add] at hq
    have hqne : q ≠ [] := List.length_pos_iff.mp (hq ▸ hpos)
    rcases tbLoop_cases hqne hforest
      with ⟨root, more, hloop, hmore, hroot⟩ | ⟨more, hloop, hmore, hinner, hroom, hsum⟩
    · refine .inl ⟨root, leafRecords s.ft ++ more, by simpa using hloop, ?_, by simpa using hroot⟩
      rw [List.length_append]
      omega
    · simp only [State.withRecords_nodes, State.withRecords_cfg, List.length_append, List.nil_append,
        leafSum_entries] at hroom hsum
      refine .inr ⟨leafRecords s.ft ++ more, by simpa using hloop, ?_, ?_, ?_, ?_, fun hfit => ?_⟩
      · rw [List.length_append]
        omega
      · rw [List.length_append]
        omega
      · rw [List.take_left' hlen, List.take_of_length_le (by simp)]
      · rwa [List.drop_left' hlen]
      · have := hsum hfit
        rw [List.length_append]
        omega
  · have hjlen : ((leafRecords s.ft).take j).length = j := List.length_take_of_le (by omega)
    refine .inr ⟨(leafRecords s.ft).take j, by rw [hrun]; rfl, ?_, ?_, ?_, ?_, fun _ => ?_⟩
    · omega
    · omega
    · rw [hjlen, List.take_take, Nat.min_eq_right (by omega)]
    · rw [List.drop_of_length_le (by omega)]
      simp
    · omega

/-- A forest of one tree: its leaves, and its root the newest record. -/
theorem Forest.root {s : State} {root : NodeId} {leaves : List (Symbol × Word)} (h : Forest s [root] leaves) :
    List.Perm (s.tree root).weighted leaves ∧ (s.tree root).wf = true ∧ (s.tree root).SumsWeights ∧
      root.toNat + 1 = s.nodes.length := by
  obtain ⟨hwf, hsums⟩ := h.trees root (by simp)
  obtain ⟨n, hn, hnew⟩ := h.newest (by simp)
  obtain rfl := List.mem_singleton.mp hn
  exact ⟨by simpa using h.perm, hwf, hsums, hnew⟩

theorem Tree.isHuffman_of_perm {t : Tree} {leaves : List (Symbol × Word)} (hwf : t.wf = true)
    (hperm : List.Perm t.weighted leaves) (hnodup : (leaves.map Prod.fst).Nodup) : t.IsHuffman :=
  ⟨hwf, by rw [t.leaves_eq_weighted]; exact (hperm.map Prod.fst).nodup_iff.mpr hnodup⟩

/-- The tree of all the table's leaves is as R176 says; its weight being a word, the counts sum within 32 bits. -/
theorem Forest.tree_of_table {s t : State} {root : NodeId} (hinv : s.Inv)
    (h : Forest t [root] (s.ft.map entryLeaf)) :
    (t.tree root).IsHuffman ∧ (t.tree root).SumsWeights ∧
      List.Perm (t.tree root).weighted (s.ft.map entryLeaf) ∧ (t.tree root).size = 2 * s.ft.length - 1 ∧
      (t.tree root).weight.toNat = (s.ft.map fun e => e.2.toNat).sum := by
  obtain ⟨hperm, hwf, hsums, -⟩ := h.root
  have hsize := Tree.size_of_wf hwf
  have hleaves : (t.tree root).leaves.length = s.ft.length := by
    rw [Tree.leaves_eq_weighted, List.length_map, hperm.length_eq, List.length_map]
  refine ⟨Tree.isHuffman_of_perm hwf hperm hinv.entryLeaf_nodup, hsums, hperm, by omega, ?_⟩
  rw [Tree.weight_eq_leafSum hsums, leafSum_perm hperm, leafSum_entries]

/-- Settles O35: the loop's invariant is the forest of the queue; a build that completes had the room and a sum within
32 bits, and one that raises lacked one of them. -/
theorem tbBuildMakesAHuffmanTree : Obligations.TbBuildMakesAHuffmanTree := by
  unfold Obligations.TbBuildMakesAHuffmanTree
  refine ⟨fun s hinv herr hne hover => ?_, fun s hinv herr hne hroom hsum => ?_⟩
  · rcases tbBuild_cases hinv hne with ⟨root, more, -, hlen, hforest⟩ | ⟨more, hrun, hmore⟩
    · have hfit := hforest.inv.nodesFit
      have hweight := ((s.withRecords more).tree root).weight.isLt
      obtain ⟨-, -, -, -, hsum⟩ := hforest.tree_of_table hinv
      rw [hsum] at hweight
      simp only [State.withRecords_nodes, State.withRecords_cfg, List.length_append] at hfit
      omega
    · exact ⟨more, exec_raised herr (acceptable_tbBuild s) hrun, hmore⟩
  · rcases tbBuild_cases hinv hne with ⟨root, more, hrun, hlen, hforest⟩ | ⟨more, -, hlt, -, -, -, hfull⟩
    · have htable := hforest.tree_of_table hinv
      obtain ⟨-, -, -, hnew⟩ := hforest.root
      have hpos := List.length_pos_iff.mpr hne
      simp only [State.withRecords_nodes, List.length_append] at hnew
      refine ⟨_, exec_done herr (acceptable_tbBuild s) hrun, rfl, ?_, ?_, ⟨more, rfl⟩, htable⟩
      · simp only
        omega
      · rw [← hlen, ← List.length_append]
        rfl
    · have := hfull hsum
      omega

end Sys2Proof.Machine
end

section
/-! PROOFS. The codebook of a built tree: codewords are paths, and their lengths times the counts sum to the weights of
the internal nodes: O60. -/

namespace Sys2Proof.Machine

/-! ### The walk lists paths (R186) -/

theorem Tree.walk_rising (t : Tree) (acc : Bits) {cb : List (Nat × Bits)} (h : Memory.rising 0 cb = true) :
    Memory.rising 0 (t.walk acc cb) = true := by
  induction t generalizing acc cb with
  | empty => exact h
  | leaf sym w => exact Memory.rising_insert h (Nat.zero_le _)
  | inner l r w ihl ihr => exact ihr _ (ihl _ h)

/-- The walk leaves each symbol the last of its paths behind the accumulator, or what was listed before. -/
theorem Tree.walk_get? (t : Tree) (acc : Bits) {cb : List (Nat × Bits)} (h : Memory.rising 0 cb = true) (n : Nat) :
    Memory.get? (t.walk acc cb) n =
      (((t.paths.filter fun e => e.1.toNat = n).getLast?).map fun e => acc ++ e.2).or (Memory.get? cb n) := by
  induction t generalizing acc cb with
  | empty => simp [Tree.walk, Tree.paths]
  | leaf sym w =>
    by_cases hn : sym.toNat = n <;> simp [Tree.walk, Tree.paths, Memory.get?_insert h, hn]
  | inner l r w ihl ihr =>
    rw [Tree.walk, ihr _ (l.walk_rising _ h), ihl _ h]
    simp [Tree.paths, List.filter_map, Function.comp_def, List.getLast?_append, Option.map_or, Option.or_assoc]

theorem Tree.leaves_eq_paths (t : Tree) : t.leaves = t.paths.map Prod.fst := by
  induction t with
  | empty => rfl
  | leaf sym w => rfl
  | inner l r w ihl ihr => simp [Tree.leaves, Tree.paths, Function.comp_def, ihl, ihr]

/-- An entry is known by its first part where these are distinct. -/
theorem eq_of_fst_eq_of_nodup {α β : Type} {l : List (α × β)} (h : (l.map Prod.fst).Nodup) {x y : α × β}
    (hx : x ∈ l) (hy : y ∈ l) (heq : x.1 = y.1) : x = y := by
  induction l with
  | nil => cases hx
  | cons e l ih =>
    rw [List.map_cons, List.nodup_cons] at h
    obtain ⟨hnew, hrest⟩ := h
    rcases List.mem_cons.mp hx with rfl | hxl
    · rcases List.mem_cons.mp hy with rfl | hyl
      · rfl
      · exact absurd (List.mem_map.mpr ⟨y, hyl, heq.symm⟩) hnew
    · rcases List.mem_cons.mp hy with rfl | hyl
      · exact absurd (List.mem_map.mpr ⟨x, hxl, heq⟩) hnew
      · exact ih hrest hxl hyl

/-- Where the leaf symbols are distinct, a symbol's only path is the one listed. -/
theorem Tree.walk_get?_of_path {t : Tree} (h : t.leaves.Nodup) {e : Symbol × Bits} (he : e ∈ t.paths) (acc : Bits) :
    Memory.get? (t.walk acc []) e.1.toNat = some (acc ++ e.2) := by
  have hmem : e ∈ t.paths.filter fun x => x.1.toNat = e.1.toNat := by simp [he]
  obtain ⟨x, hx⟩ := Option.isSome_iff_exists.mp (List.getLast?_isSome.mpr (List.ne_nil_of_mem hmem))
  obtain ⟨hxmem, hsym⟩ := List.mem_filter.mp (List.mem_of_getLast? hx)
  rw [Tree.leaves_eq_paths] at h
  obtain rfl : x = e := eq_of_fst_eq_of_nodup h hxmem he (BitVec.eq_of_toNat_eq (by simpa using hsym))
  rw [t.walk_get? acc rfl, hx]
  rfl

/-! ### Weighted path lengths (R254) -/

/-- Leaves `d` levels below a root: the weights times the lengths sum to `d` times the tree's weight and the weights of
its internal nodes. -/
theorem Tree.weighted_lengths_sum {t : Tree} (h : t.SumsWeights) {d : Nat} {len : Symbol → Nat}
    (hlen : ∀ e ∈ t.paths, len e.1 = d + e.2.length) :
    (t.weighted.map fun e => e.2.toNat * len e.1).sum = d * t.weight.toNat + t.innerWeights := by
  induction t generalizing d with
  | empty => simp [Tree.weighted, Tree.weight, Tree.innerWeights]
  | leaf sym w =>
    have hsym := hlen (sym, []) (by simp [Tree.paths])
    simp only [List.length_nil, Nat.add_zero] at hsym
    simp [Tree.weighted, Tree.weight, Tree.innerWeights, hsym, Nat.mul_comm]
  | inner l r w ihl ihr =>
    obtain ⟨hw, hl, hr⟩ := h
    have hleft := ihl hl (d := d + 1) fun e he => by
      have := hlen (e.1, false :: e.2) (by simp [Tree.paths, he])
      simp only [List.length_cons] at this
      omega
    have hright := ihr hr (d := d + 1) fun e he => by
      have := hlen (e.1, true :: e.2) (by simp [Tree.paths, he])
      simp only [List.length_cons] at this
      omega
    simp only [Tree.weighted, List.map_append, List.sum_append, Tree.weight, Tree.innerWeights]
    rw [hleft, hright, hw]
    simp only [Nat.add_mul, Nat.mul_add, Nat.one_mul]
    omega

/-- The length of a symbol's codeword, 0 where it has none. -/
def codeLength (cb : List (Nat × Bits)) (n : Nat) : Nat := ((Memory.get? cb n).getD []).length

/-- Below an internal root each codeword is as long as its leaf is deep. -/
theorem Tree.codebook_lengths_inner {l r : Tree} {w : Word} (hdistinct : (Tree.inner l r w).leaves.Nodup)
    (hsums : (Tree.inner l r w).SumsWeights) :
    ((Tree.inner l r w).weighted.map fun e =>
      e.2.toNat * codeLength (Tree.inner l r w).codebook e.1.toNat).sum = (Tree.inner l r w).innerWeights := by
  rw [Tree.weighted_lengths_sum hsums (d := 0) (len := fun sym => codeLength _ sym.toNat) fun e he => ?_, Nat.zero_mul,
    Nat.zero_add]
  rw [codeLength, Tree.codebook, Tree.walk_get?_of_path hdistinct he]
  simp

/-- A single leaf's codeword is one bit (R187). -/
theorem Tree.codebook_lengths_leaf (sym : Symbol) (w : Word) :
    ((Tree.leaf sym w).weighted.map fun e =>
      e.2.toNat * codeLength (Tree.leaf sym w).codebook e.1.toNat).sum = w.toNat := by
  simp [Tree.weighted, codeLength, Tree.codebook, Tree.walk, Memory.insert, Memory.get?_cons]

/-! ### `CB.DERIVE` of a built tree (R176, R190) -/

theorem acceptable_cbDerive {s : State} (h : s.arg0 = nilId ∨ (s.node? s.arg0).isSome = true) :
    acceptable .cbDerive s = true :=
  acceptable_iff.mpr ⟨by simpa [operandsLegal, operandTypes, legalAll, legal_tree_iff] using h, rfl⟩

/-- `CB.DERIVE` of a result passed on (R105, R185). -/
theorem eq_of_exec_cbDerive {t u : State} (hu : exec .cbDerive t.passResult = .next u) (herr : t.err = none)
    (h : t.res = nilId ∨ (t.node? t.res).isSome = true) :
    u = { t.passResult with cb := (t.tree t.res).codebook,
                            res := BitVec.ofNat 32 (t.tree t.res).codebook.length } := by
  have hexec := exec_done (s := t.passResult) herr (acceptable_cbDerive h) rfl
  rw [hexec] at hu
  exact (Host.Outcome.next.inj hu).symm

/-- A build without fault and the codebook derived from its result: the tree is that of the table, and the codebook
is the tree's. -/
theorem derived_of_built {s t u : State} (hinv : s.Inv) (herr : s.err = none) (hne : s.ft ≠ [])
    (ht : exec .tbBuild s = .next t) (hnone : t.err = none) (hu : exec .cbDerive t.passResult = .next u) :
    u.ft = s.ft ∧ u.cb = (u.tree u.arg0).codebook ∧ Forest t [u.arg0] (s.ft.map entryLeaf) ∧
      u.tree u.arg0 = t.tree u.arg0 := by
  rcases tbBuild_cases hinv hne with ⟨root, more, hrun, -, hforest⟩ | ⟨more, hrun, -⟩
  · rw [exec_done herr (acceptable_tbBuild s) hrun] at ht
    cases ht
    have hvalid : ((s.withRecords more).node? root).isSome = true := hforest.valid root (by simp)
    obtain rfl := eq_of_exec_cbDerive hu hnone (.inr hvalid)
    exact ⟨rfl, rfl, { hforest with inv := hforest.inv.setRes root }, rfl⟩
  · rw [exec_raised herr (acceptable_tbBuild s) hrun] at ht
    cases ht
    simp at hnone

/-- A sum over the entries of the table is a sum over the leaves of its tree. -/
theorem State.Inv.sum_entries {s : State} (h : s.Inv) {leaves : List (Symbol × Word)}
    (hperm : List.Perm leaves (s.ft.map entryLeaf)) (len : Nat → Nat) :
    (s.ft.map fun e => e.2.toNat * len e.1).sum = (leaves.map fun e => e.2.toNat * len e.1.toNat).sum := by
  rw [(hperm.map _).sum_nat, List.map_map]
  refine congrArg List.sum (List.map_congr_left fun e he => ?_)
  rw [Function.comp_apply, h.entryLeaf_toNat he]
  rfl

/-- Settles O60: the counts are the weights of the leaves, and the codewords their paths; the induction on the tree
counts each leaf once in every internal node above it. -/
theorem codewordLengthsSumToTheInnerWeights : Obligations.CodewordLengthsSumToTheInnerWeights := by
  unfold Obligations.CodewordLengthsSumToTheInnerWeights
  intro s t u hinv herr ht hnone hu
  by_cases hne : s.ft = []
  · rw [(tbBuildOfEmptyAndSingleTables s herr).1 hne] at ht
    cases ht
    obtain rfl := eq_of_exec_cbDerive hu hnone (.inl rfl)
    simp [hne]
  · obtain ⟨hft, hcb, hforest, htree⟩ := derived_of_built hinv herr hne ht hnone hu
    obtain ⟨⟨hwf, hdistinct⟩, hsums, hperm, hsize, hweight⟩ := hforest.tree_of_table hinv
    rw [← htree] at hwf hdistinct hsums hperm hsize hweight
    have hlens := hinv.sum_entries hperm (codeLength u.cb)
    have hcode : ∀ n, ((u.codeword n).getD []).length = codeLength u.cb n := fun _ => rfl
    simp only [hcode, hft, hlens]
    rw [hcb]
    cases hshape : u.tree u.arg0 with
    | empty => simp [hshape, Tree.wf] at hwf
    | leaf sym w =>
      rw [hshape] at hsize hweight
      rw [Tree.codebook_lengths_leaf]
      exact ⟨fun hlen => by simp only [Tree.size] at hsize; omega, fun _ => hweight⟩
    | inner l r w =>
      rw [hshape] at hwf hdistinct hsums hsize
      rw [Tree.codebook_lengths_inner hdistinct hsums]
      refine ⟨fun _ => rfl, fun hlen => ?_⟩
      have hleft := Tree.size_of_wf (Bool.and_eq_true_iff.mp hwf).1
      simp only [Tree.size] at hsize
      omega

end Sys2Proof.Machine
end

section
/-! PROOFS. `CB.DERIVE`: the codebook of any tree, which of its symbols have a codeword and that none begins
another: O36 to O38. -/

namespace Sys2Proof.Machine

/-! ### The paths of a tree -/

/-- Leaves stop the walk, so that a path that begins another is the same entry (R190); no symbol need be distinct. -/
theorem Tree.eq_of_path_prefix {t : Tree} {x y : Symbol × Bits} (hx : x ∈ t.paths) (hy : y ∈ t.paths)
    (hpre : x.2 <+: y.2) : x = y := by
  induction t generalizing x y with
  | empty => simp [Tree.paths] at hx
  | leaf sym w =>
    simp only [Tree.paths, List.mem_singleton] at hx hy
    rw [hx, hy]
  | inner l r w ihl ihr =>
    simp only [Tree.paths, List.mem_append, List.mem_map] at hx hy
    rcases hx with ⟨x, hx, rfl⟩ | ⟨x, hx, rfl⟩ <;> rcases hy with ⟨y, hy, rfl⟩ | ⟨y, hy, rfl⟩
    · rw [ihl hx hy (List.cons_prefix_cons.mp hpre).2]
    · simp at hpre
    · simp at hpre
    · rw [ihr hx hy (List.cons_prefix_cons.mp hpre).2]

/-- What the walk of a tree lists at `n` is the accumulator and a path to a leaf with that symbol. -/
theorem Tree.path_of_walk_get? {t : Tree} {acc code : Bits} {n : Nat}
    (h : Memory.get? (t.walk acc []) n = some code) : ∃ e ∈ t.paths, e.1.toNat = n ∧ acc ++ e.2 = code := by
  rw [t.walk_get? acc rfl, Memory.get?_nil, Option.or_none, Option.map_eq_some_iff] at h
  obtain ⟨e, hlast, hcode⟩ := h
  obtain ⟨he, hsym⟩ := List.mem_filter.mp (List.mem_of_getLast? hlast)
  exact ⟨e, he, by simpa using hsym, hcode⟩

theorem Tree.walk_prefixFree {t : Tree} {acc cm cn : Bits} {m n : Nat} (hmn : m ≠ n)
    (hm : Memory.get? (t.walk acc []) m = some cm) (hn : Memory.get? (t.walk acc []) n = some cn) : ¬ cm <+: cn := by
  intro hpre
  obtain ⟨x, hx, rfl, rfl⟩ := Tree.path_of_walk_get? hm
  obtain ⟨y, hy, rfl, rfl⟩ := Tree.path_of_walk_get? hn
  exact hmn (by rw [Tree.eq_of_path_prefix hx hy ((List.prefix_append_right_inj acc).mp hpre)])

theorem Tree.walk_get?_isSome {t : Tree} {acc : Bits} {n : Nat} :
    (Memory.get? (t.walk acc []) n).isSome = true ↔ ∃ sym ∈ t.leaves, sym.toNat = n := by
  rw [t.walk_get? acc rfl, Memory.get?_nil, Option.or_none, Option.isSome_map, List.getLast?_isSome, ne_eq,
    List.filter_eq_nil_iff, t.leaves_eq_paths]
  simp

/-! ### The codebook of a tree (R185 to R190) -/

theorem Tree.codebook_rising (t : Tree) : Memory.rising 0 t.codebook = true := by
  cases t with
  | empty => rfl
  | leaf sym w => exact Tree.walk_rising _ _ rfl
  | inner l r w => exact Tree.walk_rising _ _ rfl

@[simp] theorem Tree.codebook_leaf (sym : Symbol) (w : Word) : (Tree.leaf sym w).codebook = [(sym.toNat, [false])] :=
  rfl

/-- The symbols with a codeword are the leaf symbols. -/
theorem Tree.codebook_get?_isSome (t : Tree) (n : Nat) :
    (Memory.get? t.codebook n).isSome = true ↔ ∃ sym ∈ t.leaves, sym.toNat = n := by
  cases t with
  | empty => simp [Tree.codebook, Tree.leaves]
  | leaf sym w => exact Tree.walk_get?_isSome
  | inner l r w => exact Tree.walk_get?_isSome

theorem Tree.codebook_get?_ne_nil (t : Tree) (n : Nat) : Memory.get? t.codebook n ≠ some [] := by
  intro h
  obtain ⟨-, hentries⟩ := t.codebook_ok (2 ^ 16) fun sym _ => sym.isLt
  obtain ⟨-, hne⟩ := hentries _ (Memory.mem_of_get? h)
  exact hne rfl

/-- No codeword begins another symbol's, whether or not the tree is well-formed. -/
theorem Tree.codebook_prefixFree (t : Tree) {m n : Nat} {cm cn : Bits} (hmn : m ≠ n)
    (hm : Memory.get? t.codebook m = some cm) (hn : Memory.get? t.codebook n = some cn) : ¬ cm <+: cn := by
  cases t with
  | empty => simp [Tree.codebook] at hm
  | leaf sym w => exact Tree.walk_prefixFree hmn hm hn
  | inner l r w => exact Tree.walk_prefixFree hmn hm hn

/-- Below an internal root with distinct leaf symbols the codewords are the paths. -/
theorem Tree.codebook_get?_inner {l r : Tree} {w : Word} (h : (Tree.inner l r w).leaves.Nodup) (sym : Symbol)
    (code : Bits) :
    Memory.get? (Tree.inner l r w).codebook sym.toNat = some code ↔ (sym, code) ∈ (Tree.inner l r w).paths := by
  refine ⟨fun hget => ?_, fun hpath => Tree.walk_get?_of_path h hpath []⟩
  obtain ⟨⟨sym', code'⟩, he, hsym, rfl⟩ := Tree.path_of_walk_get? hget
  obtain rfl : sym' = sym := BitVec.eq_of_toNat_eq hsym
  exact he

/-- The keys of a canonical table are the addresses that are listed. -/
theorem Memory.mem_keys_iff {α : Type} {lo a : Nat} {m : List (Nat × α)} (h : Memory.rising lo m = true) :
    a ∈ m.map Prod.fst ↔ (Memory.get? m a).isSome = true := by
  rw [List.mem_map, Option.isSome_iff_exists]
  constructor
  · rintro ⟨⟨_, v⟩, hmem, rfl⟩
    exact ⟨v, Memory.get?_of_mem h hmem⟩
  · rintro ⟨v, hget⟩
    exact ⟨(a, v), Memory.mem_of_get? hget, rfl⟩

/-- One codeword per leaf where the leaf symbols are distinct. -/
theorem Tree.codebook_length {t : Tree} (h : t.leaves.Nodup) : t.codebook.length = t.leaves.length := by
  have hperm : List.Perm (t.codebook.map Prod.fst) (t.leaves.map BitVec.toNat) := by
    have hleaves : (t.leaves.map BitVec.toNat).Nodup :=
      List.Pairwise.map BitVec.toNat (fun _ _ hne heq => hne (BitVec.eq_of_toNat_eq heq)) h
    refine (List.perm_ext_iff_of_nodup (Memory.nodup_of_rising t.codebook_rising) hleaves).mpr fun n => ?_
    rw [Memory.mem_keys_iff t.codebook_rising, t.codebook_get?_isSome, List.mem_map]
  simpa using hperm.length_eq

/-! ### The command -/

section

variable {s : State}

/-- A tree that is not empty has a record at its root, so the operand check passes (R92). -/
theorem State.node?_isSome_of_tree {n : NodeId} (h : s.tree n ≠ .empty) : (s.node? n).isSome = true := by
  rw [Option.isSome_iff_ne_none]
  intro hnone
  rw [State.tree, unfoldTree, show nodeIn s.nodes n = none from hnone] at h
  exact h rfl

/-- An accepted `CB.DERIVE` completes with the codebook of its operand's tree (R185). -/
theorem exec_cbDerive (herr : s.err = none) (h : s.arg0 = nilId ∨ (s.node? s.arg0).isSome = true) :
    exec .cbDerive s = .next { s with cb := (s.tree s.arg0).codebook,
                                      res := BitVec.ofNat 32 (s.tree s.arg0).codebook.length } :=
  exec_done herr (acceptable_cbDerive h) rfl

end

/-- Settles O38: the codebook lists the paths of the tree, of which none begins another; the keys of the codebook are
the leaf symbols, both without repetition, so they are as many. -/
theorem cbDeriveOfAHuffmanTreeIsItsPaths : Obligations.CbDeriveOfAHuffmanTreeIsItsPaths := by
  unfold Obligations.CbDeriveOfAHuffmanTreeIsItsPaths
  rintro s herr ⟨hwf, hdistinct⟩
  have hroot : s.tree s.arg0 ≠ .empty := fun h => by simp [h, Tree.wf] at hwf
  refine ⟨_, exec_cbDerive herr (.inr (State.node?_isSome_of_tree hroot)), ?_, Tree.codebook_get?_isSome _,
    Tree.codebook_get?_ne_nil _, fun m n cm cn hmn hm hn => Tree.codebook_prefixFree _ hmn hm hn,
    fun hleaf => ?_, fun sym w hleaf => ?_⟩
  · rw [Tree.codebook_length hdistinct]
  · simp only [State.codeword]
    cases hshape : s.tree s.arg0 with
    | empty => exact absurd hshape hroot
    | leaf sym w => exact absurd hshape (hleaf sym w)
    | inner l r w => exact Tree.codebook_get?_inner (hshape ▸ hdistinct)
  · simp [State.codeword, hleaf, Memory.get?_cons]

/-- Settles O37: the walk begins with no bits and an empty codebook, and leaves each symbol the last of its paths. -/
theorem cbDeriveKeepsTheLastPath : Obligations.CbDeriveKeepsTheLastPath := by
  unfold Obligations.CbDeriveKeepsTheLastPath
  intro s herr l r w hshape
  refine ⟨_, exec_cbDerive herr (.inr (State.node?_isSome_of_tree (by simp [hshape]))), rfl, fun n => ?_⟩
  simp only [State.codeword, hshape]
  rw [Tree.codebook, Tree.walk_get? _ [] rfl]
  simp

/-- Settles O36: the two trees the walk does not start at with no bits, the empty one and the single leaf. -/
theorem cbDeriveOfEmptyTreeAndSingleLeaf : Obligations.CbDeriveOfEmptyTreeAndSingleLeaf := by
  unfold Obligations.CbDeriveOfEmptyTreeAndSingleLeaf
  intro s herr
  refine ⟨fun hnil => ?_, fun sym w hleaf => ?_⟩
  · rw [exec_cbDerive herr (.inl hnil), hnil, State.tree_nilId]
    rfl
  · rw [exec_cbDerive herr (.inr (by simp [hleaf])), State.tree_of_leaf hleaf]
    rfl

end Sys2Proof.Machine
end

section
/-! PROOFS. The encoder on a source without symbols: O50. -/

namespace Sys2Proof.Machine

theorem State.source_eq_nil {s : State} (h : s.src.len = 0#32) : s.source = [] := by
  simp [State.source, Space.contents, h]

@[simp] theorem State.payload_nil (s : State) : s.payload [] = [] := rfl

section

variable {sp : Space Byte} (h : sp.IsStream [])

include h

/-- The stream of no bits is its count alone (R98). -/
theorem Space.IsStream.len_of_nil : sp.len = 4#32 := BitVec.eq_of_toNat_eq h.length

theorem Space.IsStream.contents_of_nil : sp.contents 0#8 = [0#8, 0#8, 0#8, 0#8] := by
  have hcell : ∀ a ∈ List.range 4, sp.read 0#8 a = 0#8 := fun a ha => by
    have ha : a < 4 := List.mem_range.mp ha
    have hcount : (be32 (BitVec.ofNat 32 ([] : Bits).length))[a]? = some 0#8 := by
      rw [show be32 (BitVec.ofNat 32 ([] : Bits).length) = List.replicate 4 0#8 by decide,
        List.getElem?_replicate_of_lt ha]
    exact Option.some.inj ((h.prefixOk a ha).trans hcount)
  rw [Space.contents, h.len_of_nil]
  exact List.map_congr_left hcell

end

/-- Settles O50: the payload of no symbols is empty whatever the codebook, so O49 gives the stream of no bits. -/
theorem encRunOfEmptyInput : Obligations.EncRunOfEmptyInput := by
  unfold Obligations.EncRunOfEmptyInput
  intro s hinv hidle hfree hlen
  have hsource := State.source_eq_nil hlen
  obtain ⟨t, hexec, hstream, hres, hframe, habove⟩ :=
    encRunWritesThePayload s hinv hidle hfree (by simp [hsource]) (by simp [hsource])
  rw [hsource, State.payload_nil] at hstream hres
  have hzero : t.res = 0#32 := hres
  have hfour := hstream.len_of_nil
  rw [hzero] at hframe
  rw [hfour] at habove
  exact ⟨t, hexec, hzero, by rw [hframe], hfour, hstream.contents_of_nil, hframe, habove⟩

end Sys2Proof.Machine
end

section
/-! PROOFS. The decoder in a fault-free environment: the loop of `dec_run()` is `dec_step` on the delivered bits one
after another, and how `DEC.RUN` ends by where those steps lead; the empty tree and the single leaf: O53, O54. -/

namespace Sys2Proof.Machine

/-! ### One step of the decoder beside the reader (R224, R225) -/

section

variable {s : State} {b : Bool}

theorem decStep_noRoot (hroot : s.node? s.decRoot = none) : decStep b s = .raised .streamUnexpectedBit s := by
  simp [decStep, hroot]

theorem decStep_leafRoot {sym : Symbol} {w : Word} (hroot : s.node? s.decRoot = some (.leaf sym w)) :
    decStep b s = emit sym s := by
  simp [decStep, hroot]

section

variable {l r : NodeId} {w : Word} (hroot : s.node? s.decRoot = some (.inner l r w))

include hroot

theorem decStep_toMissing (h : s.node? (s.childAt b) = none) : decStep b s = .raised .streamUnexpectedBit s := by
  simp [decStep, hroot, decDescend, h]

theorem decStep_toInner {l' r' : NodeId} {w' : Word} (h : s.node? (s.childAt b) = some (.inner l' r' w')) :
    decStep b s = .done () { s with decCur := s.childAt b } := by
  simp [decStep, hroot, decDescend, h]

theorem decStep_toLeaf {sym : Symbol} {w' : Word} (h : s.node? (s.childAt b) = some (.leaf sym w')) :
    decStep b s =
      (emit sym { s with decCur := s.childAt b }).andThen fun _ t => .done () { t with decCur := t.decRoot } := by
  simp [decStep, hroot, decDescend, h]

end

end

/-- `emit` appends to `OUT` unless its length is at the maximum, beside the reader or without it (R224). -/
theorem emit_reading {s : State} (hfree : s.FaultFree) (sym : Symbol) (k : Nat) :
    (∃ o, emit sym s = .done () { s with out := o } ∧
      emit sym (s.reading k) = .done () ({ s with out := o }.reading k)) ∨
    (emit sym s = .raised .capacityExceeded s ∧
      emit sym (s.reading k) = .raised .capacityExceeded (s.reading k)) := by
  by_cases hfull : s.out.len = wordMax
  · exact .inr ⟨if_pos hfull, if_pos hfull⟩
  · exact .inl ⟨_, (if_neg hfull).trans (writeOut_faultFree hfree _ _),
      (if_neg hfull).trans (writeOut_faultFree (hfree.reading k) _ _)⟩

/-- A step of the decoder writes `OUT` and the cursor, and does not look at the reader. -/
theorem decStep_reading {s : State} (hfree : s.FaultFree) (b : Bool) (k : Nat) :
    (∃ o c, decStep b s = .done () { s with out := o, decCur := c } ∧
      decStep b (s.reading k) = .done () ({ s with out := o, decCur := c }.reading k)) ∨
    (∃ kind c, decStep b s = .raised kind { s with decCur := c } ∧
      decStep b (s.reading k) = .raised kind ({ s with decCur := c }.reading k)) := by
  cases hroot : s.node? s.decRoot with
  | none => exact .inr ⟨_, s.decCur, decStep_noRoot hroot, decStep_noRoot (s := s.reading k) hroot⟩
  | some root =>
    cases root with
    | leaf sym w =>
      have hstep := decStep_leafRoot (b := b) hroot
      have hread := decStep_leafRoot (s := s.reading k) (b := b) hroot
      rcases emit_reading hfree sym k with ⟨o, he, her⟩ | ⟨he, her⟩
      · exact .inl ⟨o, s.decCur, hstep.trans he, hread.trans her⟩
      · exact .inr ⟨_, s.decCur, hstep.trans he, hread.trans her⟩
    | inner l r w =>
      cases hchild : s.node? (s.childAt b) with
      | none =>
        exact .inr ⟨_, s.decCur, decStep_toMissing hroot hchild,
          decStep_toMissing (s := s.reading k) hroot hchild⟩
      | some child =>
        cases child with
        | inner l' r' w' =>
          exact .inl ⟨s.out, s.childAt b, decStep_toInner hroot hchild,
            decStep_toInner (s := s.reading k) hroot hchild⟩
        | leaf sym w' =>
          have hstep := decStep_toLeaf hroot hchild
          have hread := decStep_toLeaf (s := s.reading k) hroot hchild
          rcases emit_reading (s := { s with decCur := s.childAt b }) hfree sym k with ⟨o, he, her⟩ | ⟨he, her⟩
          · exact .inl ⟨o, s.decRoot, hstep.trans (congrArg (Run.andThen · _) he),
              hread.trans (congrArg (Run.andThen · _) her)⟩
          · exact .inr ⟨_, s.childAt b, hstep.trans (congrArg (Run.andThen · _) he),
              hread.trans (congrArg (Run.andThen · _) her)⟩

/-! ### The loop of `dec_run()` (R223) -/

theorem State.reading_brRem_toNat (s : State) (k : Nat) : (s.reading k).brRem.toNat = s.cmp.announced - k :=
  (BitVec.toNat_ofNat _ _).trans (Nat.mod_eq_of_lt (Nat.lt_of_le_of_lt (Nat.sub_le _ _) s.cmp.announced_lt))

theorem Space.delivered_length_lt (sp : Space Byte) : sp.delivered.length < 2 ^ 32 := by
  by_cases h : sp.len.toNat < 4
  · simp [Space.delivered, h]
  · rw [Space.delivered_length (Nat.le_of_not_lt h)]
    exact Nat.lt_of_le_of_lt (Nat.min_le_left _ _) sp.announced_lt

/-- `dec_step` on bits one after another. -/
def decSteps : Bits → State → Run Unit
  | [], s => .done () s
  | b :: bits, s => (decStep b s).andThen fun _ t => decSteps bits t

theorem decSteps_append (bits more : Bits) (s : State) :
    decSteps (bits ++ more) s = (decSteps bits s).andThen fun _ t => decSteps more t := by
  induction bits generalizing s with
  | nil => rfl
  | cons b bits ih =>
    simp only [List.cons_append, decSteps]
    cases decStep b s with
    | done u t => exact ih t
    | raised k t => rfl

/-- The same run with the reader beside it: at its end once the steps return, after `k` bits when they raise. -/
def Run.withReader (k : Nat) : Run Unit → Run Unit
  | .done u s => .done u { s.reading s.cmp.delivered.length with brShort := s.cmp.short }
  | .raised kind s => .raised kind (s.reading k)

section

variable {s : State} (h4 : 4 ≤ s.cmp.len.toNat)

include h4

/-- With all bits delivered the loop ends, by `EOS` or by its count, and `BR_SHORT` tells a short stream (R128). -/
theorem decLoop_ended (herr : s.err = none) {n : Nat} (hn : s.cmp.delivered.length + n = s.cmp.announced) :
    decLoop n (s.reading s.cmp.delivered.length) =
      .done () { s.reading s.cmp.delivered.length with brShort := s.cmp.short } := by
  have hend := (State.reading_ended herr h4).atEnd
  cases n with
  | zero =>
    have hrem : (s.reading s.cmp.delivered.length).brRem = 0#32 := by
      rw [State.reading, ← hn, Nat.add_zero, Nat.sub_self]
    obtain ⟨-, hshort⟩ := hend.resolve_right fun hrest => hrest.1 hrem
    rw [decLoop, ← hshort]
  | succ n =>
    rcases hend with ⟨hrem, hshort⟩ | ⟨hrem, hbuf, hptr, hshort⟩
    · rw [decLoop, brReadBit_atCount hrem, Run.andThen_done, ← hshort]
    · rw [decLoop, brReadBit_atLength hrem hbuf hptr, Run.andThen_done, hshort]

/-- The loop steps the decoder by the bits not yet delivered (R223). -/
theorem decLoop_reading (herr : s.err = none) (hfree : s.FaultFree) (bits : Bits) {pre : Bits} {n : Nat}
    (hbits : s.cmp.delivered = pre ++ bits) (hn : pre.length + n = s.cmp.announced) :
    ∃ k, decLoop n (s.reading pre.length) = (decSteps bits s).withReader k := by
  induction bits generalizing s pre n with
  | nil =>
    rw [List.append_nil] at hbits
    exact ⟨0, hbits ▸ decLoop_ended h4 herr (hbits ▸ hn)⟩
  | cons b bits ih =>
    have hk : pre.length < s.cmp.delivered.length := by rw [hbits, List.length_append, List.length_cons]; omega
    have hle : s.cmp.delivered.length ≤ s.cmp.announced := Space.delivered_length h4 ▸ Nat.min_le_left _ _
    obtain ⟨n, rfl⟩ : ∃ m, n = m + 1 := ⟨n - 1, by omega⟩
    have hbit : s.cmp.delivered[pre.length] = b := by simp [hbits]
    rw [decLoop, brReadBit_reading hfree h4 hk, Run.andThen_done, hbit, decSteps]
    rcases decStep_reading hfree b (pre.length + 1) with ⟨o, c, hstep, hread⟩ | ⟨kind, c, hstep, hread⟩
    · have hnext := ih (s := { s with out := o, decCur := c }) (pre := pre ++ [b]) (n := n) h4 herr hfree
        (by rw [List.append_assoc]; exact hbits)
        (by rw [List.length_append, List.length_singleton, Nat.add_assoc, Nat.add_comm 1 n]; exact hn)
      rw [List.length_append, List.length_singleton] at hnext
      simpa only [hstep, hread, Run.andThen_done] using hnext
    · exact ⟨pre.length + 1, by simp only [hstep, hread, Run.andThen_raised]; rfl⟩

end

/-! ### The decoder as a function of its cursor and the symbols emitted -/

/-- `OUT` after an open and the emission of `syms` (R61, R224). -/
def State.emitted (s : State) (syms : List Symbol) : Space Symbol := Space.append 0#16 syms { s.out with len := 0#32 }

/-- The state with the output opened in `s` and the symbols `syms` emitted since, the decoder at `cur` of the tree of
`ARG0`. -/
def State.decoding (s : State) (cur : NodeId) (syms : List Symbol) : State :=
  { s with out := s.emitted syms, outValid := false, decRoot := s.arg0, decCur := cur }

section

variable {s : State} {syms : List Symbol}

theorem State.emitted_len (h : syms.length < 2 ^ 32) : (s.emitted syms).len.toNat = syms.length :=
  (Space.append_len syms (sp := { s.out with len := 0#32 }) (by simpa using h)).trans (Nat.zero_add _)

theorem State.emitted_len_eq (h : syms.length < 2 ^ 32) : (s.emitted syms).len = BitVec.ofNat 32 syms.length := by
  rw [← State.emitted_len (s := s) h, BitVec.ofNat_toNat, BitVec.setWidth_eq]

theorem State.emitted_concat (sym : Symbol) :
    (s.emitted syms).put 0#16 (s.emitted syms).len.toNat sym = s.emitted (syms ++ [sym]) := by
  simp only [State.emitted, Space.append_append, Space.append]

/-- Below the length the symbols emitted, from it on what was there before the open (log entry 6). -/
theorem State.read_emitted (hinv : s.Inv) (h : syms.length < 2 ^ 32) (a : Nat) :
    (s.emitted syms).read 0#16 a = syms[a]?.getD (s.out.read 0#16 a) := by
  have hread := Space.read_append syms (sp := { s.out with len := 0#32 }) hinv.outOk.canonical (by simpa using h) a
  exact hread.trans (by simp)

theorem State.emitted_contents (hinv : s.Inv) (h : syms.length < 2 ^ 32) : (s.emitted syms).contents 0#16 = syms := by
  rw [Space.contents, State.emitted_len h]
  refine List.ext_getElem (by simp) fun a _ ha => ?_
  simp [State.read_emitted hinv h, ha]

theorem State.read_emitted_above (hinv : s.Inv) (h : syms.length < 2 ^ 32) (a : Nat)
    (ha : (s.emitted syms).len.toNat ≤ a) : (s.emitted syms).read 0#16 a = s.out.read 0#16 a := by
  rw [State.emitted_len h] at ha
  rw [State.read_emitted hinv h, List.getElem?_eq_none ha, Option.getD_none]

theorem emit_decoding {cur : NodeId} (hfree : s.FaultFree) (sym : Symbol) (h : syms.length + 1 < 2 ^ 32) :
    emit sym (s.decoding cur syms) = .done () (s.decoding cur (syms ++ [sym])) := by
  have hroom : (s.decoding cur syms).out.len ≠ wordMax := fun hfull => by
    have hlen := State.emitted_len (s := s) (Nat.lt_of_succ_lt h)
    rw [show (s.emitted syms).len = wordMax from hfull, show wordMax.toNat = 2 ^ 32 - 1 from rfl] at hlen
    omega
  rw [emit, if_neg hroom, writeOut_faultFree (s := s.decoding cur syms) hfree]
  simp only [State.decoding, State.emitted_concat]

end

/-! ### How `DEC.RUN` ends (R221, R223, R238) -/

section

variable {s : State}

theorem Space.delivered_tooShort {sp : Space Byte} (h : sp.len.toNat < 4) : sp.delivered = [] := if_pos h

theorem Space.short_tooShort {sp : Space Byte} (h : sp.len.toNat < 4) : sp.short = true := by simp [Space.short, h]

theorem decFinish_atRoot (hshort : s.brShort = false) (hcur : s.decCur = s.decRoot) :
    decFinish s = .done s.out.len { brRelease s with outValid := true } := if_neg (by simp [hshort, hcur])

theorem decFinish_truncated (h : s.brShort = true ∨ s.decCur ≠ s.decRoot) :
    decFinish s = .raised .streamTruncated s := if_pos (by simpa using h)

/-- A stream too short for its count: no bit, and `BR_SHORT` set by the open (R126). -/
theorem decRun_tooShort (hfree : s.FaultFree) (h : s.cmp.len.toNat < 4) :
    decRun s.arg0 s = .raised .streamTruncated { s.decoding s.arg0 [] with
      brOpen := true, brShort := true, brBuf := 0#8, brNbuf := 0#4, brRem := 0#32, brPtr := 0#32 } := by
  rw [decRun, brOpenRun_tooShort hfree h, Run.andThen_done, openWriteOut_faultFree]
  · rfl
  · exact hfree

/-- `dec_run()` is `dec_step` on the delivered bits, and the test at its end (R223). -/
theorem decRun_reading (herr : s.err = none) (hfree : s.FaultFree) (h4 : 4 ≤ s.cmp.len.toNat) :
    ∃ k, decRun s.arg0 s =
      ((decSteps s.cmp.delivered (s.decoding s.arg0 [])).withReader k).andThen fun _ t => decFinish t := by
  obtain ⟨k, hloop⟩ := decLoop_reading (s := s.decoding s.arg0 []) (pre := []) (n := s.cmp.announced) h4 herr hfree
    s.cmp.delivered rfl (Nat.zero_add _)
  refine ⟨k, ?_⟩
  rw [decRun, brOpenRun_reading hfree h4, Run.andThen_done, openWriteOut_faultFree (hfree.reading 0),
    Run.andThen_done, ← hloop]
  simp only [State.reading_brRem_toNat, Nat.sub_zero]
  rfl

section

variable (hidle : s.Idle) (hroot : s.arg0 = nilId ∨ (s.node? s.arg0).isSome = true) (hfree : s.FaultFree)
  {cur : NodeId} {syms : List Symbol}

include hidle hroot

/-- A raise drops the reader (R281); the values of the reader are whatever they were. -/
theorem exec_decRun_of_raised {kind : FaultKind} {t : State} {short : Bool} {buf : Byte} {nbuf : BitVec 4}
    {rem ptr : Word} (hrun : decRun s.arg0 s = .raised kind t)
    (ht : t = { s.decoding cur syms with
      brOpen := true, brShort := short, brBuf := buf, brNbuf := nbuf, brRem := rem, brPtr := ptr }) :
    exec .decRun s = .next { s.decoding cur syms with
      err := some kind, brShort := short, brBuf := buf, brNbuf := nbuf, brRem := rem, brPtr := ptr } := by
  have hwriter : t.bwOpen = false := by rw [ht]; exact hidle.noWriter
  rw [exec_raised hidle.noFault (acceptable_decRun_of_idle hidle hroot) hrun, State.raiseFault_noWriter kind hwriter,
    ht]
  simp [State.decoding, hidle.noFault, hidle.noReader]

include hfree

/-- At the root at the end of a stream that is not short (R223). -/
theorem exec_decRun_done (hshort : s.cmp.short = false)
    (hsteps : decSteps s.cmp.delivered (s.decoding s.arg0 []) = .done () (s.decoding s.arg0 syms)) :
    ∃ buf nbuf ptr, exec .decRun s = .next { s.decoding s.arg0 syms with
      brShort := false, brBuf := buf, brNbuf := nbuf, brRem := 0#32, brPtr := ptr, outValid := true,
      res := (s.emitted syms).len } := by
  have h4 : 4 ≤ s.cmp.len.toNat := Nat.le_of_not_lt fun h => by simp [Space.short_tooShort h] at hshort
  obtain ⟨k, hrun⟩ := decRun_reading hidle.noFault hfree h4
  have hrem : s.cmp.announced - s.cmp.delivered.length = 0 := by
    have hlen := Space.delivered_length h4
    simp [Space.short] at hshort
    omega
  obtain ⟨t, ht⟩ : ∃ t, t = { (s.decoding s.arg0 syms).reading s.cmp.delivered.length with
    brShort := s.cmp.short } := ⟨_, rfl⟩
  have hend := decFinish_atRoot (s := t) (by rw [ht]; exact hshort) (by rw [ht]; rfl)
  rw [hsteps, Run.withReader, Run.andThen_done] at hrun
  refine ⟨t.brBuf, t.brNbuf, t.brPtr, ?_⟩
  rw [exec_done hidle.noFault (acceptable_decRun_of_idle hidle hroot) (hrun.trans (ht ▸ hend)), ht]
  simp [State.decoding, State.reading, brRelease, hshort, hidle.noReader, hrem]

/-- `StreamTruncated`: the stream is short, or it ends off the root (R221). -/
theorem exec_decRun_truncated (hend : s.cmp.short = true ∨ cur ≠ s.arg0)
    (hsteps : decSteps s.cmp.delivered (s.decoding s.arg0 []) = .done () (s.decoding cur syms)) :
    ∃ buf nbuf rem ptr, exec .decRun s = .next { s.decoding cur syms with
      err := some .streamTruncated, brShort := s.cmp.short, brBuf := buf, brNbuf := nbuf, brRem := rem, brPtr := ptr } ∧
      (4 ≤ s.cmp.len.toNat → rem.toNat = s.cmp.announced - s.cmp.delivered.length) := by
  by_cases h4 : 4 ≤ s.cmp.len.toNat
  · obtain ⟨k, hrun⟩ := decRun_reading hidle.noFault hfree h4
    have hraise := decFinish_truncated (s := { (s.decoding cur syms).reading s.cmp.delivered.length with
      brShort := s.cmp.short }) hend
    rw [hsteps] at hrun
    refine ⟨_, _, _, _, exec_decRun_of_raised hidle hroot (hrun.trans hraise) rfl,
      fun _ => State.reading_brRem_toNat _ _⟩
  · have hlt : s.cmp.len.toNat < 4 := Nat.lt_of_not_le h4
    have hrun := decRun_tooShort hfree hlt
    rw [Space.delivered_tooShort hlt] at hsteps
    obtain ⟨-, hsame⟩ := Run.done.inj hsteps
    rw [hsame] at hrun
    rw [Space.short_tooShort hlt]
    exact ⟨_, _, _, _, exec_decRun_of_raised hidle hroot hrun rfl, fun h => absurd h h4⟩

/-- A step that raises ends the command (R280). -/
theorem exec_decRun_raised {kind : FaultKind}
    (hsteps : decSteps s.cmp.delivered (s.decoding s.arg0 []) = .raised kind (s.decoding cur syms)) :
    ∃ buf nbuf rem ptr, exec .decRun s = .next { s.decoding cur syms with
      err := some kind, brShort := false, brBuf := buf, brNbuf := nbuf, brRem := rem, brPtr := ptr } := by
  have h4 : 4 ≤ s.cmp.len.toNat := Nat.le_of_not_lt fun h => by
    rw [Space.delivered_tooShort h] at hsteps
    cases hsteps
  obtain ⟨k, hrun⟩ := decRun_reading hidle.noFault hfree h4
  rw [hsteps] at hrun
  exact ⟨_, _, _, _, exec_decRun_of_raised hidle hroot hrun rfl⟩

end

end

/-! ### The empty tree and the single leaf (R219, R220) -/

/-- With no root the first bit raises (R220). -/
theorem decSteps_empty {s : State} (hnil : s.arg0 = nilId) {bits : Bits} (hbits : bits ≠ []) :
    decSteps bits (s.decoding s.arg0 []) = .raised .streamUnexpectedBit (s.decoding s.arg0 []) := by
  obtain ⟨b, bits, rfl⟩ := List.exists_cons_of_ne_nil hbits
  have hroot : (s.decoding s.arg0 []).node? (s.decoding s.arg0 []).decRoot = none := by
    rw [show (s.decoding s.arg0 []).decRoot = nilId from hnil, State.node?_nilId]
  rw [decSteps, decStep_noRoot hroot, Run.andThen_raised]

/-- Settles O54: no step at all, or the first step, which raises. -/
theorem decRunOfTheEmptyTree : Obligations.DecRunOfTheEmptyTree := by
  unfold Obligations.DecRunOfTheEmptyTree
  intro s hidle hfree hnil
  have hnone (h : s.cmp.delivered = []) :
      decSteps s.cmp.delivered (s.decoding s.arg0 []) = .done () (s.decoding s.arg0 []) := by rw [h, decSteps]
  refine ⟨fun hbits hshort => ?_, fun hbits hshort => ?_, fun hbits => ?_⟩
  · obtain ⟨buf, nbuf, ptr, hexec⟩ := exec_decRun_done hidle (.inl hnil) hfree hshort (hnone hbits)
    exact ⟨_, hexec, hidle.noFault, rfl, rfl, rfl, rfl, fun _ => rfl⟩
  · obtain ⟨buf, nbuf, rem, ptr, hexec, -⟩ :=
      exec_decRun_truncated hidle (.inl hnil) hfree (.inl hshort) (hnone hbits)
    rw [hshort] at hexec
    exact ⟨_, hexec, rfl, rfl, fun _ => rfl⟩
  · obtain ⟨buf, nbuf, rem, ptr, hexec⟩ :=
      exec_decRun_raised hidle (.inl hnil) hfree (decSteps_empty hnil hbits)
    exact ⟨_, hexec, rfl, rfl, fun _ => rfl⟩

/-- With a leaf as root every bit emits its symbol (R219). -/
theorem decSteps_leaf {s : State} (hfree : s.FaultFree) {sym : Symbol} {w : Word}
    (hroot : s.node? s.arg0 = some (.leaf sym w)) (bits : Bits) {syms : List Symbol}
    (h : syms.length + bits.length < 2 ^ 32) :
    decSteps bits (s.decoding s.arg0 syms) =
      .done () (s.decoding s.arg0 (syms ++ List.replicate bits.length sym)) := by
  induction bits generalizing syms with
  | nil => rw [List.length_nil, List.replicate_zero, List.append_nil, decSteps]
  | cons b bits ih =>
    rw [List.length_cons] at h ⊢
    rw [decSteps, decStep_leafRoot hroot, emit_decoding hfree sym (by omega), Run.andThen_done,
      ih (by rw [List.length_append, List.length_singleton]; omega), List.replicate_succ, List.append_assoc,
      List.singleton_append]

/-- Settles O53: as many emissions as bits are delivered, and the cursor stays at the root. -/
theorem decRunOfASingleLeaf : Obligations.DecRunOfASingleLeaf := by
  unfold Obligations.DecRunOfASingleLeaf
  intro s sym w hinv hidle hfree hroot hshort
  have hlt := s.cmp.delivered_length_lt
  obtain ⟨buf, nbuf, ptr, hexec⟩ := exec_decRun_done hidle (.inr (by simp [hroot])) hfree hshort
    (decSteps_leaf hfree hroot s.cmp.delivered (by simpa using hlt))
  have hfits : (List.replicate s.cmp.delivered.length sym).length < 2 ^ 32 := by simpa using hlt
  refine ⟨_, hexec, hidle.noFault, rfl, State.emitted_contents hinv hfits, ?_, rfl,
    State.read_emitted_above hinv hfits⟩
  exact (State.emitted_len_eq hfits).trans (by simp)

end Sys2Proof.Machine
end

section
/-! PROOFS. The decoder on a tree with an internal root, in a fault-free environment: bits split into leaf paths and
what comes after them, and where `dec_step` leads on each: O55, O56. -/

namespace Sys2Proof.Machine

/-! ### Where bits lead in a tree (R215, R216) -/

/-- The paths from the root to the internal nodes. -/
def Tree.interior : Tree → List Bits
  | .empty => []
  | .leaf _ _ => []
  | .inner l r _ => [] :: ((l.interior.map fun p => false :: p) ++ (r.interior.map fun p => true :: p))

section

variable {l r : Tree} {w : Word} {b : Bool}

theorem Tree.cons_mem_paths {sym : Symbol} {p : Bits} :
    (sym, b :: p) ∈ (Tree.inner l r w).paths ↔ (sym, p) ∈ (if b then r else l).paths := by
  cases b <;> simp [Tree.paths]

theorem Tree.cons_mem_gaps {g : Bits} : b :: g ∈ (Tree.inner l r w).gaps ↔ g ∈ (if b then r else l).gaps := by
  cases b <;> simp [Tree.gaps]

theorem Tree.cons_mem_interior {p : Bits} :
    b :: p ∈ (Tree.inner l r w).interior ↔ p ∈ (if b then r else l).interior := by
  cases b <;> simp [Tree.interior]

/-- No leaf is the root of a tree with an internal root. -/
theorem Tree.path_ne_nil {y : Symbol × Bits} (hy : y ∈ (Tree.inner l r w).paths) : y.2 ≠ [] := by
  simp only [Tree.paths, List.mem_append, List.mem_map] at hy
  rcases hy with ⟨e, -, rfl⟩ | ⟨e, -, rfl⟩ <;> exact List.cons_ne_nil _ _

theorem Tree.gap_ne_nil {g : Bits} (hg : g ∈ (Tree.inner l r w).gaps) : g ≠ [] := by
  simp only [Tree.gaps, List.mem_append, List.mem_map] at hg
  rcases hg with ⟨e, -, rfl⟩ | ⟨e, -, rfl⟩ <;> exact List.cons_ne_nil _ _

end

/-- Bits lead to an internal node, or reach a leaf or a missing child on the way. -/
theorem Tree.interior_or_prefix (t : Tree) (bits : Bits) :
    bits ∈ t.interior ∨ (∃ y ∈ t.paths, y.2 <+: bits) ∨ ∃ g ∈ t.gaps, g <+: bits := by
  induction t generalizing bits with
  | empty => exact .inr (.inr ⟨[], List.mem_singleton_self _, List.nil_prefix⟩)
  | leaf sym w => exact .inr (.inl ⟨(sym, []), List.mem_singleton_self _, List.nil_prefix⟩)
  | inner l r w ihl ihr =>
    cases bits with
    | nil => exact .inl List.mem_cons_self
    | cons b bits =>
      have hchild : bits ∈ (if b then r else l).interior ∨ (∃ y ∈ (if b then r else l).paths, y.2 <+: bits) ∨
          ∃ g ∈ (if b then r else l).gaps, g <+: bits := by
        cases b
        · exact ihl bits
        · exact ihr bits
      rcases hchild with hin | ⟨y, hy, hpre⟩ | ⟨g, hg, hpre⟩
      · exact .inl (Tree.cons_mem_interior.mpr hin)
      · exact .inr (.inl ⟨(y.1, b :: y.2), Tree.cons_mem_paths.mpr hy, List.cons_prefix_cons.mpr ⟨rfl, hpre⟩⟩)
      · exact .inr (.inr ⟨b :: g, Tree.cons_mem_gaps.mpr hg, List.cons_prefix_cons.mpr ⟨rfl, hpre⟩⟩)

/-- All bits are leaf paths one after another, and then a path to an internal node or through a missing child. -/
theorem Tree.split_bits (l r : Tree) (w : Word) (bits : Bits) :
    ∃ (ys : List (Symbol × Bits)) (tail : Bits), (∀ y ∈ ys, y ∈ (Tree.inner l r w).paths) ∧
      bits = ys.flatMap (fun y => y.2) ++ tail ∧
      (tail ∈ (Tree.inner l r w).interior ∨ ∃ g ∈ (Tree.inner l r w).gaps, g <+: tail) := by
  induction hn : bits.length using Nat.strongRecOn generalizing bits with
  | ind n ih =>
    rcases Tree.interior_or_prefix (.inner l r w) bits with hin | ⟨y, hy, more, rfl⟩ | hgap
    · exact ⟨[], bits, by simp, rfl, .inl hin⟩
    · have hpos := List.length_pos_of_ne_nil (Tree.path_ne_nil hy)
      rw [List.length_append] at hn
      obtain ⟨ys, tail, hys, rfl, htail⟩ := ih more.length (by omega) more rfl
      exact ⟨y :: ys, tail, List.forall_mem_cons.mpr ⟨hy, hys⟩,
        by rw [List.flatMap_cons, List.append_assoc], htail⟩
    · exact ⟨[], bits, by simp, rfl, .inr hgap⟩

/-! ### Well-formed trees (R46) -/

theorem Tree.gaps_of_wf {t : Tree} (h : t.wf = true) : t.gaps = [] := by
  induction t with
  | empty => simp [Tree.wf] at h
  | leaf sym w => rfl
  | inner l r w ihl ihr =>
    simp only [Tree.wf, Bool.and_eq_true] at h
    simp [Tree.gaps, ihl h.1, ihr h.2]

/-- From an internal node of a well-formed tree a path goes on to a leaf. -/
theorem Tree.interior_extends {t : Tree} (h : t.wf = true) {p : Bits} (hp : p ∈ t.interior) :
    ∃ y ∈ t.paths, p <+: y.2 ∧ p ≠ y.2 := by
  induction t generalizing p with
  | empty => simp [Tree.interior] at hp
  | leaf sym w => simp [Tree.interior] at hp
  | inner l r w ihl ihr =>
    cases p with
    | nil =>
      obtain ⟨y, hy⟩ := List.exists_mem_of_ne_nil (Tree.inner l r w).paths fun hnone =>
        Tree.leaves_ne_nil h (by rw [Tree.leaves_eq_paths, hnone, List.map_nil])
      exact ⟨y, hy, List.nil_prefix, (Tree.path_ne_nil hy).symm⟩
    | cons b p =>
      simp only [Tree.wf, Bool.and_eq_true] at h
      rw [Tree.cons_mem_interior] at hp
      obtain ⟨y, hy, hpre, hne⟩ : ∃ y ∈ (if b then r else l).paths, p <+: y.2 ∧ p ≠ y.2 := by
        cases b
        · exact ihl h.1 hp
        · exact ihr h.2 hp
      exact ⟨(y.1, b :: y.2), Tree.cons_mem_paths.mpr hy, List.cons_prefix_cons.mpr ⟨rfl, hpre⟩,
        by simpa using hne⟩

/-! ### Trees and records (R29, R215) -/

section

variable {s : State} (hinv : s.Inv) {n : NodeId}

theorem State.tree_of_none (h : s.node? n = none) : s.tree n = .empty := by
  rw [State.tree, unfoldTree, show nodeIn s.nodes n = none from h]

theorem State.follow_cons {l r : NodeId} {w : Word} (h : s.node? n = some (.inner l r w)) (b : Bool) (bits : Bits) :
    s.follow n (b :: bits) = s.follow (if b then r else l) bits := by
  rw [State.follow, h]
  rfl

include hinv

/-- The tree of a node is made of its children's trees, and a bit selects the child's. -/
theorem State.Inv.tree_of_bit {l r : NodeId} {w : Word} (h : s.node? n = some (.inner l r w)) :
    ∃ tl tr, s.tree n = .inner tl tr w ∧ ∀ b : Bool, (if b then tr else tl) = s.tree (if b then r else l) :=
  ⟨_, _, hinv.tree_of_inner h, fun b => by cases b <;> rfl⟩

/-- Where the tree has an internal root, the record is internal. -/
theorem State.Inv.inner_of_tree {l r : Tree} {w : Word} (h : s.tree n = .inner l r w) :
    ∃ l' r', s.node? n = some (.inner l' r' w) := by
  cases hn : s.node? n with
  | none => simp [State.tree_of_none hn] at h
  | some nd =>
    cases nd with
    | leaf sym w' => simp [State.tree_of_leaf hn] at h
    | inner l' r' w' =>
      rw [hinv.tree_of_inner hn] at h
      obtain ⟨-, -, rfl⟩ := Tree.inner.inj h
      exact ⟨l', r', rfl⟩

theorem State.Inv.leaf_of_tree {sym : Symbol} {w : Word} (h : s.tree n = .leaf sym w) :
    s.node? n = some (.leaf sym w) := by
  cases hn : s.node? n with
  | none => simp [State.tree_of_none hn] at h
  | some nd =>
    cases nd with
    | leaf sym' w' =>
      rw [State.tree_of_leaf hn] at h
      obtain ⟨rfl, rfl⟩ := Tree.leaf.inj h
      rfl
    | inner l r w' => simp [hinv.tree_of_inner hn] at h

theorem State.Inv.inner_of_interior {p : Bits} (hp : p ∈ (s.tree n).interior) :
    ∃ l r w, s.node? n = some (.inner l r w) := by
  cases htree : s.tree n with
  | empty => simp [htree, Tree.interior] at hp
  | leaf sym w => simp [htree, Tree.interior] at hp
  | inner l r w =>
    obtain ⟨l', r', hn⟩ := hinv.inner_of_tree htree
    exact ⟨l', r', w, hn⟩

/-- Down the tree the ids fall (R29). -/
theorem State.Inv.follow_interior {p : Bits} (hp : p ∈ (s.tree n).interior) :
    (s.follow n p).toNat ≤ n.toNat ∧ (p ≠ [] → s.follow n p ≠ n) := by
  induction p generalizing n with
  | nil => exact ⟨Nat.le_refl _, fun h => absurd rfl h⟩
  | cons b p ih =>
    obtain ⟨l, r, w, hn⟩ := hinv.inner_of_interior hp
    obtain ⟨tl, tr, htree, hchild⟩ := hinv.tree_of_bit hn
    rw [htree, Tree.cons_mem_interior, hchild] at hp
    obtain ⟨l', r', w', hc⟩ := hinv.inner_of_interior hp
    have hold : (if b then r else l).toNat < n.toNat := by
      have hor : (if b then r else l) = nilId ∨ (if b then r else l).toNat < n.toNat := by
        obtain ⟨hl, hr⟩ := hinv.children_older hn
        cases b
        · exact hl
        · exact hr
      exact hor.resolve_left (nodeIn_eq_some.mp hc).1
    have hle := (ih hp).1
    rw [State.follow_cons hn]
    have hlt : (s.follow (if b then r else l) p).toNat < n.toNat := Nat.lt_of_le_of_lt hle hold
    exact ⟨Nat.le_of_lt hlt, fun _ heq => by rw [heq] at hlt; exact Nat.lt_irrefl _ hlt⟩

end

/-! ### Where `dec_step` leads on bits (R215 to R217, R222) -/

section

variable {s : State} {cur : NodeId} {syms : List Symbol}

/-- The child that a bit selects. -/
theorem State.childAt_decoding {l r : NodeId} {w : Word} (h : s.node? cur = some (.inner l r w)) (b : Bool) :
    (s.decoding cur syms).childAt b = if b then r else l := by
  simp only [State.childAt, show (s.decoding cur syms).node? (s.decoding cur syms).decCur = some (.inner l r w) from h]
  rfl

variable {l0 r0 : NodeId} {w0 : Word} (hinv : s.Inv) (hfree : s.FaultFree)
  (hroot : s.node? s.arg0 = some (.inner l0 r0 w0))

include hroot

/-- A bit that selects an internal node moves the cursor there (R215). -/
theorem decStep_decoding_toInner {l r l' r' : NodeId} {w w' : Word} {b : Bool}
    (hcur : s.node? cur = some (.inner l r w)) (hc : s.node? (if b then r else l) = some (.inner l' r' w')) :
    decStep b (s.decoding cur syms) = .done () (s.decoding (if b then r else l) syms) := by
  rw [decStep_toInner hroot (by rw [State.childAt_decoding hcur]; exact hc), State.childAt_decoding hcur]
  rfl

include hinv

/-- Along internal nodes the cursor follows the bits and nothing is emitted. -/
theorem decSteps_interior {p : Bits} (hp : p ∈ (s.tree cur).interior) :
    decSteps p (s.decoding cur syms) = .done () (s.decoding (s.follow cur p) syms) := by
  induction p generalizing cur with
  | nil => rfl
  | cons b p ih =>
    obtain ⟨l, r, w, hcur⟩ := hinv.inner_of_interior hp
    obtain ⟨tl, tr, htree, hchild⟩ := hinv.tree_of_bit hcur
    rw [htree, Tree.cons_mem_interior, hchild] at hp
    obtain ⟨l', r', w', hc⟩ := hinv.inner_of_interior hp
    rw [decSteps, decStep_decoding_toInner hroot hcur hc, Run.andThen_done, ih hp, State.follow_cons hcur]

/-- A path through a missing child raises at the node whose child is missing (R222). -/
theorem decSteps_gap {l r : NodeId} {w : Word} (hcur : s.node? cur = some (.inner l r w)) {g : Bits}
    (hg : g ∈ (s.tree cur).gaps) :
    decSteps g (s.decoding cur syms) =
      .raised .streamUnexpectedBit (s.decoding (s.follow cur g.dropLast) syms) := by
  induction g generalizing cur l r w with
  | nil => exact absurd rfl (Tree.gap_ne_nil (hinv.tree_of_inner hcur ▸ hg))
  | cons b g ih =>
    obtain ⟨tl, tr, htree, hchild⟩ := hinv.tree_of_bit hcur
    rw [htree, Tree.cons_mem_gaps, hchild] at hg
    have hat := State.childAt_decoding (syms := syms) hcur b
    rw [decSteps]
    cases hc : s.node? (if b then r else l) with
    | none =>
      rw [State.tree_of_none hc, Tree.gaps, List.mem_singleton] at hg
      rw [hg, decStep_toMissing hroot (by rw [hat]; exact hc)]
      rfl
    | some nd =>
      cases nd with
      | leaf sym w' => simp [State.tree_of_leaf hc, Tree.gaps] at hg
      | inner l' r' w' =>
        have hne : g ≠ [] := Tree.gap_ne_nil (hinv.tree_of_inner hc ▸ hg)
        rw [decStep_decoding_toInner hroot hcur hc, Run.andThen_done, ih hc hg,
          List.dropLast_cons_of_ne_nil hne, State.follow_cons hcur]

include hfree

/-- A path to a leaf emits its symbol and returns to the root (R217). -/
theorem decSteps_path {l r : NodeId} {w : Word} (hcur : s.node? cur = some (.inner l r w)) {sym : Symbol} {p : Bits}
    (hp : (sym, p) ∈ (s.tree cur).paths) (hfits : syms.length + 1 < 2 ^ 32) :
    decSteps p (s.decoding cur syms) = .done () (s.decoding s.arg0 (syms ++ [sym])) := by
  induction p generalizing cur l r w with
  | nil => exact absurd rfl (Tree.path_ne_nil (hinv.tree_of_inner hcur ▸ hp))
  | cons b p ih =>
    obtain ⟨tl, tr, htree, hchild⟩ := hinv.tree_of_bit hcur
    rw [htree, Tree.cons_mem_paths, hchild] at hp
    have hat := State.childAt_decoding (syms := syms) hcur b
    rw [decSteps]
    cases hc : s.node? (if b then r else l) with
    | none => simp [State.tree_of_none hc, Tree.paths] at hp
    | some nd =>
      cases nd with
      | leaf sym' w' =>
        rw [State.tree_of_leaf hc, Tree.paths, List.mem_singleton] at hp
        obtain ⟨rfl, rfl⟩ := Prod.mk.inj hp
        rw [decStep_toLeaf hroot (by rw [hat]; exact hc), hat]
        have hemit := emit_decoding (cur := if b then r else l) hfree sym hfits
        exact congrArg (fun run => (Run.andThen run _).andThen _) hemit
      | inner l' r' w' =>
        rw [decStep_decoding_toInner hroot hcur hc, Run.andThen_done, ih hc hp]

/-- Leaf paths one after another, from the root back to it (R217, R226). -/
theorem decSteps_paths {ys : List (Symbol × Bits)} (hys : ∀ y ∈ ys, y ∈ (s.tree s.arg0).paths)
    (hfits : syms.length + ys.length < 2 ^ 32) :
    decSteps (ys.flatMap fun y => y.2) (s.decoding s.arg0 syms) =
      .done () (s.decoding s.arg0 (syms ++ ys.map fun y => y.1)) := by
  induction ys generalizing syms with
  | nil => rw [List.map_nil, List.append_nil]; rfl
  | cons y ys ih =>
    obtain ⟨hy, hys⟩ := List.forall_mem_cons.mp hys
    rw [List.length_cons] at hfits
    rw [List.flatMap_cons, decSteps_append, decSteps_path hinv hfree hroot hroot hy (by omega), Run.andThen_done,
      ih hys (by rw [List.length_append, List.length_singleton]; omega), List.append_assoc, List.map_cons,
      List.singleton_append]

end

/-! ### `DEC.RUN` with an internal root (R226, R275, R276) -/

section

variable {s : State} {l r : Tree} {w : Word} {ys : List (Symbol × Bits)} {tail : Bits} (hinv : s.Inv)
  (htree : s.tree s.arg0 = .inner l r w) (hys : ∀ y ∈ ys, y ∈ (s.tree s.arg0).paths)

include htree

theorem State.operand_of_tree : s.arg0 = nilId ∨ (s.node? s.arg0).isSome = true :=
  .inr (State.node?_isSome_of_tree (by simp [htree]))

include hys

/-- Every path has a bit, so a stream emits no more symbols than it has bits. -/
theorem symbols_length_lt (hbits : s.cmp.delivered = ys.flatMap (fun y => y.2) ++ tail) :
    (ys.map fun y => y.1).length < 2 ^ 32 := by
  have hle : ys.length ≤ (ys.flatMap fun y => y.2).length := by
    have hsum := List.card_nsmul_le_sum (ys.map fun y => y.2.length) 1 fun n hn => by
      obtain ⟨y, hy, rfl⟩ := List.mem_map.mp hn
      exact List.length_pos_of_ne_nil (Tree.path_ne_nil (htree ▸ hys y hy))
    simpa [List.length_flatMap] using hsum
  have hlt := s.cmp.delivered_length_lt
  rw [hbits, List.length_append] at hlt
  rw [List.length_map]
  omega

variable (hfree : s.FaultFree)

include hinv hfree

/-- Once the paths are decoded the bits after them are decoded from the root. -/
theorem decSteps_delivered (hbits : s.cmp.delivered = ys.flatMap (fun y => y.2) ++ tail) :
    decSteps s.cmp.delivered (s.decoding s.arg0 []) =
      decSteps tail (s.decoding s.arg0 (ys.map fun y => y.1)) := by
  obtain ⟨l', r', hroot⟩ := hinv.inner_of_tree htree
  have hfits : ([] : List Symbol).length + ys.length < 2 ^ 32 := by
    simpa using symbols_length_lt htree hys hbits
  rw [hbits, decSteps_append, decSteps_paths hinv hfree hroot hys hfits, Run.andThen_done, List.nil_append]

/-- Bits that end at an internal node: the cursor is there. -/
theorem decSteps_delivered_interior (hbits : s.cmp.delivered = ys.flatMap (fun y => y.2) ++ tail)
    (htail : tail ∈ (s.tree s.arg0).interior) :
    decSteps s.cmp.delivered (s.decoding s.arg0 []) =
      .done () (s.decoding (s.follow s.arg0 tail) (ys.map fun y => y.1)) := by
  obtain ⟨l', r', hroot⟩ := hinv.inner_of_tree htree
  rw [decSteps_delivered hinv htree hys hfree hbits, decSteps_interior hinv hroot htail]

/-- Bits that lead through a missing child: the cursor is at the node whose child is missing. -/
theorem decSteps_delivered_gap {gap rest : Bits} (hgap : gap ∈ (s.tree s.arg0).gaps)
    (hbits : s.cmp.delivered = ys.flatMap (fun y => y.2) ++ (gap ++ rest)) :
    decSteps s.cmp.delivered (s.decoding s.arg0 []) =
      .raised .streamUnexpectedBit (s.decoding (s.follow s.arg0 gap.dropLast) (ys.map fun y => y.1)) := by
  obtain ⟨l', r', hroot⟩ := hinv.inner_of_tree htree
  rw [decSteps_delivered hinv htree hys hfree hbits, decSteps_append, decSteps_gap hinv hroot hroot hgap,
    Run.andThen_raised]

/-- Bits that end with a path: the cursor is at the root, and `DEC.RUN` completes unless the stream is short. -/
theorem exec_decRun_paths (hidle : s.Idle) (hbits : s.cmp.delivered = ys.flatMap fun y => y.2)
    (hshort : s.cmp.short = false) :
    (ys.map fun y => y.1).length < 2 ^ 32 ∧
      ∃ buf nbuf ptr, exec .decRun s = .next { s.decoding s.arg0 (ys.map fun y => y.1) with
        brShort := false, brBuf := buf, brNbuf := nbuf, brRem := 0#32, brPtr := ptr, outValid := true,
        res := (s.emitted (ys.map fun y => y.1)).len } := by
  have hnil : s.cmp.delivered = ys.flatMap (fun y => y.2) ++ [] := by rw [hbits, List.append_nil]
  exact ⟨symbols_length_lt htree hys hnil, exec_decRun_done hidle (State.operand_of_tree htree) hfree hshort
    (decSteps_delivered_interior hinv htree hys hfree hnil (htree ▸ List.mem_cons_self))⟩

end

/-- Settles O55: the delivered bits are leaf paths and then a path to an internal node or through a missing child; only
the empty path leaves the cursor at the root. -/
theorem decRunDecodesPaths : Obligations.DecRunDecodesPaths := by
  unfold Obligations.DecRunDecodesPaths
  intro s l r w hinv hidle hfree htree
  have hoperand := State.operand_of_tree htree
  refine ⟨fun ys hys hbits hshort => ?_, fun ys gap rest hys hgap hbits => ?_, fun t hexec herr => ?_⟩
  · obtain ⟨hfits, buf, nbuf, ptr, hexec⟩ := exec_decRun_paths hinv htree hys hfree hidle hbits hshort
    exact ⟨_, hexec, hidle.noFault, rfl, State.emitted_contents hinv hfits,
      (State.emitted_len_eq hfits).trans (by rw [List.length_map]), rfl, State.read_emitted_above hinv hfits⟩
  · rw [List.append_assoc] at hbits
    have hfits := symbols_length_lt htree hys hbits
    obtain ⟨buf, nbuf, rem, ptr, hexec⟩ :=
      exec_decRun_raised hidle hoperand hfree (decSteps_delivered_gap hinv htree hys hfree hgap hbits)
    exact ⟨_, hexec, State.emitted_contents hinv hfits, rfl, State.read_emitted_above hinv hfits⟩
  · obtain ⟨ys, tail, hys, hbits, hin | ⟨gap, hgap, rest, rfl⟩⟩ := Tree.split_bits l r w s.cmp.delivered
    · rw [← htree] at hys hin
      by_cases hend : s.cmp.short = true ∨ s.follow s.arg0 tail ≠ s.arg0
      · obtain ⟨buf, nbuf, rem, ptr, htrunc, -⟩ := exec_decRun_truncated hidle hoperand hfree hend
          (decSteps_delivered_interior hinv htree hys hfree hbits hin)
        rw [← Host.Outcome.next.inj (htrunc.symm.trans hexec)] at herr
        cases herr
      · obtain ⟨hshort, hcur⟩ := not_or.mp hend
        rw [Bool.not_eq_true] at hshort
        have hnil : tail = [] := by_contra fun hne => hcur ((hinv.follow_interior hin).2 hne)
        rw [hnil, List.append_nil] at hbits
        obtain ⟨hfits, buf, nbuf, ptr, hdone⟩ := exec_decRun_paths hinv htree hys hfree hidle hbits hshort
        rw [← Host.Outcome.next.inj (hdone.symm.trans hexec)]
        exact ⟨hshort, ys, hys, hbits, State.emitted_contents hinv hfits⟩
    · rw [← htree] at hys hgap
      obtain ⟨buf, nbuf, rem, ptr, hraise⟩ :=
        exec_decRun_raised hidle hoperand hfree (decSteps_delivered_gap hinv htree hys hfree hgap hbits)
      rw [← Host.Outcome.next.inj (hraise.symm.trans hexec)] at herr
      cases herr

/-! ### Truncated streams of well-formed trees (R221, R275) -/

/-- A well-formed tree has a child for every bit, so that the delivered bits end at an internal node. -/
theorem State.split_delivered {s : State} {l r : Tree} {w : Word} (hwf : (s.tree s.arg0).wf = true)
    (htree : s.tree s.arg0 = .inner l r w) :
    ∃ (ys : List (Symbol × Bits)) (tail : Bits), (∀ y ∈ ys, y ∈ (s.tree s.arg0).paths) ∧
      s.cmp.delivered = ys.flatMap (fun y => y.2) ++ tail ∧ tail ∈ (s.tree s.arg0).interior := by
  obtain ⟨ys, tail, hys, hbits, hin | ⟨gap, hgap, -⟩⟩ := Tree.split_bits l r w s.cmp.delivered
  · exact ⟨ys, tail, htree ▸ hys, hbits, htree ▸ hin⟩
  · rw [← htree, Tree.gaps_of_wf hwf] at hgap
    cases hgap

/-- On a well-formed tree no bit raises. -/
theorem decSteps_of_wf {s : State} (hinv : s.Inv) (hfree : s.FaultFree) (hwf : (s.tree s.arg0).wf = true) :
    ∃ cur syms, syms.length < 2 ^ 32 ∧
      decSteps s.cmp.delivered (s.decoding s.arg0 []) = .done () (s.decoding cur syms) := by
  cases htree : s.tree s.arg0 with
  | empty => simp [htree, Tree.wf] at hwf
  | leaf sym w =>
    have hlt := s.cmp.delivered_length_lt
    exact ⟨_, _, by simpa using hlt,
      decSteps_leaf hfree (hinv.leaf_of_tree htree) s.cmp.delivered (by simpa using hlt)⟩
  | inner l r w =>
    obtain ⟨ys, tail, hys, hbits, hin⟩ := State.split_delivered hwf htree
    exact ⟨_, _, symbols_length_lt htree hys hbits,
      decSteps_delivered_interior hinv htree hys hfree hbits hin⟩

/-- Settles O56: no bit raises, so that the end of the stream decides; off the root it is inside a codeword. -/
theorem decRunReportsTruncation : Obligations.DecRunReportsTruncation := by
  unfold Obligations.DecRunReportsTruncation
  intro s hinv hidle hfree hwf
  have hoperand : s.arg0 = nilId ∨ (s.node? s.arg0).isSome = true :=
    .inr (State.node?_isSome_of_tree fun hempty => by simp [hempty, Tree.wf] at hwf)
  refine ⟨fun hshort => ?_, fun l r w htree hcut => ?_⟩
  · obtain ⟨cur, syms, hfits, hsteps⟩ := decSteps_of_wf hinv hfree hwf
    obtain ⟨buf, nbuf, rem, ptr, hexec, -⟩ := exec_decRun_truncated hidle hoperand hfree (.inl hshort) hsteps
    rw [hshort] at hexec
    exact ⟨_, hexec, rfl, State.read_emitted_above hinv hfits⟩
  · obtain ⟨ys, tail, hys, hbits, hin⟩ := State.split_delivered hwf htree
    have hfits := symbols_length_lt htree hys hbits
    have hoff : s.cmp.short = false → s.follow s.arg0 tail ≠ s.arg0 := fun hshort => by
      refine (hinv.follow_interior hin).2 fun hnil => ?_
      rw [hnil, List.append_nil] at hbits
      exact hcut.resolve_left (by simp [hshort]) ⟨ys, hys, hbits⟩
    have hend : s.cmp.short = true ∨ s.follow s.arg0 tail ≠ s.arg0 := by
      cases hshort : s.cmp.short with
      | true => exact .inl rfl
      | false => exact .inr (hoff hshort)
    obtain ⟨buf, nbuf, rem, ptr, hexec, hrem⟩ := exec_decRun_truncated hidle hoperand hfree hend
      (decSteps_delivered_interior hinv htree hys hfree hbits hin)
    exact ⟨_, hexec, ⟨ys, tail, hys, hbits, Tree.interior_extends hwf hin, State.emitted_contents hinv hfits, rfl⟩,
      hoff, hrem, rfl, State.read_emitted_above hinv hfits⟩

end Sys2Proof.Machine
end

section
/-! PROOFS. The command port (R239) and `SYS.CLEAR` (R236): O6, O18. -/

namespace Sys2Proof.Machine

/-- Settles O6: the next action is performed at once, and each access to the port is one update of the state or none. -/
theorem portAccessesFollowTheRegisterMap : Obligations.PortAccessesFollowTheRegisterMap := by
  unfold Obligations.PortAccessesFollowTheRegisterMap
  intro s v rest
  exact ⟨fun _ h => step_cons h, ⟨rfl, rfl, rfl, rfl, rfl, rfl⟩, fun h => step_cons h, fun h => step_cons h,
    fun h => step_cons h, fun h => step_cons h, fun h => step_cons h⟩

@[simp] theorem State.clearSession_status (s : State) : s.clearSession.status = 0#32 := State.resetOf_status s.cfg

/-- `SYS.CLEAR` always completes (R236). -/
theorem exec_sysClear (s : State) : exec .sysClear s = .next (sysClear s).state := by
  have hexec := exec_eq_runCommand .sysClear s
  rw [hexec, exec_sysClear_eq hexec]
  rfl

/-- Settles O18: `SYS.CLEAR` leaves the column of R44 of a state in which only the quiet close has written `CMP`. -/
theorem sysClearStartsAFreshSession : Obligations.SysClearStartsAFreshSession := by
  unfold Obligations.SysClearStartsAFreshSession
  refine ⟨by decide, fun s => ⟨_, exec_sysClear s, ?_⟩⟩
  have hoperands : Part.same s (sysClear s).state .operands := sysClear_same (by simp) s
  have houtput : Part.same s (sysClear s).state .output := sysClear_same (by simp) s
  obtain ⟨harg0, harg1, harg2, hsrc, hcfg, hhost⟩ := hoperands
  refine ⟨State.clearSession_status _, rfl, rfl, rfl, rfl, rfl, rfl, rfl, rfl, rfl, rfl, rfl, rfl, rfl, rfl, rfl, rfl,
    rfl, rfl, rfl, harg0, harg1, harg2, hsrc, houtput, hcfg, hhost, fun hshut => ?_, fun hopen => ?_⟩
  · simp [sysClear, hshut]
  · simp [sysClear, hopen]

end Sys2Proof.Machine
end

section
/-! PROOFS. No pseudocode reads `RES`, and none but an operand fetch reads `ARG0`: the pieces that `SES.RUN` is made of
run the same whatever the two registers hold (R20, R21, R237). -/

namespace Sys2Proof.Machine

/-! ### Runs and the two port registers -/

/-- `s` with other values in `ARG0` and `RES`. -/
def State.withPort (a v : Word) (s : State) : State := { s with arg0 := a, res := v }

/-- A run with other values in `ARG0` and `RES`. -/
def Run.withPort {α : Type} (a v : Word) : Run α → Run α
  | .done b s => .done b (s.withPort a v)
  | .raised k s => .raised k (s.withPort a v)

/-- A piece of pseudocode to which `ARG0` and `RES` make no difference. -/
def PortFree {α : Type} (f : State → Run α) : Prop := ∀ a v s, f (s.withPort a v) = (f s).withPort a v

@[simp] theorem State.withPort_cmp (a v : Word) (s : State) : (s.withPort a v).cmp = s.cmp := rfl
@[simp] theorem State.withPort_bwBuf (a v : Word) (s : State) : (s.withPort a v).bwBuf = s.bwBuf := rfl
@[simp] theorem State.withPort_bwNbuf (a v : Word) (s : State) : (s.withPort a v).bwNbuf = s.bwNbuf := rfl

theorem Run.state_withPort {α : Type} (a v : Word) (r : Run α) : (r.withPort a v).state = r.state.withPort a v := by
  cases r <;> rfl

theorem PortFree.andThen {α β : Type} {f : State → Run α} {g : α → State → Run β} (hf : PortFree f)
    (hg : ∀ b, PortFree (g b)) : PortFree fun s => (f s).andThen g := by
  intro a v s
  simp only [hf a v s]
  cases f s with
  | done b t => exact hg b a v t
  | raised k t => rfl

theorem PortFree.ite {α : Type} {c : State → Prop} [∀ s, Decidable (c s)] {f g : State → Run α}
    (hc : ∀ a v s, c (s.withPort a v) ↔ c s) (hf : PortFree f) (hg : PortFree g) :
    PortFree fun s => if c s then f s else g s := by
  intro a v s
  by_cases h : c s
  · simpa only [hc a v s, h, if_true] using hf a v s
  · simpa only [hc a v s, h, if_false] using hg a v s

/-- An operation at a place, or on a value, that it takes from a part of the state beside the two registers. -/
theorem PortFree.reading {α β : Type} {p : State → α} {f : α → State → Run β}
    (hp : ∀ a v s, p (s.withPort a v) = p s) (hf : ∀ b, PortFree (f b)) : PortFree fun s => f (p s) s := by
  intro a v s
  simp only [hp a v s, hf (p s) a v s]

/-- An operation after an update that leaves the two registers. -/
theorem PortFree.after {α : Type} {g : State → State} {f : State → Run α}
    (hg : ∀ a v s, g (s.withPort a v) = (g s).withPort a v) (hf : PortFree f) : PortFree fun s => f (g s) := by
  intro a v s
  simp only [hg a v s, hf a v (g s)]

/-! ### Accesses (R61) -/

theorem ask_withPort (a v : Word) (s : State) : ask (s.withPort a v) = ((ask s).1, (ask s).2.withPort a v) := by
  rw [ask_eq, ask_eq]
  rfl

theorem openRead_portFree : PortFree openRead := fun a v s => by
  simp only [openRead, ask_withPort]
  rcases ask s with ⟨_ | _, t⟩ <;> rfl

theorem openWriteCmp_portFree : PortFree openWriteCmp := fun a v s => by
  simp only [openWriteCmp, ask_withPort]
  rcases ask s with ⟨_ | _, t⟩ <;> rfl

theorem openWriteOut_portFree : PortFree openWriteOut := fun a v s => by
  simp only [openWriteOut, ask_withPort]
  rcases ask s with ⟨_ | _, t⟩ <;> rfl

theorem readSrc_portFree (i : Nat) : PortFree (readSrc i) := fun a v s => by
  simp only [readSrc, ask_withPort]
  rcases ask s with ⟨_ | _, t⟩ <;> rfl

theorem readCmp_portFree (i : Nat) : PortFree (readCmp i) := fun a v s => by
  simp only [readCmp, ask_withPort]
  rcases ask s with ⟨_ | _, t⟩ <;> rfl

theorem writeOut_portFree (i : Nat) (sym : Symbol) : PortFree (writeOut i sym) := fun a v s => by
  simp only [writeOut, ask_withPort]
  rcases ask s with ⟨_ | _, t⟩ <;> rfl

theorem writeCmp_portFree (i : Nat) (b : Byte) : PortFree (writeCmp i b) := fun a v s => by
  simp only [writeCmp, ask_withPort]
  rcases ask s with ⟨_ | _, t⟩
  · by_cases hfull : i = t.cmp.len.toNat ∧ t.cmp.len = wordMax <;> simp [State.withPort, Run.withPort, hfull]
  · rfl

theorem writeCmpBytes_portFree (bs : List Byte) (i : Nat) : PortFree (writeCmpBytes i bs) := by
  induction bs generalizing i with
  | nil => exact fun _ _ _ => rfl
  | cons b bs ih => exact (writeCmp_portFree i b).andThen fun _ => ih (i + 1)

/-! ### The frequency counter and the tree builder -/

theorem fcStep_portFree (sym : Symbol) : PortFree (fcStep sym) :=
  PortFree.ite (c := fun s => s.count sym.toNat = wordMax) (fun _ _ _ => Iff.rfl) (fun _ _ _ => rfl) fun _ _ _ => rfl

theorem fcLoop_portFree (remaining i : Nat) : PortFree (fcLoop remaining i) := by
  induction remaining generalizing i with
  | zero => exact fun _ _ _ => rfl
  | succ n ih => exact (readSrc_portFree i).andThen fun sym => (fcStep_portFree sym).andThen fun _ => ih (i + 1)

theorem fcCount_portFree : PortFree fcCount :=
  PortFree.after (g := fun s => { s with ft := [] }) (fun _ _ _ => rfl) <|
    openRead_portFree.andThen fun _ =>
      PortFree.reading (p := fun s => s.src.len.toNat) (fun _ _ _ => rfl) fun n =>
        (fcLoop_portFree n 0).andThen fun _ _ _ _ => rfl

theorem allocNode_portFree (nd : Node) : PortFree (allocNode nd) :=
  PortFree.ite (c := fun s => s.cfg.nodesMax.toNat ≤ s.nodes.length) (fun _ _ _ => Iff.rfl) (fun _ _ _ => rfl)
    fun _ _ _ => rfl

theorem tbLeaves_portFree (entries : List (Nat × Word)) (q : List NodeId) : PortFree (tbLeaves entries q) := by
  induction entries generalizing q with
  | nil => exact fun _ _ _ => rfl
  | cons e entries ih => exact (allocNode_portFree _).andThen fun n => ih (pqInsert n q)

theorem pqMin_withPort (a v : Word) (s : State) (n : NodeId) (q : List NodeId) :
    pqMin (s.withPort a v) n q = pqMin s n q := by
  induction q generalizing n with
  | nil => rfl
  | cons m q ih =>
    have hkey (x : NodeId) : (s.withPort a v).key x = s.key x := rfl
    simp only [pqMin, hkey, ih]

theorem pqPopMin_withPort (a v : Word) (s : State) (q : List NodeId) : pqPopMin (s.withPort a v) q = pqPopMin s q := by
  cases q with
  | nil => rfl
  | cons n q => simp only [pqPopMin, pqMin_withPort]

theorem tbMerge_portFree (l r : NodeId) : PortFree (tbMerge l r) :=
  PortFree.ite (c := fun s => wordMax.toNat < (s.tree l).weight.toNat + (s.tree r).weight.toNat) (fun _ _ _ => Iff.rfl)
    (fun _ _ _ => rfl) fun a v s => allocNode_portFree _ a v s

theorem tbLoop_portFree (fuel : Nat) (q : List NodeId) : PortFree (tbLoop fuel q) := by
  induction fuel generalizing q with
  | zero => exact fun _ _ _ => rfl
  | succ n ih =>
    intro a v s
    simp only [tbLoop, pqPopMin_withPort]
    split
    · rfl
    · next l q1 _ =>
      split
      · rfl
      · next r q2 _ => exact ((tbMerge_portFree l r).andThen fun m => ih (pqInsert m q2)) a v s

theorem tbBuild_portFree : PortFree tbBuild :=
  PortFree.reading (p := State.ft) (fun _ _ _ => rfl) fun ft =>
    (tbLeaves_portFree ft []).andThen fun q => tbLoop_portFree q.length q

theorem cbDerive_portFree (root : NodeId) : PortFree (cbDerive root) := fun _ _ _ => rfl

/-! ### The writer and the encoder -/

theorem bwOpenRun_portFree : PortFree bwOpenRun :=
  openWriteCmp_portFree.andThen fun _ => PortFree.after (fun _ _ _ => rfl) (writeCmpBytes_portFree _ 0)

/-- The buffered byte written at `CMP_LEN`. -/
theorem writeBuf_portFree : PortFree fun s => writeCmp s.cmp.len.toNat s.bwBuf s :=
  PortFree.reading (p := fun s => s.cmp.len.toNat) (fun _ _ _ => rfl) fun i =>
    PortFree.reading (p := State.bwBuf) (fun _ _ _ => rfl) fun b => writeCmp_portFree i b

theorem bwWriteBit_portFree (b : Bool) : PortFree (bwWriteBit b) :=
  PortFree.ite (c := fun s => s.bwTotal = wordMax) (fun _ _ _ => Iff.rfl) (fun _ _ _ => rfl) <|
    PortFree.ite (c := fun s => s.bwNbuf = 7#3) (fun _ _ _ => Iff.rfl)
      (PortFree.after (g := fun s => { s with
          bwBuf := setBit s.bwBuf (7 - s.bwNbuf.toNat) b, bwTotal := s.bwTotal + 1#32 })
        (fun _ _ _ => rfl) (writeBuf_portFree.andThen fun _ _ _ _ => rfl))
      fun _ _ _ => rfl

theorem bwFlush_portFree : PortFree bwFlush :=
  PortFree.ite (c := fun s => s.bwNbuf = 0#3) (fun _ _ _ => Iff.rfl) (fun _ _ _ => rfl)
    (writeBuf_portFree.andThen fun _ _ _ _ => rfl)

theorem bwCloseRun_portFree : PortFree bwCloseRun :=
  bwFlush_portFree.andThen fun _ =>
    PortFree.reading (p := fun s => be32 s.bwTotal) (fun _ _ _ => rfl) fun bs =>
      (writeCmpBytes_portFree bs 0).andThen fun _ _ _ _ => rfl

theorem writeBits_portFree (bs : Bits) : PortFree (writeBits bs) := by
  induction bs with
  | nil => exact fun _ _ _ => rfl
  | cons b bs ih => exact (bwWriteBit_portFree b).andThen fun _ => ih

theorem encSymbol_portFree (sym : Symbol) : PortFree (encSymbol sym) := fun a v s => by
  have hcode : (s.withPort a v).codeword sym.toNat = s.codeword sym.toNat := rfl
  unfold encSymbol
  rw [hcode]
  cases s.codeword sym.toNat with
  | none => rfl
  | some code => exact writeBits_portFree code a v s

theorem encLoop_portFree (remaining i : Nat) : PortFree (encLoop remaining i) := by
  induction remaining generalizing i with
  | zero => exact fun _ _ _ => rfl
  | succ n ih =>
    exact (readSrc_portFree i).andThen fun sym => (encSymbol_portFree sym).andThen fun _ => ih (i + 1)

theorem encRun_portFree : PortFree encRun :=
  bwOpenRun_portFree.andThen fun _ => openRead_portFree.andThen fun _ =>
    PortFree.reading (p := fun s => s.src.len.toNat) (fun _ _ _ => rfl) fun n =>
      (encLoop_portFree n 0).andThen fun _ => bwCloseRun_portFree

/-! ### The reader and the decoder -/

theorem readPrefix_portFree (as : List Nat) (n : Word) : PortFree (readPrefix as n) := by
  induction as generalizing n with
  | nil => exact fun _ _ _ => rfl
  | cons i as ih => exact (readCmp_portFree i).andThen fun _ => ih _

theorem brOpenRun_portFree : PortFree brOpenRun := by
  have hprefix : PortFree fun s => if s.cmp.len.toNat < 4 then .done 0#32 { s with brShort := true } else
      (readPrefix [0, 1, 2, 3] 0#32 s).andThen fun n s1 => .done n { s1 with brRem := n, brPtr := 4#32 } :=
    PortFree.ite (c := fun s => s.cmp.len.toNat < 4) (fun _ _ _ => Iff.rfl) (fun _ _ _ => rfl)
      ((readPrefix_portFree _ _).andThen fun _ _ _ _ => rfl)
  exact openRead_portFree.andThen fun _ => PortFree.after (g := fun s => { s with
    brOpen := true, brShort := false, brBuf := 0#8, brNbuf := 0#4, brRem := 0#32, brPtr := 0#32 })
    (fun _ _ _ => rfl) hprefix

theorem brReadBit_portFree : PortFree brReadBit :=
  PortFree.ite (c := fun s => s.brRem = 0#32) (fun _ _ _ => Iff.rfl) (fun _ _ _ => rfl) <|
    PortFree.ite (c := fun s => s.brNbuf = 0#4) (fun _ _ _ => Iff.rfl)
      (PortFree.ite (c := fun s => s.cmp.len.toNat ≤ s.brPtr.toNat) (fun _ _ _ => Iff.rfl) (fun _ _ _ => rfl) <|
        PortFree.reading (p := fun s => s.brPtr.toNat) (fun _ _ _ => rfl) fun i =>
          (readCmp_portFree i).andThen fun _ _ _ _ => rfl)
      fun _ _ _ => rfl

theorem emit_portFree (sym : Symbol) : PortFree (emit sym) :=
  PortFree.ite (c := fun s => s.out.len = wordMax) (fun _ _ _ => Iff.rfl) (fun _ _ _ => rfl) <|
    PortFree.reading (p := fun s => s.out.len.toNat) (fun _ _ _ => rfl) fun i => writeOut_portFree i sym

theorem decDescend_portFree (b : Bool) : PortFree (decDescend b) := fun a v s => by
  have hchild : (s.withPort a v).node? ((s.withPort a v).childAt b) = s.node? (s.childAt b) := rfl
  unfold decDescend
  rw [hchild]
  cases s.node? (s.childAt b) with
  | none => rfl
  | some nd =>
    cases nd with
    | inner l r w => rfl
    | leaf sym w =>
      exact (PortFree.after (g := fun t => { t with decCur := t.childAt b }) (fun _ _ _ => rfl)
        ((emit_portFree sym).andThen fun _ _ _ _ => rfl)) a v s

theorem decStep_portFree (b : Bool) : PortFree (decStep b) := fun a v s => by
  have hroot : (s.withPort a v).node? (s.withPort a v).decRoot = s.node? s.decRoot := rfl
  unfold decStep
  rw [hroot]
  cases s.node? s.decRoot with
  | none => rfl
  | some nd =>
    cases nd with
    | inner l r w => exact decDescend_portFree b a v s
    | leaf sym w => exact emit_portFree sym a v s

theorem decLoop_portFree (fuel : Nat) : PortFree (decLoop fuel) := by
  induction fuel with
  | zero => exact fun _ _ _ => rfl
  | succ n ih =>
    refine brReadBit_portFree.andThen fun b => ?_
    cases b with
    | none => exact fun _ _ _ => rfl
    | some b => exact (decStep_portFree b).andThen fun _ => ih

theorem decFinish_portFree : PortFree decFinish :=
  PortFree.ite (c := fun s => (s.brShort || decide (s.decCur ≠ s.decRoot)) = true) (fun _ _ _ => Iff.rfl)
    (fun _ _ _ => rfl) fun _ _ _ => rfl

theorem decRun_portFree (root : NodeId) : PortFree (decRun root) :=
  brOpenRun_portFree.andThen fun _ => openWriteOut_portFree.andThen fun _ =>
    PortFree.reading (p := fun s => s.brRem.toNat) (fun _ _ _ => rfl) fun n =>
      PortFree.after (g := fun s => { s with outValid := false, decRoot := root, decCur := root }) (fun _ _ _ => rfl)
        ((decLoop_portFree n).andThen fun _ => decFinish_portFree)

/-! ### Raising a fault (R133, R280, R281) -/

theorem writeCmpBytesQuiet_withPort (a v : Word) (bs : List Byte) (i : Nat) (s : State) :
    writeCmpBytesQuiet i bs (s.withPort a v) = (writeCmpBytesQuiet i bs s).withPort a v := by
  induction bs generalizing i s with
  | nil => rfl
  | cons b bs ih => simp only [writeCmpBytesQuiet, writeCmp_portFree i b a v s, Run.state_withPort, ih]

theorem bwCloseQuiet_withPort (a v : Word) (s : State) :
    bwCloseQuiet (s.withPort a v) = (bwCloseQuiet s).withPort a v := by
  have hcount (t : State) : { writeCmpBytesQuiet 0 (be32 t.bwTotal) (t.withPort a v) with bwOpen := false } =
      State.withPort a v { writeCmpBytesQuiet 0 (be32 t.bwTotal) t with bwOpen := false } :=
    congrArg (fun u : State => { u with bwOpen := false }) (writeCmpBytesQuiet_withPort a v (be32 t.bwTotal) 0 t)
  have hbyte : (writeCmp s.cmp.len.toNat s.bwBuf (s.withPort a v)).state = _ :=
    (congrArg Run.state (writeCmp_portFree s.cmp.len.toNat s.bwBuf a v s)).trans (Run.state_withPort a v _)
  by_cases h4 : 4 ≤ s.cmp.len.toNat
  · by_cases hbuf : s.bwNbuf = 0#3
    · simp only [bwCloseQuiet, State.withPort_cmp, State.withPort_bwNbuf, h4, hbuf, if_true]
      exact hcount s
    · simp only [bwCloseQuiet, State.withPort_cmp, State.withPort_bwNbuf, State.withPort_bwBuf, h4, hbuf, if_true,
        if_false, hbyte]
      exact hcount { (writeCmp s.cmp.len.toNat s.bwBuf s).state with bwBuf := 0#8, bwNbuf := 0#3 }
  · simp only [bwCloseQuiet, State.withPort_cmp, h4, if_false]
    rfl

theorem State.raiseFault_withPort (k : FaultKind) (a v : Word) (s : State) :
    (s.withPort a v).raiseFault k = (s.raiseFault k).withPort a v := by
  cases hopen : s.bwOpen with
  | false =>
    have hopen' : (s.withPort a v).bwOpen = false := hopen
    rw [State.raiseFault_noWriter k hopen, State.raiseFault_noWriter k hopen']
    rfl
  | true =>
    have hquiet := bwCloseQuiet_withPort a v { s with err := some (s.err.getD k) }
    have hrelease (t : State) (ht : t.bwOpen = true) :
        t.raiseFault k = { bwCloseQuiet { t with err := some (t.err.getD k) } with brOpen := false } := by
      simp [State.raiseFault, State.release, ht]
    rw [hrelease s hopen, hrelease (s.withPort a v) hopen]
    exact congrArg (fun u : State => { u with brOpen := false }) hquiet

end Sys2Proof.Machine
end

section
/-! PROOFS. `SES.RUN` beside the commands of its stages: O57. -/

namespace Sys2Proof.Machine

/-! ### The root that `tb_build()` returns is a tree operand (R28, R92) -/

theorem allocNode_valid {nd : Node} {s t : State} {n : NodeId} (h : allocNode nd s = .done n t) :
    (t.node? n).isSome = true ∧ ∃ more, t.nodes = s.nodes ++ more := by
  rcases allocNode_cases nd s with ⟨-, he⟩ | ⟨hroom, he⟩ <;> rw [he] at h <;> cases h
  exact ⟨by rw [node?_nodeCnt hroom]; rfl, _, rfl⟩

/-- A record allocated joins the queue. -/
theorem QueueOk.pqInsert_of_allocNode {nd : Node} {s t : State} {n : NodeId} {q : List NodeId} (hq : QueueOk s q)
    (h : allocNode nd s = .done n t) : QueueOk t (pqInsert n q) := fun m hm => by
  obtain ⟨hn, more, hmore⟩ := allocNode_valid h
  rcases mem_pqInsert.mp hm with hm | rfl
  · exact hq.append hmore m hm
  · exact hn

theorem tbLeaves_queueOk {entries : List (Nat × Word)} {q q' : List NodeId} {s t : State} (hq : QueueOk s q)
    (h : tbLeaves entries q s = .done q' t) : QueueOk t q' := by
  induction entries generalizing q s with
  | nil => cases h; exact hq
  | cons e entries ih =>
    obtain ⟨n, s1, halloc, hrest⟩ := Run.andThen_eq_done.mp h
    exact ih (hq.pqInsert_of_allocNode halloc) hrest

theorem allocNode_of_tbMerge {l r n : NodeId} {s t : State} (h : tbMerge l r s = .done n t) :
    ∃ nd, allocNode nd s = .done n t := by
  unfold tbMerge at h
  dsimp only at h
  split at h
  · cases h
  · exact ⟨_, h⟩

theorem tbLoop_root {fuel : Nat} {q : List NodeId} {s t : State} {n : NodeId} (hq : QueueOk s q)
    (h : tbLoop fuel q s = .done n t) : n = nilId ∨ (t.node? n).isSome = true := by
  induction fuel generalizing q s with
  | zero => cases h; exact .inl rfl
  | succ fuel ih =>
    unfold tbLoop at h
    split at h
    · cases h; exact .inl rfl
    · next a q1 hpop1 =>
      obtain ⟨ha, hq1⟩ := pqPopMin_mem hpop1
      split at h
      · cases h; exact .inr (hq _ ha)
      · next b q2 hpop2 =>
        have hq2 : QueueOk s q2 := fun m hm => hq m (hq1 m ((pqPopMin_mem hpop2).2 m hm))
        obtain ⟨m, s1, hmerge, hrest⟩ := Run.andThen_eq_done.mp h
        obtain ⟨nd, halloc⟩ := allocNode_of_tbMerge hmerge
        exact ih (hq2.pqInsert_of_allocNode halloc) hrest

theorem tbBuild_root {s t : State} {root : NodeId} (h : tbBuild s = .done root t) :
    root = nilId ∨ (t.node? root).isSome = true := by
  obtain ⟨q, s1, hleaves, hloop⟩ := Run.andThen_eq_done.mp h
  exact tbLoop_root (tbLeaves_queueOk (by simp [QueueOk]) hleaves) hloop

/-! ### Commands one after another -/

/-- The state after commands, each in the state the one before it left. -/
def issueAll (is : List Instr) (s : State) : State := is.foldl (fun s i => runCommand i (body i) s) s

theorem issueAll_cons (i : Instr) (is : List Instr) (s : State) :
    issueAll (i :: is) s = issueAll is (runCommand i (body i) s) := rfl

theorem commands_eq_issueAll (is : List Instr) (s : State) : commands is s = some (issueAll is s) := by
  induction is generalizing s with
  | nil => rfl
  | cons i is ih =>
    simp only [commands, exec_eq_runCommand]
    exact ih _

theorem stageByStage_eq (s : State) : stageByStage s = some (issueAll [.cbDerive, .encRun, .decRun]
    (issueAll [.sysClear, .fcCount, .tbBuild] s).passResult) := by
  simp only [stageByStage, commands_eq_issueAll, Option.bind_some]

/-- In `FAULTED` every command but `SYS.CLEAR` is ignored (R282). -/
theorem issueAll_faulted {is : List Instr} {s : State} (herr : s.err ≠ none) (his : .sysClear ∉ is) :
    issueAll is s = s := by
  induction is with
  | nil => rfl
  | cons i is ih =>
    obtain ⟨hi, his⟩ := not_or.mp (mt List.mem_cons.mpr his)
    have hignored : runCommand i (body i) s = s := by
      simp [runCommand, Option.isSome_iff_ne_none.mpr herr, Ne.symm hi]
    rw [issueAll_cons, hignored]
    exact ih his

theorem exists_withPort_of_faulted {is : List Instr} {s : State} (herr : s.err ≠ none) (his : .sysClear ∉ is) :
    ∃ a v, issueAll is s = s.withPort a v :=
  ⟨s.arg0, s.res, issueAll_faulted herr his⟩

theorem exists_withPort_of_faulted_passResult {is : List Instr} {s : State} (herr : s.err ≠ none)
    (his : .sysClear ∉ is) : ∃ a v, issueAll is s.passResult = s.withPort a v :=
  ⟨s.res, s.res, issueAll_faulted (s := s.passResult) herr his⟩

/-- With nothing open `SYS.CLEAR` starts the fresh session of `SES.RUN`, but for the 0 in `RES` (R236, R237). -/
theorem issueAll_sysClear_of_idle {s : State} (h : s.Idle) (is : List Instr) :
    issueAll (.sysClear :: is) s = issueAll is (s.freshSession.withPort s.arg0 0#32) := by
  rw [issueAll_cons, exec_sysClear_eq (exec_eq_runCommand .sysClear s), h.noWriter]
  rfl

theorem State.passResult_withPort (a v : Word) (s : State) : (s.withPort a v).passResult = s.withPort v v := rfl

/-! ### A stage of `SES.RUN` beside its command (R237, R238) -/

/-- The commands end in `u` as `SES.RUN` ends in `t`: equal but for the two registers, and without fault the root that
was passed on in `ARG0` is the `RES` of `SES.RUN`. -/
def State.EndsLike (t u : State) : Prop :=
  u = { t with arg0 := u.arg0, res := u.res } ∧ (t.err = none → t.res = u.arg0)

section

variable {t : State} {a v : Word} {i : Instr} {g : State → Run Word} {k : Word → State → Run Word}
  {rest : State → State}

/-- A stage `g` followed by `k`, and the command `i` whose body it is followed by `rest`: when `g` raises, `rest` is
ignored, so only what follows a return has to be compared. -/
theorem State.EndsLike.stage (hfree : PortFree g) (hidle : t.Idle) (hacc : acceptable i (t.withPort a v) = true)
    (hbody : body i (t.withPort a v) = g (t.withPort a v))
    (hrest : ∀ u : State, u.err ≠ none → ∃ b w, rest u = u.withPort b w)
    (hdone : ∀ w t1, g t = .done w t1 → (complete (k w t1)).EndsLike (rest (t1.withPort a w))) :
    (complete ((g t).andThen k)).EndsLike (rest (runCommand i (body i) (t.withPort a v))) := by
  have herr : (t.withPort a v).err = none := hidle.noFault
  have hrun : runCommand i (body i) (t.withPort a v) = complete ((g t).withPort a v) := by
    simp [runCommand, herr, hacc, hbody, hfree a v t]
  rw [hrun]
  cases hg : g t with
  | done w t1 => exact hdone w t1 hg
  | raised kind t1 =>
    have hraised : complete (Run.withPort a v (.raised kind t1)) = (t1.raiseFault kind).withPort a v :=
      t1.raiseFault_withPort kind a v
    obtain ⟨b, w, hend⟩ := hrest ((t1.raiseFault kind).withPort a v) (by simp [State.withPort])
    rw [hraised, hend]
    exact ⟨rfl, fun hnone => by simp at hnone⟩

end

/-! ### What the stages leave for the next one -/

theorem State.Idle.after {i : Instr} {s t : State} {v : Word} (h : s.Idle) (hbody : body i s = .done v t)
    (hi : i ∈ [Instr.fcCount, .tbBuild]) : t.Idle := by
  have hkeeps {p : Part} (hp : p ∈ [Part.fault, .writerOpen, .readerOpen]) : p.same s (body i s).state := by
    refine body_keeps ?_ s
    simp only [List.mem_cons, List.not_mem_nil, or_false] at hi hp
    rcases hp with rfl | rfl | rfl <;> rcases hi with rfl | rfl <;> simp [Part.writers]
  rw [hbody] at hkeeps
  exact ⟨(hkeeps (p := .fault) (by simp)).trans h.noFault, (hkeeps (p := .writerOpen) (by simp)).trans h.noWriter,
    (hkeeps (p := .readerOpen) (by simp)).trans h.noReader⟩

/-- An encoder that returns has closed its writer (R124, R200). -/
theorem encRun_shut {s t : State} {v : Word} (h : encRun s = .done v t) : t.bwOpen = false := by
  obtain ⟨-, s1, -, h⟩ := Run.andThen_eq_done.mp h
  obtain ⟨-, s2, -, h⟩ := Run.andThen_eq_done.mp h
  obtain ⟨-, s3, -, h⟩ := Run.andThen_eq_done.mp h
  obtain ⟨-, s4, -, h⟩ := Run.andThen_eq_done.mp h
  obtain ⟨-, s5, -, h⟩ := Run.andThen_eq_done.mp h
  cases h
  rfl

theorem State.Idle.after_encRun {s t : State} {v : Word} (hidle : s.Idle) (h : encRun s = .done v t) : t.Idle := by
  have herr := (encRun_frame s).same (p := .fault) (by simp)
  have hreader := (encRun_frame s).same (p := .readerOpen) (by simp)
  rw [h] at herr hreader
  exact ⟨herr.trans hidle.noFault, encRun_shut h, hreader.trans hidle.noReader⟩

theorem encRun_nodes {s t : State} {v : Word} (h : encRun s = .done v t) : t.nodes = s.nodes := by
  have hsame := (encRun_frame s).same (p := .records) (by simp)
  rwa [h] at hsame

theorem Run.andThen_assoc {α β γ : Type} (r : Run α) (f : α → State → Run β) (g : β → State → Run γ) :
    (r.andThen f).andThen g = r.andThen fun a s => (f a s).andThen g := by
  cases r <;> rfl

/-- The five stages in a row (R237). -/
theorem sesRun_eq (s : State) : sesRun s =
    (fcCount s.freshSession).andThen fun _ s1 => (tbBuild s1).andThen fun root s2 =>
      (cbDerive root s2).andThen fun _ s3 => (encRun s3).andThen fun _ s4 =>
        (decRun root s4).andThen fun _ s5 => .done root s5 := by
  simp only [sesRun, sesStages, Run.andThen_assoc, Run.andThen_done]

/-- The stages from the fresh session on, each beside its command. The root is a legal operand of the two commands that
take it, since `TB.BUILD` returned it and no later stage removes a record. -/
theorem sesRun_endsLike_stages {s : State} (hidle : s.Idle) :
    (complete (sesRun s)).EndsLike (issueAll [.cbDerive, .encRun, .decRun]
      (issueAll [.sysClear, .fcCount, .tbBuild] s).passResult) := by
  rw [sesRun_eq, issueAll_sysClear_of_idle hidle, issueAll_cons .fcCount]
  have hidle0 : s.freshSession.Idle := ⟨rfl, rfl, rfl⟩
  refine State.EndsLike.stage (i := .fcCount)
    (rest := fun u => issueAll [.cbDerive, .encRun, .decRun] (issueAll [.tbBuild] u).passResult)
    fcCount_portFree hidle0 rfl rfl (fun u hu => ?_) fun n s1 hcount => ?_
  · rw [issueAll_faulted hu (by simp)]
    exact exists_withPort_of_faulted_passResult hu (by simp)
  rw [issueAll_cons .tbBuild]
  have hidle1 := hidle0.after (i := .fcCount) hcount (by simp)
  refine State.EndsLike.stage (i := .tbBuild) (rest := fun u => issueAll [.cbDerive, .encRun, .decRun] u.passResult)
    tbBuild_portFree hidle1 rfl rfl (fun u hu => exists_withPort_of_faulted_passResult hu (by simp))
    fun root s2 hbuild => ?_
  rw [State.passResult_withPort, issueAll_cons .cbDerive]
  have hidle2 := hidle1.after (i := .tbBuild) hbuild (by simp)
  have hroot := tbBuild_root hbuild
  refine State.EndsLike.stage (i := .cbDerive) (rest := issueAll [.encRun, .decRun]) (cbDerive_portFree root) hidle2
    (acceptable_cbDerive hroot) rfl (fun u hu => exists_withPort_of_faulted hu (by simp)) fun m s3 hderive => ?_
  obtain ⟨-, rfl⟩ := Run.done.inj hderive
  rw [issueAll_cons .encRun]
  have hidle3 : State.Idle { s2 with cb := (s2.tree root).codebook } := { hidle2 with }
  refine State.EndsLike.stage (i := .encRun) (rest := issueAll [.decRun]) encRun_portFree hidle3
    (acceptable_of_idle { hidle3 with } (by simp)) rfl (fun u hu => exists_withPort_of_faulted hu (by simp))
    fun total s4 hencode => ?_
  have hidle4 := hidle3.after_encRun hencode
  have hroot4 : root = nilId ∨ (s4.node? root).isSome = true := by rwa [State.node?, encRun_nodes hencode]
  exact State.EndsLike.stage (i := .decRun) (rest := id) (decRun_portFree root) hidle4
    (acceptable_decRun_of_idle { hidle4 with } hroot4) rfl (fun u _ => ⟨u.arg0, u.res, rfl⟩)
    fun _ _ _ => ⟨rfl, fun _ => rfl⟩

/-- Settles O57: no stage reads `RES`, and `ARG0` only as the root that was passed on, so that a stage and its command
raise or return together. -/
theorem sesRunIsTheStageSequence : Obligations.SesRunIsTheStageSequence := by
  unfold Obligations.SesRunIsTheStageSequence
  intro s hidle
  exact ⟨_, _, exec_accepted hidle.noFault (acceptable_of_idle hidle (by simp)), stageByStage_eq s,
    sesRun_endsLike_stages hidle⟩

end Sys2Proof.Machine
end

section
/-! PROOFS. In the codebook of a Huffman tree no codeword begins another, and that of a built tree covers its table: O39,
O59. -/

namespace Sys2Proof.Machine

theorem Tree.IsHuffman.ne_empty {t : Tree} (h : t.IsHuffman) : t ≠ .empty := by
  rintro rfl
  cases h.wellFormed

/-- Settles O39: the tree is not empty, so the command is accepted, and no tree's codebook lists a codeword that begins
another. -/
theorem codewordsArePrefixFree : Obligations.CodewordsArePrefixFree := by
  unfold Obligations.CodewordsArePrefixFree
  intro s t herr htree hexec m n cm cn hmn hm hn
  rw [exec_cbDerive herr (.inr (State.node?_isSome_of_tree htree.ne_empty))] at hexec
  cases hexec
  exact Tree.codebook_prefixFree _ hmn hm hn

/-- In a canonical table the entries listed are those that do not read as the default (R25). -/
theorem Memory.get_ne_iff {α : Type} [DecidableEq α] {d : α} {m : List (Nat × α)} (h : Memory.wf d m = true)
    (n : Nat) : Memory.get d m n ≠ d ↔ ∃ e ∈ m, e.1 = n := by
  obtain ⟨hrising, hne⟩ := Memory.wf_iff.mp h
  unfold Memory.get
  constructor
  · intro hget
    cases hlisted : Memory.get? m n with
    | none => simp [hlisted] at hget
    | some v => exact ⟨(n, v), Memory.mem_of_get? hlisted, rfl⟩
  · rintro ⟨⟨a, v⟩, he, rfl⟩
    rw [Memory.get?_of_mem hrising he]
    exact hne _ he

/-- The leaves of a table's tree carry the symbols that have a count. -/
theorem State.Inv.leaf_iff_count {s : State} (h : s.Inv) {t : Tree} (hperm : List.Perm t.weighted (s.ft.map entryLeaf))
    (n : Nat) : (∃ sym ∈ t.leaves, sym.toNat = n) ↔ s.count n ≠ 0#32 := by
  have hleaves (sym : Symbol) : sym ∈ t.leaves ↔ ∃ e ∈ s.ft, (entryLeaf e).1 = sym := by
    rw [Tree.leaves_eq_weighted, (hperm.map Prod.fst).mem_iff, List.map_map, List.mem_map]
    rfl
  rw [State.count, Memory.get_ne_iff h.ftCanonical]
  constructor
  · rintro ⟨sym, hsym, rfl⟩
    obtain ⟨e, he, rfl⟩ := (hleaves sym).mp hsym
    exact ⟨e, he, (h.entryLeaf_toNat he).symm⟩
  · rintro ⟨e, he, rfl⟩
    exact ⟨(entryLeaf e).1, (hleaves _).mpr ⟨e, he, rfl⟩, h.entryLeaf_toNat he⟩

/-- Settles O59: the codebook's symbols are the leaves of the tree, which are the table's entries; from the empty table
come the empty tree and the empty codebook. -/
theorem codebookCoversTheTable : Obligations.CodebookCoversTheTable := by
  unfold Obligations.CodebookCoversTheTable
  intro s t u hinv herr ht hnone hu
  by_cases hne : s.ft = []
  · rw [(tbBuildOfEmptyAndSingleTables s herr).1 hne] at ht
    cases ht
    obtain rfl := eq_of_exec_cbDerive hu hnone (.inl rfl)
    exact ⟨hnone, fun n => by simp [State.codeword, State.tree_nilId, Tree.codebook, State.count, hne, Memory.get]⟩
  · obtain ⟨hft, hcb, hforest, htree⟩ := derived_of_built hinv herr hne ht hnone hu
    obtain ⟨-, -, hperm, -⟩ := hforest.tree_of_table hinv
    obtain ⟨harg, -⟩ := commandsKeepOperandsSourceAndParameters .cbDerive _ u hu
    have hroot : (t.node? t.res).isSome = true := (show u.arg0 = t.res from harg) ▸ hforest.valid u.arg0 (by simp)
    refine ⟨?_, fun n => ?_⟩
    · rw [eq_of_exec_cbDerive hu hnone (.inr hroot)]
      exact hnone
    · rw [State.codeword, hcb, Tree.codebook_get?_isSome, htree, hinv.leaf_iff_count hperm, State.count,
        State.count, hft]

end Sys2Proof.Machine
end

section
/-! PROOFS. Raising a fault, the `FAULTED` state, and that every step answers a next state: O9, O11, O16. -/

namespace Sys2Proof.Machine

/-! ### The quiet close and `ERR` (R133, R280) -/

/-- `s` with another `ERR`. -/
def State.withErr (e : Option FaultKind) (s : State) : State := { s with err := e }

@[simp] theorem State.withErr_cmp (e : Option FaultKind) (s : State) : (s.withErr e).cmp = s.cmp := rfl
@[simp] theorem State.withErr_bwBuf (e : Option FaultKind) (s : State) : (s.withErr e).bwBuf = s.bwBuf := rfl
@[simp] theorem State.withErr_bwNbuf (e : Option FaultKind) (s : State) : (s.withErr e).bwNbuf = s.bwNbuf := rfl

/-- No write to `CMP` reads `ERR`. -/
theorem writeCmp_withErr (e : Option FaultKind) (a : Nat) (v : Byte) (s : State) :
    (writeCmp a v (s.withErr e)).state = (writeCmp a v s).state.withErr e := by
  simp only [writeCmp, ask_eq, State.withErr]
  cases s.env.headD .ok with
  | ok => dsimp only; split <;> rfl
  | ioerr left => rfl

theorem writeCmpBytesQuiet_withErr (e : Option FaultKind) (vs : List Byte) (a : Nat) (s : State) :
    writeCmpBytesQuiet a vs (s.withErr e) = (writeCmpBytesQuiet a vs s).withErr e := by
  induction vs generalizing a s with
  | nil => rfl
  | cons v vs ih => rw [writeCmpBytesQuiet, writeCmpBytesQuiet, writeCmp_withErr, ih]

/-- The quiet close closes the same stream whatever kind is recorded. -/
theorem bwCloseQuiet_withErr (e : Option FaultKind) (s : State) :
    bwCloseQuiet (s.withErr e) = (bwCloseQuiet s).withErr e := by
  have hcount (t : State) : { writeCmpBytesQuiet 0 (be32 t.bwTotal) (t.withErr e) with bwOpen := false } =
      State.withErr e { writeCmpBytesQuiet 0 (be32 t.bwTotal) t with bwOpen := false } :=
    congrArg (fun u : State => { u with bwOpen := false }) (writeCmpBytesQuiet_withErr e (be32 t.bwTotal) 0 t)
  by_cases h4 : 4 ≤ s.cmp.len.toNat
  · by_cases hbuf : s.bwNbuf = 0#3
    · simp only [bwCloseQuiet, State.withErr_cmp, State.withErr_bwNbuf, h4, hbuf, if_true]
      exact hcount s
    · simp only [bwCloseQuiet, State.withErr_cmp, State.withErr_bwNbuf, State.withErr_bwBuf, h4, hbuf, if_true,
        if_false, writeCmp_withErr]
      exact hcount { (writeCmp s.cmp.len.toNat s.bwBuf s).state with bwBuf := 0#8, bwNbuf := 0#3 }
  · simp only [bwCloseQuiet, State.withErr_cmp, h4, if_false]
    rfl

/-- Settles O9: the raise records the kind and then releases; the quiet close does not look at `ERR`. -/
theorem raiseKeepsTheFirstKindAndReleases : Obligations.RaiseKeepsTheFirstKindAndReleases := by
  unfold Obligations.RaiseKeepsTheFirstKindAndReleases
  rintro k s t rfl
  rw [complete_raised]
  refine ⟨State.raiseFault_err k s, State.raiseFault_bwOpen k s, State.raiseFault_brOpen k s,
    State.raiseFault_noWriter k, fun hopen => ⟨?_, State.raiseFault_frame k s⟩⟩
  have hraise : s.raiseFault k = { bwCloseQuiet (s.withErr (some (s.err.getD k))) with brOpen := false } := by
    simp [State.raiseFault, State.release, State.withErr, hopen]
  rw [hraise, bwCloseQuiet_withErr]
  rfl

/-! ### Commands in `FAULTED` (R282) -/

/-- A word that is not that of `SYS.CLEAR` is ignored, whether or not it names a command. -/
theorem issueCommand_faulted {s : State} {w : Word} (herr : s.err ≠ none) (hw : w ≠ encode .sysClear) :
    issueCommand w s = .next s := by
  have hfaulted : s.err.isSome = true := Option.isSome_iff_ne_none.mpr herr
  rcases issueCommand_eq w s with ⟨i, hdecode, h⟩ | ⟨r, -, h⟩
  · have hi : i ≠ .sysClear := fun hclear => hw (hclear ▸ eq_encode_of_decode hdecode)
    rw [h, runCommand, if_pos (by simp [hfaulted, hi])]
  · rw [h, rejectWord, if_pos hfaulted]

theorem issueCommand_sysClear_err {s t : State} (h : issueCommand (encode .sysClear) s = .next t) : t.err = none := by
  have hexec : exec .sysClear s = .next t := (perform_writeCmd (decode_encode .sysClear)).symm.trans h
  rw [exec_sysClear_eq hexec]
  rfl

/-- The actions of the host that end `FAULTED`. -/
def HostOp.EndsFault (op : HostOp) : Prop :=
  op = .writeReg .cmd (encode .sysClear) ∨ op = .reset ∨
    ∃ w used cl cn ol on, op = .resetDuring w used cl cn ol on

/-- In `FAULTED` an action keeps the recorded kind, or it is one of the three and clears it. -/
theorem perform_faulted {op : HostOp} {s t : State} (herr : s.err ≠ none) (h : perform op s = .next t) :
    t.err = s.err ∨ (t.err = none ∧ op.EndsFault) := by
  cases op with
  | writeReg r v =>
    cases r with
    | cmd =>
      by_cases hv : v = encode .sysClear
      · subst hv
        exact .inr ⟨issueCommand_sysClear_err h, .inl rfl⟩
      · cases (issueCommand_faulted herr hv).symm.trans h
        exact .inl rfl
    | arg0 => cases h; exact .inl rfl
    | arg1 => cases h; exact .inl rfl
    | arg2 => cases h; exact .inl rfl
    | res => cases h; exact .inl rfl
    | status => cases h; exact .inl rfl
  | reset => cases h; exact .inr ⟨rfl, .inr (.inl rfl)⟩
  | resetDuring w used cl cn ol on => cases h; exact .inr ⟨rfl, .inr (.inr ⟨w, used, cl, cn, ol, on, rfl⟩)⟩
  | _ => cases h; exact .inl rfl

/-- Settles O11: `issueCommand_faulted`, `perform_faulted`, and the bit of `STATUS` that is `FAULTED`. -/
theorem faultedBlockIgnoresCommands : Obligations.FaultedBlockIgnoresCommands := by
  unfold Obligations.FaultedBlockIgnoresCommands
  refine ⟨fun s k w rest herr hhost hw => ?_, fun s t k herr hstep hne => ?_, fun s k herr => ?_⟩
  · rw [step_cons hhost]
    exact issueCommand_faulted (s := { s with host := rest }) (by simp [herr]) hw
  · cases hhost : s.host with
    | nil =>
      rw [step_nil hhost] at hstep
      cases hstep
      exact absurd herr hne
    | cons op rest =>
      rw [step_cons hhost] at hstep
      rcases perform_faulted (s := { s with host := rest }) (by simp [herr]) hstep with hkept | ⟨hnone, hend⟩
      · exact absurd (hkept.trans herr) hne
      · refine ⟨hnone, ?_⟩
        rcases hend with rfl | rfl | ⟨w, used, cl, cn, ol, on, rfl⟩
        · exact .inl ⟨rest, rfl⟩
        · exact .inr (.inl ⟨rest, rfl⟩)
        · exact .inr (.inr ⟨w, used, cl, cn, ol, on, rest, rfl⟩)
  · obtain ⟨hfaulted, -⟩ := s.status_flags
    rw [hfaulted, State.faulted, herr]
    rfl

/-! ### Steps answer a next state (R325) -/

/-- Every action of the host answers a next state, a command written to `CMD` included. -/
theorem perform_total (op : HostOp) (s : State) : ∃ t, perform op s = .next t := by
  cases op with
  | writeReg r v =>
    cases r with
    | cmd =>
      rcases issueCommand_eq v s with ⟨i, -, h⟩ | ⟨r, -, h⟩
      · exact ⟨_, h⟩
      · exact ⟨_, h⟩
    | _ => exact ⟨_, rfl⟩
  | _ => exact ⟨_, rfl⟩

/-- Settles O16: a step is idle or performs an action. -/
theorem noStepStops : Obligations.NoStepStops := by
  unfold Obligations.NoStepStops
  intro s
  cases hhost : s.host with
  | nil => exact ⟨s, step_nil hhost⟩
  | cons op rest =>
    obtain ⟨t, ht⟩ := perform_total op { s with host := rest }
    exact ⟨t, (step_cons hhost).trans ht⟩

end Sys2Proof.Machine
end

section
/-! PROOFS. The decoder's cursor: where an emission and the end of `DEC.RUN` leave it: O52. -/

namespace Sys2Proof.Machine

/-! ### The cursor and the root through `dec_run()` -/

/-- `emit` does not touch the decoder (R224). -/
theorem emit_decoder (sym : Symbol) (s : State) :
    (emit sym s).state.decRoot = s.decRoot ∧ (emit sym s).state.decCur = s.decCur := by
  unfold emit
  split
  · exact ⟨rfl, rfl⟩
  · rcases writeOut_cases s.out.len.toNat sym s with ⟨-, h⟩ | ⟨_, -, h⟩ <;> rw [h] <;> exact ⟨rfl, rfl⟩

/-- A step that writes `OUT` stays at a leaf that is the root, or returns from the leaf it reached to the root (R217,
R219). -/
theorem decStep_emits {b : Bool} {s t : State} (h : decStep b s = .done () t) (hout : t.out ≠ s.out) :
    t.decCur = t.decRoot ∨ (s.isLeaf s.decRoot = true ∧ t.decRoot = s.decRoot ∧ t.decCur = s.decCur) := by
  cases hroot : s.node? s.decRoot with
  | none => simp [decStep_noRoot hroot] at h
  | some root =>
    cases root with
    | leaf sym w =>
      have hemit := emit_decoder sym s
      rw [← decStep_leafRoot hroot, h] at hemit
      exact .inr ⟨by simp [State.isLeaf, hroot, Node.isLeaf], hemit⟩
    | inner l r w =>
      cases hchild : s.node? (s.childAt b) with
      | none => simp [decStep_toMissing hroot hchild] at h
      | some child =>
        cases child with
        | inner l' r' w' =>
          rw [decStep_toInner hroot hchild] at h
          cases h
          exact absurd rfl hout
        | leaf sym w' =>
          rw [decStep_toLeaf hroot hchild] at h
          obtain ⟨-, u, -, hreturn⟩ := Run.andThen_eq_done.mp h
          cases hreturn
          exact .inl rfl

/-- The root stands still while the bits are decoded. -/
theorem decLoop_decRoot (fuel : Nat) (s : State) : (decLoop fuel s).state.decRoot = s.decRoot := by
  induction fuel generalizing s with
  | zero => rfl
  | succ fuel ih =>
    have trans {s t u : State} (h : t.decRoot = s.decRoot) (g : u.decRoot = t.decRoot) : u.decRoot = s.decRoot :=
      g.trans h
    refine Run.andThen_frame (fun s t => t.decRoot = s.decRoot) trans (by rw [brReadBit_frame s]) fun b t => ?_
    cases b with
    | none => rfl
    | some b =>
      exact Run.andThen_frame (fun s t => t.decRoot = s.decRoot) trans (by rw [decStep_frame b t]) fun _ u => ih u

/-- What a completed end of `dec_run()` has found and leaves (R223). -/
theorem decFinish_done {s t : State} {v : Word} (h : decFinish s = .done v t) :
    s.brShort = false ∧ s.decCur = s.decRoot ∧ v = s.out.len ∧ t = { brRelease s with outValid := true } := by
  unfold decFinish at h
  split at h
  · cases h
  · next hok => cases h; simpa using hok

/-- A `dec_run()` that returns has ended at its root, with a stream that is not short. -/
theorem decRun_done {root : NodeId} {s t : State} {v : Word} (h : decRun root s = .done v t) :
    t.decRoot = root ∧ t.decCur = t.decRoot ∧ t.brShort = false ∧ t.brOpen = false ∧ t.outValid = true ∧
      v = t.out.len := by
  obtain ⟨-, s1, -, h⟩ := Run.andThen_eq_done.mp h
  obtain ⟨-, s2, -, h⟩ := Run.andThen_eq_done.mp h
  obtain ⟨_, s3, hloop, h⟩ := Run.andThen_eq_done.mp h
  obtain ⟨hshort, hcur, rfl, rfl⟩ := decFinish_done h
  have hroot := decLoop_decRoot s2.brRem.toNat { s2 with outValid := false, decRoot := root, decCur := root }
  rw [hloop] at hroot
  exact ⟨hroot, hcur, hshort, rfl, rfl, rfl⟩

/-- A command without fault before and after it was accepted, and its pseudocode returned. -/
theorem body_done_of_noFault {i : Instr} {s t : State} (herr : s.err = none) (h : exec i s = .next t)
    (hnone : t.err = none) : ∃ v u, body i s = .done v u ∧ t = { u with res := v } := by
  rcases exec_cases h with ⟨⟨hfault, -⟩, -⟩ | ⟨-, -, rfl⟩ | ⟨-, -, rfl⟩
  · exact absurd herr hfault
  · simp at hnone
  · cases hbody : body i s with
    | done v u => exact ⟨v, u, rfl, rfl⟩
    | raised k u => simp [hbody] at hnone

/-- Settles O52: `decStep_emits`, `decRun_done`, and the test at the end of the stream. -/
theorem decoderCursorReturnsToTheRoot : Obligations.DecoderCursorReturnsToTheRoot := by
  unfold Obligations.DecoderCursorReturnsToTheRoot
  refine ⟨fun b s t hstep hout hleaf => ?_, fun s t herr hexec hnone => ?_, fun s => decFinish_truncated⟩
  · rcases decStep_emits hstep hout with hreturned | ⟨hroot, hroot', hcur⟩
    · exact hreturned
    · rw [hcur, hroot', hleaf hroot]
  · obtain ⟨v, u, hbody, rfl⟩ := body_done_of_noFault herr hexec hnone
    obtain ⟨hroot, hend⟩ := decRun_done (root := s.arg0) hbody
    exact ⟨hroot, hend⟩

end Sys2Proof.Machine
end

section
/-! PROOFS. A whole session in a fault-free environment: it ends with the source in `OUT`, or with a payload that
`BW_TOTAL` cannot count: O58. -/

namespace Sys2Proof.Machine

/-! ### The length of a codeword (R190) -/

/-- A leaf of a well-formed tree lies less deep than the tree has leaves. -/
theorem Tree.path_length_lt {t : Tree} (h : t.wf = true) {e : Symbol × Bits} (he : e ∈ t.paths) :
    e.2.length < t.leaves.length := by
  induction t generalizing e with
  | empty => cases h
  | leaf sym w => simp_all [Tree.paths, Tree.leaves]
  | inner l r w ihl ihr =>
    obtain ⟨hl, hr⟩ := Bool.and_eq_true_iff.mp h
    have hlpos := List.length_pos_iff.mpr (Tree.leaves_ne_nil hl)
    have hrpos := List.length_pos_iff.mpr (Tree.leaves_ne_nil hr)
    simp only [Tree.paths, List.mem_append, List.mem_map] at he
    rw [Tree.leaves, List.length_append]
    rcases he with ⟨x, hx, rfl⟩ | ⟨x, hx, rfl⟩
    · have := ihl hl hx
      rw [List.length_cons]
      omega
    · have := ihr hr hx
      rw [List.length_cons]
      omega

/-- A codeword has at most as many bits as there are leaves, the one bit of a single leaf included. -/
theorem Tree.codebook_length_le {t : Tree} (h : t.wf = true) {n : Nat} {code : Bits}
    (hget : Memory.get? t.codebook n = some code) : code.length ≤ t.leaves.length := by
  cases t with
  | empty => cases h
  | leaf sym w =>
    obtain ⟨e, he, -, rfl⟩ := Tree.path_of_walk_get? hget
    have := Tree.path_length_lt h he
    rw [List.length_append, List.length_singleton]
    omega
  | inner l r w =>
    obtain ⟨e, he, -, rfl⟩ := Tree.path_of_walk_get? hget
    exact Nat.le_of_lt (Tree.path_length_lt h he)

/-- There are no more distinct numbers below a bound than the bound. -/
theorem length_le_of_nodup_of_lt {l : List Nat} {n : Nat} (hnodup : l.Nodup) (hlt : ∀ a ∈ l, a < n) :
    l.length ≤ n := by
  have hsub : l ⊆ List.range n := fun a ha => List.mem_range.mpr (hlt a ha)
  simpa using (List.subperm_of_subset hnodup hsub).length_le

/-- The leaves of a Huffman tree are no more than the symbols. -/
theorem State.Inv.leaves_length_le {s : State} (h : s.Inv) {n : NodeId} (htree : (s.tree n).IsHuffman) :
    (s.tree n).leaves.length ≤ s.cfg.nsym := by
  have hnodup : ((s.tree n).leaves.map BitVec.toNat).Nodup :=
    List.Pairwise.map BitVec.toNat (fun _ _ hne heq => hne (BitVec.eq_of_toNat_eq heq)) htree.distinct
  rw [← List.length_map (f := BitVec.toNat)]
  refine length_le_of_nodup_of_lt hnodup fun a ha => ?_
  obtain ⟨sym, hsym, rfl⟩ := List.mem_map.mp ha
  exact unfoldTree_leaves_lt h _ n sym hsym

/-- A table has at most one entry per symbol (R25). -/
theorem State.Inv.table_length_le {s : State} (h : s.Inv) : s.ft.length ≤ s.cfg.nsym := by
  rw [← List.length_map (f := Prod.fst)]
  refine length_le_of_nodup_of_lt (Memory.nodup_of_rising (Memory.wf_iff.mp h.ftCanonical).1) fun a ha => ?_
  obtain ⟨e, he, rfl⟩ := List.mem_map.mp ha
  exact h.ftSymbols e he

/-! ### The stages before the encoder (R161, R171, R185) -/

theorem exec_inv {i : Instr} {s t : State} (h : s.Inv) (hexec : exec i s = .next t) : t.Inv := by
  rw [exec_eq_runCommand] at hexec
  cases hexec
  exact runCommand_inv i h

/-- The fresh session with the symbols of the source counted. -/
def State.countedSession (s : State) : State :=
  { s.clearSession with ft := tableOf s.source, res := s.src.len }

/-- Idle, `SYS.CLEAR` has no stream to close (R236). -/
theorem exec_sysClear_of_idle {s : State} (hidle : s.Idle) : exec .sysClear s = .next s.clearSession := by
  rw [exec_sysClear, sysClear, hidle.noWriter]
  rfl

theorem exec_fcCount_clearSession {s : State} (hfree : s.FaultFree) :
    exec .fcCount s.clearSession = .next s.countedSession := by
  have hclear : s.clearSession.FaultFree := hfree
  have hexec := exec_fcCount_ok (s := s.clearSession) rfl (hclear.answersOk _)
  have hanswers (n : Nat) : s.clearSession.env.drop n = s.clearSession.env := by
    rw [show s.clearSession.env = [] from hfree, List.drop_nil]
  rwa [hanswers] at hexec

/-- Every symbol of the source has a count. -/
theorem State.countedSession_count_ne_zero {s : State} {sym : Symbol} (h : sym ∈ s.source) :
    s.countedSession.count sym.toNat ≠ 0#32 := by
  have hlen : s.source.length < 2 ^ 32 := by rw [State.source_length]; exact s.src.len.isLt
  have hcount := (tableOf_count_pos hlen sym.toNat).mpr ⟨sym, h, rfl⟩
  intro hzero
  rw [show Memory.get 0#32 (tableOf s.source) sym.toNat = 0#32 from hzero] at hcount
  exact absurd hcount (by decide)

/-- With an empty node store there is room for the tree of any table, so that `TB.BUILD` completes unless the counts sum
beyond 32 bits (R8, R176). -/
theorem exec_tbBuild_emptyStore {s : State} (hinv : s.Inv) (herr : s.err = none) (hnodes : s.nodes = [])
    (hsum : (s.ft.map fun e => e.2.toNat).sum < 2 ^ 32) :
    ∃ t, exec .tbBuild s = .next t ∧ t = { s with nodes := t.nodes, res := t.res } ∧
      (t.res = nilId ∨ (t.tree t.res).IsHuffman) := by
  by_cases hne : s.ft = []
  · exact ⟨_, (tbBuildOfEmptyAndSingleTables s herr).1 hne, rfl, .inl rfl⟩
  · have hroom : 2 * s.cfg.nsym - 1 ≤ s.cfg.nodesMax.toNat := of_decide_eq_true hinv.cfgWf
    have hentries := hinv.table_length_le
    obtain ⟨t, hexec, hframe, -, -, -, htree, -⟩ :=
      tbBuildMakesAHuffmanTree.2 s hinv herr hne (by rw [hnodes, List.length_nil]; omega) hsum
    exact ⟨t, hexec, hframe, .inr htree⟩

/-- What the encoder and the decoder find after the stages before them: the tree in `ARG0`, empty or a Huffman tree,
its codebook, and a codeword for every symbol of `SRC`. -/
structure State.Coded (s : State) : Prop where
  inv       : s.Inv
  idle      : s.Idle
  faultFree : s.FaultFree
  tree      : s.arg0 = nilId ∨ (s.tree s.arg0).IsHuffman
  codebook  : s.cb = (s.tree s.arg0).codebook
  source    : ∀ sym ∈ s.source, (s.codeword sym.toNat).isSome = true

theorem State.operand_of_isHuffman {s : State} {n : NodeId} (h : n = nilId ∨ (s.tree n).IsHuffman) :
    n = nilId ∨ (s.node? n).isSome = true :=
  h.imp_right fun htree => State.node?_isSome_of_tree htree.ne_empty

/-- The stages before the encoder. -/
theorem stageByStage_coded {s : State} (hinv : s.Inv) (hidle : s.Idle) (hfree : s.FaultFree) :
    ∃ u, u.Coded ∧ u.src = s.src ∧ u.cfg = s.cfg ∧ stageByStage s = commands [.encRun, .decRun] u := by
  have hlen : s.source.length < 2 ^ 32 := by rw [State.source_length]; exact s.src.len.isLt
  have hcounted := exec_inv hinv.clearSession (exec_fcCount_clearSession hfree)
  obtain ⟨t, hbuild, hframe, htree⟩ := exec_tbBuild_emptyStore (s := s.countedSession) hcounted rfl rfl
    (by rw [State.countedSession, tableOf_sum hlen]; exact hlen)
  have herr : t.err = none := by rw [hframe]; rfl
  have hderive : exec .cbDerive t.passResult = _ :=
    exec_cbDerive (s := t.passResult) herr (State.operand_of_isHuffman (s := t) htree)
  obtain ⟨-, hcovers⟩ := codebookCoversTheTable s.countedSession t _ hcounted rfl hbuild herr hderive
  have hbuilt : t.Inv := exec_inv hcounted hbuild
  have hsrc : t.src = s.src := by rw [hframe]; rfl
  have hft : t.ft = s.countedSession.ft := by rw [hframe]
  have hpassed : t.passResult.Inv := { hbuilt with }
  refine ⟨_, ⟨exec_inv hpassed hderive, ?_, ?_, htree, rfl, fun sym hsym => ?_⟩, hsrc, ?_, ?_⟩
  · rw [hframe]
    exact ⟨rfl, rfl, rfl⟩
  · rw [hframe]
    exact hfree
  · have hoccurs : sym ∈ s.source := by rw [State.source, ← hsrc]; exact hsym
    refine (hcovers sym.toNat).mpr ?_
    change t.count sym.toNat ≠ 0#32
    rw [State.count, hft]
    exact State.countedSession_count_ne_zero hoccurs
  · rw [hframe]
    rfl
  · rw [stageByStage, commands_cons (exec_sysClear_of_idle hidle), commands_cons (exec_fcCount_clearSession hfree),
      commands_cons hbuild]
    exact commands_cons hderive

/-! ### The encoder (R200, R203, R279) -/

/-- A payload takes at most a codeword of `NSYM` bits per symbol. -/
theorem State.Coded.payload_length_le {s : State} (h : s.Coded) :
    (s.payload s.source).length ≤ s.src.len.toNat * s.cfg.nsym := by
  have hcode (sym : Symbol) (hsym : sym ∈ s.source) : ((s.codeword sym.toNat).getD []).length ≤ s.cfg.nsym := by
    obtain ⟨code, hget⟩ := Option.isSome_iff_exists.mp (h.source sym hsym)
    rw [hget, Option.getD_some]
    rw [State.codeword, h.codebook] at hget
    rcases h.tree with hnil | htree
    · simp [hnil, State.tree_nilId, Tree.codebook] at hget
    · exact Nat.le_trans (Tree.codebook_length_le htree.wellFormed hget) (h.inv.leaves_length_le htree)
  rw [State.payload, List.length_flatMap, ← s.source_length, ← List.length_map (as := s.source)]
  refine List.sum_le_card_nsmul _ _ fun n hn => ?_
  obtain ⟨sym, hsym, rfl⟩ := List.mem_map.mp hn
  exact hcode sym hsym

section

variable {s : State} (hfree : s.FaultFree)

include hfree

/-- A bit beyond the largest `BW_TOTAL` raises `CapacityExceeded` (R122, R279). -/
theorem writeBits_overflow (more : Bits) {bits : Bits} (hbits : bits.length < 2 ^ 32)
    (h : 2 ^ 32 ≤ bits.length + more.length) :
    ∃ t, writeBits more (s.writing bits) = .raised .capacityExceeded t := by
  induction more generalizing bits with
  | nil => rw [List.length_nil] at h; omega
  | cons b more ih =>
    rw [List.length_cons] at h
    rw [writeBits]
    by_cases hroom : bits.length + 1 < 2 ^ 32
    · rw [bwWriteBit_writing hfree b hroom, Run.andThen_done]
      exact ih (by rw [List.length_append, List.length_singleton]; omega)
        (by rw [List.length_append, List.length_singleton]; omega)
    · have hmax : (s.writing bits).bwTotal = wordMax := by
        rw [State.writing, show bits.length = 2 ^ 32 - 1 by omega]
        rfl
      exact ⟨_, by rw [bwWriteBit, if_pos hmax, Run.andThen_raised]⟩

/-- So does the first symbol whose codeword does not fit in `BW_TOTAL`. -/
theorem encLoop_overflow (n i : Nat) {bits : Bits}
    (hcode : ∀ sym ∈ s.symbolsFrom i n, (s.codeword sym.toNat).isSome = true)
    (hbits : bits.length < 2 ^ 32) (h : 2 ^ 32 ≤ bits.length + (s.payload (s.symbolsFrom i n)).length) :
    ∃ t, encLoop n i (s.writing bits) = .raised .capacityExceeded t := by
  induction n generalizing i bits with
  | zero =>
    simp only [State.symbolsFrom, List.range'_zero, List.map_nil, State.payload_nil, List.length_nil] at h
    omega
  | succ n ih =>
    rw [State.symbolsFrom_succ] at hcode h
    obtain ⟨code, hc⟩ := Option.isSome_iff_exists.mp (hcode _ List.mem_cons_self)
    rw [State.payload_cons hc, List.length_append] at h
    rw [encLoop, readSrc_faultFree (hfree.writing bits), Run.andThen_done,
      show (s.writing bits).src = s.src from rfl]
    by_cases hroom : bits.length + code.length < 2 ^ 32
    · rw [encSymbol_writing hfree hc hroom, Run.andThen_done]
      exact ih (i + 1) (fun sym hsym => hcode sym (List.mem_cons_of_mem _ hsym))
        (by rw [List.length_append]; omega) (by rw [List.length_append]; omega)
    · obtain ⟨t, hraise⟩ := writeBits_overflow hfree code hbits (by omega)
      rw [encSymbol, show (s.writing bits).codeword _ = _ from hc]
      exact ⟨t, by simp only [hraise, Run.andThen_raised]⟩

/-- A payload that does not fit in `BW_TOTAL` ends the encoder. -/
theorem encRun_overflow (hcode : ∀ sym ∈ s.source, (s.codeword sym.toNat).isSome = true)
    (h : 2 ^ 32 ≤ (s.payload s.source).length) : ∃ t, encRun s = .raised .capacityExceeded t := by
  rw [State.source_eq_symbolsFrom] at hcode h
  obtain ⟨t, hloop⟩ := encLoop_overflow hfree _ 0 (bits := []) hcode (by decide) (by simpa using h)
  refine ⟨t, ?_⟩
  rw [encRun, bwOpenRun_writing hfree, Run.andThen_done, openRead_faultFree (hfree.writing []), Run.andThen_done,
    show (s.writing []).src = s.src from rfl, hloop, Run.andThen_raised]

end

/-- The encoder leaves the stream of the source and nothing of the code changed, or the payload is too long. -/
theorem State.Coded.exec_encRun {s : State} (h : s.Coded) :
    (∃ t, exec .encRun s = .next t ∧ t.Coded ∧ t.src = s.src ∧ t.cmpValid = true ∧
      t.cmp.IsStream (t.payload t.source)) ∨
    ∃ t, exec .encRun s = .next t ∧ t.err = some .capacityExceeded ∧ 2 ^ 32 ≤ s.src.len.toNat * s.cfg.nsym := by
  by_cases hfits : (s.payload s.source).length < 2 ^ 32
  · obtain ⟨t, hexec, hstream, -, hframe, -⟩ :=
      encRunWritesThePayload s h.inv h.idle h.faultFree h.source hfits
    have hkept : t.Coded ∧ t.src = s.src ∧ t.cmpValid = true ∧ t.payload t.source = s.payload s.source := by
      have hinv := exec_inv h.inv hexec
      rw [hframe] at hinv ⊢
      exact ⟨{ h with inv := hinv, idle := { h.idle with } }, rfl, rfl, rfl⟩
    obtain ⟨hcoded, hsrc, hvalid, hpayload⟩ := hkept
    exact .inl ⟨t, hexec, hcoded, hsrc, hvalid, hpayload ▸ hstream⟩
  · obtain ⟨t, hrun⟩ := encRun_overflow h.faultFree h.source (Nat.le_of_not_lt hfits)
    have herr : t.err = none := by
      have hbody := body_err (i := .encRun) (.inl h.idle.noFault)
      rwa [body, hrun] at hbody
    refine .inr ⟨_, exec_raised h.idle.noFault (acceptable_of_idle h.idle (by simp)) hrun, ?_,
      Nat.le_trans (Nat.le_of_not_lt hfits) h.payload_length_le⟩
    rw [State.raiseFault_err, herr]
    rfl

/-! ### The decoder (R226) -/

/-- Symbols with their codewords, nothing for a symbol that has none. -/
def State.codePairs (s : State) (syms : List Symbol) : List (Symbol × Bits) :=
  syms.map fun sym => (sym, (s.codeword sym.toNat).getD [])

theorem State.codePairs_symbols (s : State) (syms : List Symbol) : (s.codePairs syms).map (fun y => y.1) = syms := by
  simp [State.codePairs, Function.comp_def]

theorem State.codePairs_bits (s : State) (syms : List Symbol) :
    (s.codePairs syms).flatMap (fun y => y.2) = s.payload syms := by
  rw [State.codePairs, List.flatMap_map, State.payload]

section

variable {s : State} (h : s.Coded)

include h

/-- The empty tree codes no symbol. -/
theorem State.Coded.source_of_empty (hnil : s.arg0 = nilId) : s.source = [] := by
  refine List.eq_nil_iff_forall_not_mem.mpr fun sym hsym => ?_
  have hcode := h.source sym hsym
  rw [State.codeword, h.codebook, hnil, State.tree_nilId] at hcode
  cases hcode

/-- A single leaf codes its symbol only, each time with one bit (R187). -/
theorem State.Coded.source_of_leaf {sym : Symbol} {w : Word} (htree : s.tree s.arg0 = .leaf sym w) :
    s.source = List.replicate (s.payload s.source).length sym := by
  have hcb : s.cb = [(sym.toNat, [false])] := by rw [h.codebook, htree, Tree.codebook_leaf]
  have hall : ∀ x ∈ s.source, x = sym := fun x hx => by
    have hcode := h.source x hx
    rw [State.codeword, hcb, Memory.get?_cons] at hcode
    by_contra hne
    rw [if_neg fun heq => hne (BitVec.eq_of_toNat_eq heq.symm)] at hcode
    cases hcode
  have hsource := List.eq_replicate_of_mem hall
  have hlen : (s.payload s.source).length = s.source.length := by
    rw [hsource]
    simp [State.payload, State.codeword, hcb, Memory.get?_cons]
  rw [hlen]
  exact hsource

/-- Below an internal root the source is coded by paths to leaves. -/
theorem State.Coded.codePairs_paths {l r : Tree} {w : Word} (htree : s.tree s.arg0 = .inner l r w)
    (hdistinct : (s.tree s.arg0).leaves.Nodup) : ∀ y ∈ s.codePairs s.source, y ∈ (s.tree s.arg0).paths := by
  intro y hy
  obtain ⟨sym, hsym, rfl⟩ := List.mem_map.mp hy
  obtain ⟨code, hcode⟩ := Option.isSome_iff_exists.mp (h.source sym hsym)
  rw [hcode, Option.getD_some]
  rw [State.codeword, h.codebook] at hcode
  rw [htree] at hcode hdistinct ⊢
  exact (Tree.codebook_get?_inner hdistinct sym code).mp hcode

/-- Decoding the stream of the source gives the source. -/
theorem State.Coded.exec_decRun (hstream : s.cmp.IsStream (s.payload s.source)) :
    ∃ t, exec .decRun s = .next t ∧ t.err = none ∧ t.outValid = true ∧ t.cmpValid = s.cmpValid ∧
      t.out.contents 0#16 = s.source := by
  have hbits := hstream.delivered_eq
  have hshort := hstream.short_eq
  rcases h.tree with hnil | hhuffman
  · have hsource := h.source_of_empty hnil
    rw [hsource, State.payload_nil] at hbits
    obtain ⟨t, hexec, herr, -, hlen, hvalid, hframe, -⟩ :=
      (decRunOfTheEmptyTree s h.idle h.faultFree hnil).1 hbits hshort
    refine ⟨t, hexec, herr, hvalid, by rw [hframe], ?_⟩
    rw [hsource, Space.contents, hlen]
    rfl
  · cases htree : s.tree s.arg0 with
    | empty => exact absurd htree hhuffman.ne_empty
    | leaf sym w =>
      obtain ⟨t, hexec, herr, hvalid, hcontents, -, hframe, -⟩ :=
        decRunOfASingleLeaf s sym w h.inv h.idle h.faultFree (h.inv.leaf_of_tree htree) hshort
      rw [hbits, ← h.source_of_leaf htree] at hcontents
      exact ⟨t, hexec, herr, hvalid, by rw [hframe], hcontents⟩
    | inner l r w =>
      obtain ⟨hpaths, -⟩ := decRunDecodesPaths s l r w h.inv h.idle h.faultFree htree
      obtain ⟨t, hexec, herr, hvalid, hcontents, -, hframe, -⟩ := hpaths (s.codePairs s.source)
        (h.codePairs_paths htree hhuffman.distinct) (hbits.trans (s.codePairs_bits s.source).symm) hshort
      exact ⟨t, hexec, herr, hvalid, by rw [hframe], hcontents.trans (s.codePairs_symbols s.source)⟩

end

/-! ### The session (R255) -/

/-- How a session from `s` ends: with the source reproduced, or with a capacity exceeded, the source being that long. -/
def State.SessionEnds (s t : State) : Prop :=
  (t.err = none ∧ t.outValid = true ∧ t.cmpValid = true ∧ t.out.contents 0#16 = s.source) ∨
    (t.err = some .capacityExceeded ∧ 2 ^ 32 ≤ s.src.len.toNat * s.cfg.nsym)

theorem stageByStage_ends {s : State} (hinv : s.Inv) (hidle : s.Idle) (hfree : s.FaultFree) :
    ∃ u, stageByStage s = some u ∧ s.SessionEnds u := by
  obtain ⟨v, hcoded, hsrc, hcfg, hstages⟩ := stageByStage_coded hinv hidle hfree
  rw [hstages]
  rcases hcoded.exec_encRun with ⟨w, hencode, hcoded', hsrc', hvalid, hstream⟩ | ⟨w, hencode, herr, hlarge⟩
  · obtain ⟨u, hdecode, herr, hout, hcmp, hcontents⟩ := hcoded'.exec_decRun hstream
    refine ⟨u, (commands_cons hencode).trans (commands_cons hdecode), .inl ⟨herr, hout, hcmp.trans hvalid, ?_⟩⟩
    rw [hcontents, State.source, hsrc', hsrc]
    rfl
  · rw [hsrc, hcfg] at hlarge
    refine ⟨w, ?_, .inr ⟨herr, hlarge⟩⟩
    rw [commands_cons hencode, commands_eq_issueAll, issueAll_faulted (by simp [herr]) (by simp)]

/-- Equal contents are equal lengths and equal cells below them. -/
theorem Space.eq_of_contents_eq {α : Type} {d : α} {sp sp' : Space α} (h : sp.contents d = sp'.contents d) :
    sp.len = sp'.len ∧ ∀ i, i < sp'.len.toNat → sp.read d i = sp'.read d i := by
  have hlen : sp.len = sp'.len := by
    have := congrArg List.length h
    simp only [Space.contents, List.length_map, List.length_range] at this
    exact BitVec.eq_of_toNat_eq this
  refine ⟨hlen, fun i hi => ?_⟩
  rw [Space.contents, Space.contents, hlen] at h
  exact List.map_inj_left.mp h i (List.mem_range.mpr hi)

theorem State.SessionEnds.reproduces {s t : State} (h : s.SessionEnds t) (herr : t.err ≠ some .capacityExceeded) :
    t.err = none ∧ t.out.len = s.src.len ∧ t.cmpValid = true ∧ t.outValid = true ∧
      ∀ i, i < s.src.len.toNat → t.out.read 0#16 i = s.src.read 0#16 i := by
  obtain ⟨hnone, hout, hcmp, hcontents⟩ := h.resolve_right fun hfull => herr hfull.1
  obtain ⟨hlen, hcells⟩ := Space.eq_of_contents_eq hcontents
  exact ⟨hnone, hlen, hcmp, hout, hcells⟩

/-- Settles O58: the stages one after another by `stageByStage_ends`, and `SES.RUN` ends as they do (R237). -/
theorem sessionRoundTrip : Obligations.SessionRoundTrip := by
  unfold Obligations.SessionRoundTrip
  intro s hinv hidle hfree
  obtain ⟨t, u, hsession, hstages, hsame, -⟩ := sesRunIsTheStageSequence s hidle
  obtain ⟨u', hstages', hends⟩ := stageByStage_ends hinv hidle hfree
  obtain rfl := Option.some.inj (hstages'.symm.trans hstages)
  have hlike : s.SessionEnds t := by rw [hsame] at hends; exact hends
  refine ⟨⟨t, hsession, hlike.reproduces, fun hsmall => ?_⟩, u', hstages, hends.reproduces⟩
  exact (hlike.resolve_right fun hfull => Nat.not_le.mpr hsmall hfull.2).1

end Sys2Proof.Machine
end
